-- ==== Sys2Proof/Word.lean ====
section
/-! DEFINITION. The plain data types of the spec: bytes and bit sequences (00_scope.md R4, R5). -/

namespace Sys2Proof

/-- A byte, an integer 0..255 (R5). -/
abbrev Byte := BitVec 8

/-- A bit sequence: a finite ordered sequence of bits, position 1 first (R4). Its length is part of the value, so
that the functions of 40_bit_utilities.md can check it. -/
abbrev BitSeq := List Bool

end Sys2Proof
end

