-- ==== Sys2Proof/Config.lean ====
section
/-! DEFINITION. The two open parameters of the hardware (R3): configuration, fixed for a machine. They are carried in
`State.cfg`, so that every statement about all states is a statement about all instances. The default instance is in
Machine/Tables.lean. -/

namespace Sys2Proof

/-- The open parameters of R3. `gostSbox[j-1][v]` is `GOST_SBOX[j][v]`, an entry in 0..15 by its type (R90). -/
structure Config where
  /-- `BUF_MAX`, the capacity of the message buffer in bytes -/
  bufMax : Nat
  /-- `GOST_SBOX[1..8]`, eight tables of sixteen 4-bit values -/
  gostSbox : Vector (Vector (BitVec 4) 16) 8
  deriving DecidableEq, Repr

end Sys2Proof
end

