-- ==== Sys2Proof/Syntax.lean ====
section
/-! DEFINITION. The syntax: the 26 commands of spec/opcode_table.json, the fields of a command byte, the error names
and the events the host can cause. -/

namespace Sys2Proof

/-- The cipher variants (R57). -/
inductive Cipher
  | des
  | gost
  deriving DecidableEq, Repr

/-- The modes of operation (R58). -/
inductive Mode
  | ecb
  | cbc
  | cfb
  | ofb
  deriving DecidableEq, Repr

/-- The direction of a run of the block driver (R120). -/
inductive Direction
  | enc
  | dec
  deriving DecidableEq, Repr

/-- The operations of the `OP` field (R56). -/
inductive Op
  | nop
  | clr
  | kexp
  | frnd
  | benc
  | bdec
  | menc
  | mdec
  deriving DecidableEq, Repr

/-- The commands: one constructor per row of spec/opcode_table.json. A command has no operand field: its operands are
fixed registers (R55). -/
inductive Instr
  | nop
  | clr
  | kexpDes
  | frndDes
  | bencDes
  | bdecDes
  | mencDesEcb
  | mdecDesEcb
  | kexpGost
  | frndGost
  | bencGost
  | bdecGost
  | mencGostEcb
  | mdecGostEcb
  | mencDesCbc
  | mdecDesCbc
  | mencGostCbc
  | mdecGostCbc
  | mencDesCfb
  | mdecDesCfb
  | mencGostCfb
  | mdecGostCfb
  | mencDesOfb
  | mdecDesOfb
  | mencGostOfb
  | mdecGostOfb
  deriving DecidableEq, Repr

/-- The four fields of a command byte (R55). -/
structure CommandFields where
  /-- bit 7, must be 0 -/
  rsv : BitVec 1
  /-- bits 6:5 -/
  mode : BitVec 2
  /-- bit 4 -/
  cipher : BitVec 1
  /-- bits 3:0 -/
  op : BitVec 4
  deriving DecidableEq, Repr

/-- Why a command byte is illegal: the four cases of R59, in its order. Each is answered by `IllegalCommand`. -/
inductive IllegalReason
  /-- case 1: the reserved bit 7 is set -/
  | reservedBit
  /-- case 2: a reserved operation, `OP >= 8` -/
  | reservedOp
  /-- case 3: NOP or CLR with a non-zero `CIPHER` or `MODE` -/
  | systemFields
  /-- case 4: KEXP, FRND, BENC or BDEC with a non-zero `MODE` -/
  | modeField
  deriving DecidableEq, Repr

/-- The errors of R171, in the order of their codes 1 to 8. -/
inductive CipherError
  | invalidKeyLength
  | invalidIVLength
  | invalidBlockWidth
  | indexOutOfRange
  | invalidPadding
  | illegalCommand
  | messageTooLong
  | invalidLength
  deriving DecidableEq, Repr

/-- What can reach the engine from outside (20_memory.md section 5, R195): one host read, one host write, or the
hardware reset. Addresses are any natural number; R35 takes them modulo 2^18. -/
inductive HostEvent
  | read (a : Nat)
  | write (a : Nat) (v : Byte)
  | reset
  deriving DecidableEq, Repr

end Sys2Proof
end

