-- ==== Sys2Proof/WellFormed.lean ====
section
/-! DEFINITION. Well-formedness: of a command's fields (R59), of a parameter instance (R3). A command of `Instr` has no
operand field, so it is well formed when the fields it stands for are (`Instr.wellFormed` in Decode.lean). -/

namespace Sys2Proof

/-- R59 case 1: the reserved bit must be 0. -/
def CommandFields.reservedBitClear (f : CommandFields) : Bool := f.rsv == 0

/-- R59 case 2: operations 8..15 are reserved. -/
def CommandFields.operationDefined (f : CommandFields) : Bool := decide (f.op.toNat < 8)

/-- R59 case 3: NOP and CLR have `CIPHER = 0` and `MODE = 0`. -/
def CommandFields.systemFieldsClear (f : CommandFields) : Bool :=
  !(f.op == 0 || f.op == 1) || (f.cipher == 0 && f.mode == 0)

/-- R59 case 4: KEXP, FRND, BENC and BDEC have `MODE = 0`. -/
def CommandFields.modeFieldClear (f : CommandFields) : Bool :=
  !(f.op == 2 || f.op == 3 || f.op == 4 || f.op == 5) || f.mode == 0

/-- The fields of a legal command: none of the four cases of R59 holds. -/
def CommandFields.legal (f : CommandFields) : Bool :=
  f.reservedBitClear && f.operationDefined && f.systemFieldsClear && f.modeFieldClear

/-- The constraint R3 puts on `BUF_MAX`: a multiple of 8, at least 88 and at most 65528. `GOST_SBOX` has none. -/
def Config.legal (c : Config) : Bool :=
  decide (c.bufMax % 8 = 0) && decide (88 ≤ c.bufMax) && decide (c.bufMax ≤ 65528)

end Sys2Proof
end

