-- ==== Sys2Proof/Decode.lean ====
section
/-! DEFINITION. The decoder, total on every byte (R61), then the encoder written from the same field tables
(R55 to R58). -/

namespace Sys2Proof

/-- The four fields of the command byte `w` (R55). -/
def splitCommand (w : Byte) : CommandFields where
  rsv := w.extractLsb' 7 1
  mode := w.extractLsb' 5 2
  cipher := w.extractLsb' 4 1
  op := w.extractLsb' 0 4

/-- The command byte of four fields (R55, R62): `(RSV << 7) | (MODE << 5) | (CIPHER << 4) | OP`. -/
def joinCommand (f : CommandFields) : Byte :=
  f.rsv ++ f.mode ++ f.cipher ++ f.op

/-- `CIPHER` (R57). -/
def decodeCipher (b : BitVec 1) : Cipher :=
  if b = 0 then .des else .gost

/-- `MODE` (R58). -/
def decodeMode (b : BitVec 2) : Mode :=
  if b = 0 then .ecb else if b = 1 then .cbc else if b = 2 then .cfb else .ofb

/-- KEXP of a cipher (R61). -/
def kexpInstr : Cipher → Instr
  | .des => .kexpDes
  | .gost => .kexpGost

/-- FRND of a cipher (R61). -/
def frndInstr : Cipher → Instr
  | .des => .frndDes
  | .gost => .frndGost

/-- BENC of a cipher (R61). -/
def bencInstr : Cipher → Instr
  | .des => .bencDes
  | .gost => .bencGost

/-- BDEC of a cipher (R61). -/
def bdecInstr : Cipher → Instr
  | .des => .bdecDes
  | .gost => .bdecGost

/-- MENC of a cipher and a mode (R61). -/
def mencInstr : Cipher → Mode → Instr
  | .des, .ecb => .mencDesEcb
  | .des, .cbc => .mencDesCbc
  | .des, .cfb => .mencDesCfb
  | .des, .ofb => .mencDesOfb
  | .gost, .ecb => .mencGostEcb
  | .gost, .cbc => .mencGostCbc
  | .gost, .cfb => .mencGostCfb
  | .gost, .ofb => .mencGostOfb

/-- MDEC of a cipher and a mode (R61). -/
def mdecInstr : Cipher → Mode → Instr
  | .des, .ecb => .mdecDesEcb
  | .des, .cbc => .mdecDesCbc
  | .des, .cfb => .mdecDesCfb
  | .des, .ofb => .mdecDesOfb
  | .gost, .ecb => .mdecGostEcb
  | .gost, .cbc => .mdecGostCbc
  | .gost, .cfb => .mdecGostCfb
  | .gost, .ofb => .mdecGostOfb

/-- Decode the fields of a command byte: the checks of R59 in their order, then the table of R61. -/
def decodeFields (f : CommandFields) : Except IllegalReason Instr :=
  if f.rsv ≠ 0 then .error .reservedBit
  else
    match f.op.toNat with
    | 0 => if f.cipher ≠ 0 ∨ f.mode ≠ 0 then .error .systemFields else .ok .nop
    | 1 => if f.cipher ≠ 0 ∨ f.mode ≠ 0 then .error .systemFields else .ok .clr
    | 2 => if f.mode ≠ 0 then .error .modeField else .ok (kexpInstr (decodeCipher f.cipher))
    | 3 => if f.mode ≠ 0 then .error .modeField else .ok (frndInstr (decodeCipher f.cipher))
    | 4 => if f.mode ≠ 0 then .error .modeField else .ok (bencInstr (decodeCipher f.cipher))
    | 5 => if f.mode ≠ 0 then .error .modeField else .ok (bdecInstr (decodeCipher f.cipher))
    | 6 => .ok (mencInstr (decodeCipher f.cipher) (decodeMode f.mode))
    | 7 => .ok (mdecInstr (decodeCipher f.cipher) (decodeMode f.mode))
    | _ => .error .reservedOp

/-- Decode a command byte (R61). It reads only the byte; every byte has exactly one outcome. -/
def decode (w : Byte) : Except IllegalReason Instr := decodeFields (splitCommand w)

/-- The operation of a command, its `OP` field (R56). -/
def Instr.op : Instr → Op
  | .nop => .nop
  | .clr => .clr
  | .kexpDes | .kexpGost => .kexp
  | .frndDes | .frndGost => .frnd
  | .bencDes | .bencGost => .benc
  | .bdecDes | .bdecGost => .bdec
  | .mencDesEcb | .mencGostEcb | .mencDesCbc | .mencGostCbc | .mencDesCfb | .mencGostCfb | .mencDesOfb
  | .mencGostOfb => .menc
  | .mdecDesEcb | .mdecGostEcb | .mdecDesCbc | .mdecGostCbc | .mdecDesCfb | .mdecGostCfb | .mdecDesOfb
  | .mdecGostOfb => .mdec

/-- The cipher variant a command names; none for NOP and CLR (R56, column "uses CIPHER"). -/
def Instr.cipher : Instr → Option Cipher
  | .nop | .clr => none
  | .kexpDes | .frndDes | .bencDes | .bdecDes | .mencDesEcb | .mdecDesEcb | .mencDesCbc | .mdecDesCbc | .mencDesCfb
  | .mdecDesCfb | .mencDesOfb | .mdecDesOfb => some .des
  | .kexpGost | .frndGost | .bencGost | .bdecGost | .mencGostEcb | .mdecGostEcb | .mencGostCbc | .mdecGostCbc
  | .mencGostCfb | .mdecGostCfb | .mencGostOfb | .mdecGostOfb => some .gost

/-- The mode of operation a command names; only MENC and MDEC have one (R56, column "uses MODE"). -/
def Instr.mode : Instr → Option Mode
  | .nop | .clr | .kexpDes | .kexpGost | .frndDes | .frndGost | .bencDes | .bencGost | .bdecDes | .bdecGost => none
  | .mencDesEcb | .mencGostEcb | .mdecDesEcb | .mdecGostEcb => some .ecb
  | .mencDesCbc | .mencGostCbc | .mdecDesCbc | .mdecGostCbc => some .cbc
  | .mencDesCfb | .mencGostCfb | .mdecDesCfb | .mdecGostCfb => some .cfb
  | .mencDesOfb | .mencGostOfb | .mdecDesOfb | .mdecGostOfb => some .ofb

/-- The number of an operation in the `OP` field (R56). -/
def encodeOp : Op → BitVec 4
  | .nop => 0
  | .clr => 1
  | .kexp => 2
  | .frnd => 3
  | .benc => 4
  | .bdec => 5
  | .menc => 6
  | .mdec => 7

/-- The `CIPHER` bit (R57); a command that does not use it has 0 (R56). -/
def encodeCipher : Option Cipher → BitVec 1
  | none => 0
  | some .des => 0
  | some .gost => 1

/-- The `MODE` bits (R58); a command that does not use them has 0 (R56). -/
def encodeMode : Option Mode → BitVec 2
  | none => 0
  | some .ecb => 0
  | some .cbc => 1
  | some .cfb => 2
  | some .ofb => 3

/-- The fields of a command (R55 to R58). -/
def encodeFields (i : Instr) : CommandFields where
  rsv := 0
  mode := encodeMode i.mode
  cipher := encodeCipher i.cipher
  op := encodeOp i.op

/-- The command byte of a command (R55 to R58). -/
def encode (i : Instr) : Byte := joinCommand (encodeFields i)

/-- A command is well formed when the fields it stands for are legal (R59). -/
def Instr.wellFormed (i : Instr) : Bool := (encodeFields i).legal

/-- The commands, in the order of spec/opcode_table.json. -/
def allInstrs : List Instr :=
  [.nop, .clr, .kexpDes, .frndDes, .bencDes, .bdecDes, .mencDesEcb, .mdecDesEcb, .kexpGost, .frndGost, .bencGost,
   .bdecGost, .mencGostEcb, .mdecGostEcb, .mencDesCbc, .mdecDesCbc, .mencGostCbc, .mdecGostCbc, .mencDesCfb,
   .mdecDesCfb, .mencGostCfb, .mdecGostCfb, .mencDesOfb, .mdecDesOfb, .mencGostOfb, .mdecGostOfb]

/-- What the decoder reads from a command whose bits are `w`, `nbits` of them given by the table and 0 above
(the table's numbering; a command is one byte, R55). -/
def decodeTableWord (nbits w : Nat) : Option Instr :=
  match decode (BitVec.ofNat 8 (w % 2 ^ nbits)) with
  | .ok i => some i
  | .error _ => none

end Sys2Proof
end

