-- ==== Sys2Proof/Machine/BitUtil.lean ====
section
/-! DEFINITION. The bit-vector utilities (40_bit_utilities.md). Each is a total function of its arguments apart from the
failures R71 and R72 state, which are kept in the type. -/

namespace Sys2Proof.Machine

/-- The eight bits of a byte, most significant first (R70). -/
def byteBits (b : Byte) : BitSeq := (List.range 8).map fun j => b.getLsbD (7 - j)

/-- `bytes_to_bits(B)` (R70). -/
def bytesToBits (B : List Byte) : BitSeq := B.flatMap byteBits

/-- `uint(s)`, first position most significant (R76). -/
def uint (s : BitSeq) : Nat := s.foldl (fun v b => 2 * v + b.toNat) 0

/-- `bits_n(v)` (R77): position `i` is bit `n - i` of `v`. R77 gives it for `v < 2^n` only; for a larger `v` the model
keeps the low `n` bits (DESIGN CHOICE log 13, dead in every command). -/
def bitsN (n v : Nat) : BitSeq := (List.range n).map fun i => v.testBit (n - 1 - i)

/-- The first `n` groups of eight bits as bytes (R71). -/
def packBytes : Nat → BitSeq → List Byte
  | 0, _ => []
  | n + 1, s => BitVec.ofNat 8 (uint (s.take 8)) :: packBytes n (s.drop 8)

/-- `bits_to_bytes(s)` (R71). -/
def bitsToBytes (s : BitSeq) : Except CipherError (List Byte) :=
  if s.length % 8 = 0 then .ok (packBytes (s.length / 8) s) else .error .invalidLength

/-- `permute(s, T)` with a 1-based table (R72). -/
def permute (s : BitSeq) (T : List Nat) : Except CipherError BitSeq :=
  if ∀ t ∈ T, 1 ≤ t ∧ t ≤ s.length then .ok (T.map fun t => s.getD (t - 1) false) else .error .indexOutOfRange

/-- `rotate_left(s, n)`, `n` taken modulo the length (R73). -/
def rotateLeft (s : BitSeq) (n : Nat) : BitSeq :=
  s.drop (n % s.length) ++ s.take (n % s.length)

/-- `rotate_right(s, n)` (R74). -/
def rotateRight (s : BitSeq) (n : Nat) : BitSeq :=
  s.drop (s.length - n % s.length) ++ s.take (s.length - n % s.length)

/-- `xor(a, b)` on bit sequences (R75), which gives it for equal lengths only (DESIGN CHOICE log 5). -/
def xorBits (a b : BitSeq) : BitSeq := List.zipWith Bool.xor a b

/-- `xor` on byte buffers, byte by byte (R75), for equal lengths as above (log 5). -/
def xorBytes (a b : List Byte) : List Byte := List.zipWith (fun x y => x ^^^ y) a b

/-- `add32(a, b)`: addition modulo 2^32, the carry discarded (R78). R78 gives it for 32-bit operands only; for other
lengths the model adds their `uint` values and answers 32 bits (DESIGN CHOICE log 13, dead in every command). -/
def add32 (a b : BitSeq) : BitSeq := bitsN 32 ((uint a + uint b) % 2 ^ 32)

/-- `s<a..b>`: positions `a` to `b` inclusive (R4); past the end of `s` what is there (log 6). -/
def slice (s : BitSeq) (a b : Nat) : BitSeq := (s.drop (a - 1)).take (b + 1 - a)

end Sys2Proof.Machine
end

