-- ==== Sys2Proof/Machine/KeySchedule.lean ====
section
/-! DEFINITION. The key schedule generator's two derivation functions (42_key_schedule.md). A schedule is the list of its
round keys, `K[1]` first. -/

namespace Sys2Proof.Machine

/-- The loop of R100: rotate both halves left by the round's shift, then select the round key. `C` and `D` are the
transient registers of R27. -/
def desRounds : List Nat → BitSeq → BitSeq → Except CipherError (List BitSeq)
  | [], _, _ => .ok []
  | n :: ns, C, D => do
    let K ← permute (rotateLeft C n ++ rotateLeft D n) desPC2
    let Ks ← desRounds ns (rotateLeft C n) (rotateLeft D n)
    return K :: Ks

/-- `derive_round_keys_des(k)` (R100). -/
def deriveDes (k : BitSeq) : Except CipherError (List BitSeq) :=
  if k.length = 64 then do
    let cd ← permute k desPC1
    desRounds desShifts (slice cd 1 28) (slice cd 29 56)
  else .error .invalidKeyLength

/-- `gost_index(i)`, the sub-key of round `i` in 1..32 (R102). -/
def gostIndex (i : Nat) : Nat := if i ≤ 24 then (i - 1) % 8 + 1 else 33 - i

/-- Sub-key `S[j]` of a 256-bit key (R101). -/
def gostSubKey (k : BitSeq) (j : Nat) : BitSeq := slice k (32 * j - 31) (32 * j)

/-- `derive_round_keys_gost(k)` (R101). -/
def deriveGost (k : BitSeq) : Except CipherError (List BitSeq) :=
  if k.length = 256 then .ok ((List.range' 1 32).map fun i => gostSubKey k (gostIndex i))
  else .error .invalidKeyLength

/-- `derive_round_keys_c(k)` of the cipher variant `c`. -/
def deriveRoundKeys : Cipher → BitSeq → Except CipherError (List BitSeq)
  | .des, k => deriveDes k
  | .gost, k => deriveGost k

/-- `K[i]` of a schedule, `i` from 1. -/
def roundKeyAt (K : List BitSeq) (i : Nat) : BitSeq := K.getD (i - 1) []

/-- A schedule of the cipher variant: `N(c)` round keys of `RK_BITS(c)` bits (R25). -/
def ScheduleShape (c : Cipher) (K : List BitSeq) : Prop := K.length = rounds c ∧ ∀ k ∈ K, k.length = rkBits c

end Sys2Proof.Machine
end

