-- ==== Sys2Proof/Machine/RoundFunction.lean ====
section
/-! DEFINITION. The round function F of the two variants (43_round_function.md R110 to R112). -/

namespace Sys2Proof.Machine

/-- S-box `j` on its six-bit group `g` (R110): the outer bits are the row, the inner four the column. -/
def desLookup (j : Nat) (g : BitSeq) : BitSeq :=
  bitsN 4 (desSBox j (2 * (g.getD 0 false).toNat + (g.getD 5 false).toNat) (uint (slice g 2 5)))

/-- The eight S-boxes on 48 bits (R110): group `j` is positions `6j-5..6j`. -/
def desSubstitute (x : BitSeq) : BitSeq :=
  (List.range' 1 8).flatMap fun j => desLookup j (slice x (6 * j - 5) (6 * j))

/-- `F_des(h, k)` (R110). -/
def fDes (h k : BitSeq) : Except CipherError BitSeq :=
  if h.length = 32 ∧ k.length = 48 then do
    let e ← permute h desE
    permute (desSubstitute (xorBits e k)) desP
  else .error .invalidBlockWidth

/-- The eight GOST-like S-boxes on 32 bits (R111): nibble `j` is positions `4j-3..4j` and uses table `j`. -/
def gostSubstitute (cfg : Config) (a : BitSeq) : BitSeq :=
  (List.range' 1 8).flatMap fun j => bitsN 4 (gostSBox cfg j (uint (slice a (4 * j - 3) (4 * j))))

/-- `F_gost(h, k)` (R111). -/
def fGost (cfg : Config) (h k : BitSeq) : Except CipherError BitSeq :=
  if h.length = 32 ∧ k.length = 32 then .ok (rotateLeft (gostSubstitute cfg (add32 h k)) 11)
  else .error .invalidBlockWidth

/-- `F_c(h, k)` of the cipher variant `c`. -/
def roundFunction (cfg : Config) : Cipher → BitSeq → BitSeq → Except CipherError BitSeq
  | .des, h, k => fDes h k
  | .gost, h, k => fGost cfg h k

end Sys2Proof.Machine
end

