-- ==== Sys2Proof/Machine/BlockDriver.lean ====
section
/-! DEFINITION. The block cipher driver (44_block_driver.md): the four steps of its state machine and the
single-block function `crypt` of R126 made of them. The state machine with its sequencer registers is in Sequencer.lean. -/

namespace Sys2Proof.Machine

/-- The half blocks `(L, R)` after step `Initial` (R121). -/
def initialHalves (c : Cipher) (b : BitSeq) : Except CipherError (BitSeq × BitSeq) := do
  let t ← permute b (initialTable c)
  return (slice t 1 32, slice t 33 64)

/-- The round key of round `i` (R123): forward to encrypt, backward to decrypt. -/
def roundKey (c : Cipher) (K : List BitSeq) (dir : Direction) (i : Nat) : BitSeq :=
  match dir with
  | .enc => roundKeyAt K i
  | .dec => roundKeyAt K (rounds c + 1 - i)

/-- Step `Round(i)` with round key `k` (R122): both halves change together, from the old values. -/
def feistelRound (cfg : Config) (c : Cipher) (k : BitSeq) (h : BitSeq × BitSeq) :
    Except CipherError (BitSeq × BitSeq) := do
  let f ← roundFunction cfg c h.2 k
  return (h.2, xorBits h.1 f)

/-- The rounds whose keys are listed, in order (R122). -/
def feistelRounds (cfg : Config) (c : Cipher) : List BitSeq → BitSeq × BitSeq → Except CipherError (BitSeq × BitSeq)
  | [], h => .ok h
  | k :: ks, h => do
    let h' ← feistelRound cfg c k h
    feistelRounds cfg c ks h'

/-- The round keys of a run in order of use (R123). -/
def keySequence (c : Cipher) (K : List BitSeq) (dir : Direction) : List BitSeq :=
  (List.range' 1 (rounds c)).map (roundKey c K dir)

/-- Step `Final` on the halves joined by step `Swapped`, right half first (R124, R125). -/
def finalBlock (c : Cipher) (h : BitSeq × BitSeq) : Except CipherError BitSeq :=
  permute (h.2 ++ h.1) (finalTable c)

/-- `crypt(c, K, b, dir)` (R126), with the width check of R132 before the first step. -/
def crypt (cfg : Config) (c : Cipher) (K : List BitSeq) (b : BitSeq) (dir : Direction) : Except CipherError BitSeq :=
  if b.length = 64 then do
    let h ← initialHalves c b
    let h' ← feistelRounds cfg c (keySequence c K dir) h
    finalBlock c h'
  else .error .invalidBlockWidth

/-- `E` and `D` on 8-byte buffers (R126, last paragraph): `bits_to_bytes(crypt(c, K, bytes_to_bits(x), dir))`. -/
def cryptBytes (cfg : Config) (c : Cipher) (K : List BitSeq) (dir : Direction) (x : List Byte) :
    Except CipherError (List Byte) := do
  let o ← crypt cfg c K (bytesToBits x) dir
  bitsToBytes o

end Sys2Proof.Machine
end

