-- ==== Sys2Proof/Machine/State.lean ====
section
/-! DEFINITION. The state of the machine as plain data: the registers and buffers of 10_state.md R10, the sequencer's two
rest states (R28, R196), and three fields of the model's own (the parameter instance and the two ends of the host port).
Then the reset state (R196). -/

namespace Sys2Proof.Machine

/-- Why a step stops with a fault: never. "there is no fatal/process-aborting error path" (R170); every error of the
hardware is a next state (R172). -/
inductive Fault
  deriving DecidableEq, Repr

/-- Why a step is refused. -/
inductive Refusal
  /-- the command has no meaning in the model; raised by no arm of `exec` (safe) -/
  | notModelled (mnemonic : String)
  deriving DecidableEq, Repr

/-- `DST`, the states of the block driver (R28, R120). -/
inductive DriverState
  | idle
  | initial
  | round
  | swapped
  | final
  deriving DecidableEq, Repr

/-- `MST`, the states of the mode controller (R28, R137). -/
inductive ModeState
  | idle
  | validate
  | schedule
  | padIn
  | block
  | unpad
  | done
  deriving DecidableEq, Repr

/-- The message buffer `MSG` as the list of its bytes that differ from what an unlisted offset reads as, by strictly
rising offset (`Memory.wf` in Ops.lean). -/
abbrev Memory := List Host.Cell

/-- The machine state. -/
structure State where
  /-- the model's own: the instance of the open parameters `BUF_MAX` and `GOST_SBOX` (R3); no step changes it -/
  cfg : Config
  /-- `STATUS` (R12) -/
  status : Byte
  /-- `ERR` (R13) -/
  err : Byte
  /-- `KLEN` (R14) -/
  klen : Byte
  /-- `IVLEN` (R15) -/
  ivlen : Byte
  /-- `MLEN` (R16) -/
  mlen : BitVec 16
  /-- `OUT`; its length is `OLEN` (R17) -/
  out : List Byte
  /-- `KEY[0..31]` (R18) -/
  key : Vector Byte 32
  /-- `IV[0..7]` (R19) -/
  iv : Vector Byte 8
  /-- `CV[0..7]` (R20) -/
  cv : Vector Byte 8
  /-- `BLK[0..7]` (R21) -/
  blk : Vector Byte 8
  /-- `HB[0..3]` (R22) -/
  hb : Vector Byte 4
  /-- `RKOP[0..5]` (R23) -/
  rkop : Vector Byte 6
  /-- `FO[0..3]` (R24) -/
  fo : Vector Byte 4
  /-- `RK[1..32]`, entry `i` at index `i - 1`; position 1 of an entry is its most significant bit (R25, R76) -/
  rk : Vector (BitVec 48) 32
  /-- `MSG[0..BUF_MAX-1]` (R26) -/
  msg : Memory
  /-- `DST` (R28) -/
  dst : DriverState
  /-- `MST` (R28) -/
  mst : ModeState
  /-- the model's own: host accesses and reset events not yet performed, oldest first -/
  pending : List HostEvent
  /-- the model's own: the bytes host reads have returned, oldest first -/
  returned : List Byte
  deriving DecidableEq, Repr

/-- The state after reset for a parameter instance (R196), with nothing waiting at the host port. -/
def State.resetWith (cfg : Config) : State where
  cfg := cfg
  status := 0
  err := 0
  klen := 0
  ivlen := 0
  mlen := 0
  out := []
  key := Vector.replicate 32 0
  iv := Vector.replicate 8 0
  cv := Vector.replicate 8 0
  blk := Vector.replicate 8 0
  hb := Vector.replicate 4 0
  rkop := Vector.replicate 6 0
  fo := Vector.replicate 4 0
  rk := Vector.replicate 32 0
  msg := []
  dst := .idle
  mst := .idle
  pending := []
  returned := []

/-- The state after reset (R196) of the default parameter instance (R3; DESIGN CHOICE log 1). -/
def State.reset : State := State.resetWith defaultConfig

end Sys2Proof.Machine
end

