-- ==== Sys2Proof/Machine/Flags.lean ====
section
/-! DEFINITION. The four flags of `STATUS` (10_state.md R12): where they stand, and the three ways a command writes them. -/

namespace Sys2Proof.Machine

/-- Bit `OK` (R12). -/
def okBit : Nat := 0

/-- Bit `ERRF` (R12). -/
def errfBit : Nat := 1

/-- Bit `RKV` (R12). -/
def rkvBit : Nat := 2

/-- Bit `RKC` (R12). -/
def rkcBit : Nat := 3

/-- `v` with bit `i` written with `b`; every other bit keeps its value. -/
def putBit (v : Byte) (i : Nat) (b : Bool) : Byte :=
  if b then v ||| (1#8 <<< i) else v &&& ~~~(1#8 <<< i)

/-- The flags after success: `OK <- 1`, `ERRF <- 0` (R12). -/
def statusSuccess (v : Byte) : Byte := putBit (putBit v okBit true) errfBit false

/-- The flags after an error: `OK <- 0`, `ERRF <- 1` (R172). -/
def statusError (v : Byte) : Byte := putBit (putBit v okBit false) errfBit true

/-- The flags after a schedule is stored: `RKV <- 1`, `RKC` the cipher variant (R105). -/
def statusSchedule (c : Cipher) (v : Byte) : Byte := putBit (putBit v rkvBit true) rkcBit (decide (c = .gost))

/-- Flag `OK` of a state. -/
def State.okFlag (s : State) : Bool := s.status.getLsbD okBit

/-- Flag `ERRF` of a state. -/
def State.errFlag (s : State) : Bool := s.status.getLsbD errfBit

/-- Flag `RKV` of a state. -/
def State.rkvFlag (s : State) : Bool := s.status.getLsbD rkvBit

/-- Flag `RKC` of a state. -/
def State.rkcFlag (s : State) : Bool := s.status.getLsbD rkcBit

end Sys2Proof.Machine
end

