-- ==== Sys2Proof/Machine/Ops.lean ====
section
/-! DEFINITION. The named operations over memory and registers: the message buffer, the byte buffers, taking an error
(`raise`, 60_exceptions.md R172), ending a command well, and storing a round-key schedule (R105). There is no return
from an error and nothing to restore (R183), so no operation stands beside `raise` for it. -/

namespace Sys2Proof.Machine

/-- What an unlisted offset of `MSG` reads as: its reset value (R26, R196). -/
def Memory.unlisted : Byte := 0

/-- The byte at an offset. -/
def Memory.read : Memory → Nat → Byte
  | [], _ => Memory.unlisted
  | (k, w) :: m, a => if a = k then w else Memory.read m a

/-- Store a byte at an offset, keeping the canonical form. -/
def Memory.write : Memory → Nat → Byte → Memory
  | [], a, v => if v = Memory.unlisted then [] else [(a, v)]
  | (k, w) :: m, a, v =>
    if a < k then (if v = Memory.unlisted then (k, w) :: m else (a, v) :: (k, w) :: m)
    else if a = k then (if v = Memory.unlisted then m else (a, v) :: m)
    else (k, w) :: Memory.write m a v

/-- The canonical form: offsets strictly rising, no entry equal to what an unlisted offset reads as. -/
def Memory.wf : Memory → Bool
  | [] => true
  | (k, w) :: m => w != Memory.unlisted && m.all (fun c => decide (k < c.1)) && Memory.wf m

/-- The byte at index `i` of a byte buffer; 0 past its end (never asked for, log 6). -/
def byteAt {n : Nat} (v : Vector Byte n) (i : Nat) : Byte := v.toList.getD i 0

/-- A byte buffer of `n` bytes from a list; the engine only stores lists of that length (log 6). -/
def bufferOf (n : Nat) (l : List Byte) : Vector Byte n := Vector.ofFn fun i => l.getD i.val 0

/-- The code of an error, the value written to `ERR` (R171). -/
def errorCode : CipherError → Byte
  | .invalidKeyLength => 1
  | .invalidIVLength => 2
  | .invalidBlockWidth => 3
  | .indexOutOfRange => 4
  | .invalidPadding => 5
  | .illegalCommand => 6
  | .messageTooLong => 7
  | .invalidLength => 8

/-- The sequencer at rest: the block driver and the mode controller back in `Idle` (R125, R137). -/
def State.restSequencer (s : State) : State := { s with dst := .idle, mst := .idle }

/-- `raise E` (R172): the command ends with the error; what it wrote before stays written. `message` says that the
command is MENC or MDEC, which then also leave `OUT` empty and their state machine in `Idle`. -/
def raise (e : CipherError) (message : Bool) (s : State) : State :=
  let s' : State := { s with err := errorCode e, status := statusError s.status }
  if message then { s' with out := [] }.restSequencer else s'

/-- The last line of every successful command but NOP and CLR: `ERR <- 0; OK <- 1; ERRF <- 0`. -/
def succeed (s : State) : State := { s with err := 0, status := statusSuccess s.status }

/-- Entry `i` of the round-key file for schedule `K` (R105): `K[i]` then zero bits up to 48, zero above `N(c)`. -/
def scheduleEntry (c : Cipher) (K : List BitSeq) (i : Nat) : BitVec 48 :=
  if i ≤ rounds c then
    BitVec.ofNat 48 (uint (roundKeyAt K i ++ List.replicate (48 - (roundKeyAt K i).length) false))
  else 0

/-- `store_schedule(c, K)` (R105): all 32 entries of `RK`, and `RKV`, `RKC`. -/
def storeSchedule (c : Cipher) (K : List BitSeq) (s : State) : State :=
  { s with
    rk := Vector.ofFn fun i => scheduleEntry c K (i.val + 1)
    status := statusSchedule c s.status }

end Sys2Proof.Machine
end

