-- ==== Sys2Proof/Machine/Operands.lean ====
section
/-! DEFINITION. The operands of the commands: fixed registers and buffers read as bytes or as bit sequences (10_state.md R18
to R26). A command byte names no operand (30_encoding.md R55). -/

namespace Sys2Proof.Machine

/-- The first `KEY_BYTES(c)` bytes of `KEY` (R18). -/
def keyOperand (c : Cipher) (s : State) : List Byte := s.key.toList.take (keyBytes c)

/-- `KEYBITS(c)`, the effective key (R18). -/
def keyBits (c : Cipher) (s : State) : BitSeq := bytesToBits (keyOperand c s)

/-- `HB` as a bit sequence (R22). -/
def halfBlockOperand (s : State) : BitSeq := bytesToBits s.hb.toList

/-- The round-key operand of FRND (R23): 48 bits of `RKOP` for DES-like, the first 32 for GOST-like. -/
def roundKeyOperand (c : Cipher) (s : State) : BitSeq := bytesToBits (s.rkop.toList.take (rkBits c / 8))

/-- `MESSAGE = MSG[0..MLEN-1]` (R26). -/
def message (s : State) : List Byte := (List.range s.mlen.toNat).map s.msg.read

/-- The padded length `MLEN + 8 - (MLEN mod 8)` (R135, R138). -/
def paddedLength (s : State) : Nat := s.mlen.toNat + 8 - s.mlen.toNat % 8

/-- A mode that uses `IV` and `CV` (00_scope.md glossary). -/
def chained : Mode → Bool
  | .ecb => false
  | .cbc => true
  | .cfb => true
  | .ofb => true

/-- The key length check of every keyed command (R173). -/
def keyLengthBad (c : Cipher) (s : State) : Bool := decide (s.klen.toNat ≠ keyBytes c)

/-- The IV length check of MENC and MDEC in a chained mode (R174). -/
def ivLengthBad (m : Mode) (s : State) : Bool := chained m && decide (s.ivlen.toNat ≠ 8)

end Sys2Proof.Machine
end

