-- ==== Sys2Proof/Machine/Block.lean ====
section
/-! DEFINITION. The meanings of BENC and BDEC (44_block_driver.md R128 to R131). -/

namespace Sys2Proof.Machine

/-- One block of `BLK` in place with schedule `K` already stored (R128 to R131); the driver ends in `Idle` (R125). -/
def transformBlock (c : Cipher) (dir : Direction) (K : List BitSeq) (s : State) : State :=
  match cryptBytes s.cfg c K dir s.blk.toList with
  | .error e => raise e false s
  | .ok o => succeed { s with blk := bufferOf 8 o, dst := .idle }

/-- `BENC.c` and `BDEC.c` (R128 to R131). -/
def cryptBlock (c : Cipher) (dir : Direction) (s : State) : State :=
  if keyLengthBad c s then raise .invalidKeyLength false s
  else
    match deriveRoundKeys c (keyBits c s) with
    | .error e => raise e false s
    | .ok K => transformBlock c dir K (storeSchedule c K s)

/-- BENC.DES (R128). -/
def execBencDes (s : State) : Host.Outcome State Fault Refusal := .next (cryptBlock .des .enc s)

/-- BENC.GOST (R129). -/
def execBencGost (s : State) : Host.Outcome State Fault Refusal := .next (cryptBlock .gost .enc s)

/-- BDEC.DES (R130). -/
def execBdecDes (s : State) : Host.Outcome State Fault Refusal := .next (cryptBlock .des .dec s)

/-- BDEC.GOST (R131). -/
def execBdecGost (s : State) : Host.Outcome State Fault Refusal := .next (cryptBlock .gost .dec s)

end Sys2Proof.Machine
end

