-- ==== Sys2Proof/Machine/Frnd.lean ====
section
/-! DEFINITION. The meanings of FRND (43_round_function.md R113, R114). -/

namespace Sys2Proof.Machine

/-- The bytes `FO` receives: `bits_to_bytes(F_c(HB, RKOP))` (R113, R114). -/
def roundFunctionBytes (c : Cipher) (s : State) : Except CipherError (List Byte) := do
  let f ← roundFunction s.cfg c (halfBlockOperand s) (roundKeyOperand c s)
  bitsToBytes f

/-- `FRND.c` (R113, R114); an error of a function would be the command's (R185). -/
def applyRound (c : Cipher) (s : State) : State :=
  match roundFunctionBytes c s with
  | .error e => raise e false s
  | .ok o => succeed { s with fo := bufferOf 4 o }

/-- FRND.DES (R113). -/
def execFrndDes (s : State) : Host.Outcome State Fault Refusal := .next (applyRound .des s)

/-- FRND.GOST (R114). -/
def execFrndGost (s : State) : Host.Outcome State Fault Refusal := .next (applyRound .gost s)

end Sys2Proof.Machine
end

