-- ==== Sys2Proof/Machine/Kexp.lean ====
section
/-! DEFINITION. The meanings of KEXP (42_key_schedule.md R103, R104). -/

namespace Sys2Proof.Machine

/-- `KEXP.c` (R103, R104). -/
def expandKey (c : Cipher) (s : State) : State :=
  if keyLengthBad c s then raise .invalidKeyLength false s
  else
    match deriveRoundKeys c (keyBits c s) with
    | .error e => raise e false s
    | .ok K => succeed (storeSchedule c K s)

/-- KEXP.DES (R103). -/
def execKexpDes (s : State) : Host.Outcome State Fault Refusal := .next (expandKey .des s)

/-- KEXP.GOST (R104). -/
def execKexpGost (s : State) : Host.Outcome State Fault Refusal := .next (expandKey .gost s)

end Sys2Proof.Machine
end

