-- ==== Sys2Proof/Machine/ModeLayer.lean ====
section
/-! DEFINITION. Padding, the per-block steps of the four modes, and the skeletons of MENC and MDEC (45_mode_layer.md R135
to R147). -/

namespace Sys2Proof.Machine

/-- The padding length `p = 8 - (n mod 8)` (R135). -/
def padLength (n : Nat) : Nat := 8 - n % 8

/-- `pad(M)` (R135). -/
def pad (M : List Byte) : List Byte := M ++ List.replicate (padLength M.length) (BitVec.ofNat 8 (padLength M.length))

/-- The last byte of a buffer as a number, `p` of R136. -/
def lastByte (B : List Byte) : Nat := (B.getD (B.length - 1) 0).toNat

/-- `unpad(B)` (R136), its checks in the order of the rule. -/
def unpad (B : List Byte) : Except CipherError (List Byte) :=
  if B.length = 0 then .error .invalidPadding
  else if lastByte B < 1 ∨ lastByte B > 8 then .error .invalidPadding
  else if lastByte B > B.length then .error .invalidPadding
  else if (B.drop (B.length - lastByte B)).any (fun x => x.toNat ≠ lastByte B) then .error .invalidPadding
  else .ok (B.take (B.length - lastByte B))

/-- Block `b` of a byte sequence, `S[8b..8b+7]` (R44). -/
def blockAt (S : List Byte) (b : Nat) : List Byte := (S.drop (8 * b)).take 8

/-- The first `n` blocks of a byte sequence in ascending order (R44, R46). -/
def blocksOf (n : Nat) (S : List Byte) : List (List Byte) := (List.range n).map (blockAt S)

/-- `enc_step(m, P)` (R140 to R143) with chaining value `cv`: the output block and the chaining value after it. -/
def encStep (cfg : Config) (c : Cipher) (K : List BitSeq) (m : Mode) (cv P : List Byte) :
    Except CipherError (List Byte × List Byte) :=
  match m with
  | .ecb => do
    let C ← cryptBytes cfg c K .enc P
    return (C, cv)
  | .cbc => do
    let C ← cryptBytes cfg c K .enc (xorBytes P cv)
    return (C, C)
  | .cfb => do
    let O ← cryptBytes cfg c K .enc cv
    return (xorBytes P O, xorBytes P O)
  | .ofb => do
    let O ← cryptBytes cfg c K .enc cv
    return (xorBytes P O, O)

/-- `dec_step(m, C)` (R144 to R147): CFB and OFB use the encrypt direction. -/
def decStep (cfg : Config) (c : Cipher) (K : List BitSeq) (m : Mode) (cv C : List Byte) :
    Except CipherError (List Byte × List Byte) :=
  match m with
  | .ecb => do
    let P ← cryptBytes cfg c K .dec C
    return (P, cv)
  | .cbc => do
    let P ← cryptBytes cfg c K .dec C
    return (xorBytes P cv, C)
  | .cfb => do
    let O ← cryptBytes cfg c K .enc cv
    return (xorBytes C O, C)
  | .ofb => do
    let O ← cryptBytes cfg c K .enc cv
    return (xorBytes C O, O)

/-- What a loop over blocks leaves: the error that ended it, if any, the chaining value, and the output so far. -/
structure BlockRun where
  /-- the error of the block that raised one (never, R182) -/
  error : Option CipherError
  /-- `CV` as the loop left it -/
  cv : List Byte
  /-- the output blocks, joined -/
  out : List Byte
  deriving DecidableEq, Repr

/-- The block loop of R138 and R139: blocks in ascending order, the chaining value threaded through. -/
def runBlocks (step : List Byte → List Byte → Except CipherError (List Byte × List Byte)) :
    List Byte → List (List Byte) → BlockRun
  | cv, [] => { error := none, cv := cv, out := [] }
  | cv, B :: Bs =>
    match step cv B with
    | .error e => { error := some e, cv := cv, out := [] }
    | .ok (o, cv') =>
      { error := (runBlocks step cv' Bs).error
        cv := (runBlocks step cv' Bs).cv
        out := o ++ (runBlocks step cv' Bs).out }

/-- The first error of `Validate` in MENC, in the order of R138 and R181. -/
def validateEnc (c : Cipher) (m : Mode) (s : State) : Option CipherError :=
  if paddedLength s > s.cfg.bufMax then some .messageTooLong
  else if keyLengthBad c s then some .invalidKeyLength
  else if ivLengthBad m s then some .invalidIVLength
  else none

/-- The first error of `Validate` in MDEC, in the order of R139 and R181. -/
def validateDec (c : Cipher) (m : Mode) (s : State) : Option CipherError :=
  if s.mlen.toNat > s.cfg.bufMax then some .messageTooLong
  else if keyLengthBad c s then some .invalidKeyLength
  else if ivLengthBad m s then some .invalidIVLength
  else if s.mlen.toNat % 8 ≠ 0 then some .invalidBlockWidth
  else none

/-- The chaining value a command starts from: `IV` in a chained mode (R138, R139), unused in ECB. -/
def startChaining (m : Mode) (s : State) : List Byte := if chained m then s.iv.toList else s.cv.toList

/-- `CV` after the block loop: written in a chained mode only (R20). -/
def storeChaining (m : Mode) (cv : List Byte) (s : State) : State :=
  if chained m then { s with cv := bufferOf 8 cv } else s

/-- `Schedule` (R138, R139): derive the round keys from `KEY` and store them; an error is the command's (R185). -/
def scheduleStage (c : Cipher) (s : State) : Except CipherError (List BitSeq × State) :=
  match deriveRoundKeys c (keyBits c s) with
  | .error e => .error e
  | .ok K => .ok (K, storeSchedule c K s)

/-- `Done` (R138, R139): `OUT` replaced whole, the outcome reported, the state machines back in `Idle`. -/
def finishMessage (o : List Byte) (s : State) : State := succeed { s with out := o }.restSequencer

/-- The stages of MENC after `Validate` (R138). -/
def encryptBlocks (c : Cipher) (m : Mode) (K : List BitSeq) (s : State) : State :=
  let run := runBlocks (encStep s.cfg c K m) (startChaining m s) (blocksOf (paddedLength s / 8) (pad (message s)))
  match run.error with
  | some e => raise e true (storeChaining m run.cv s)
  | none => finishMessage run.out (storeChaining m run.cv s)

/-- `MENC.c.m` (R138). -/
def encryptMessage (c : Cipher) (m : Mode) (s : State) : State :=
  match validateEnc c m s with
  | some e => raise e true s
  | none =>
    match scheduleStage c s with
    | .error e => raise e true s
    | .ok (K, s1) => encryptBlocks c m K s1

/-- The stages of MDEC after `Schedule` (R139): the blocks, then `Unpad`. -/
def decryptBlocks (c : Cipher) (m : Mode) (K : List BitSeq) (s : State) : State :=
  let run := runBlocks (decStep s.cfg c K m) (startChaining m s) (blocksOf (s.mlen.toNat / 8) (message s))
  match run.error with
  | some e => raise e true (storeChaining m run.cv s)
  | none =>
    match unpad run.out with
    | .error e => raise e true (storeChaining m run.cv s)
    | .ok M => finishMessage M (storeChaining m run.cv s)

/-- `MDEC.c.m` (R139). -/
def decryptMessage (c : Cipher) (m : Mode) (s : State) : State :=
  match validateDec c m s with
  | some e => raise e true s
  | none =>
    match scheduleStage c s with
    | .error e => raise e true s
    | .ok (K, s1) => decryptBlocks c m K s1

end Sys2Proof.Machine
end

