-- ==== Sys2Proof/Machine/Mdec.lean ====
section
/-! DEFINITION. The meanings of MDEC (45_mode_layer.md R152 to R155). -/

namespace Sys2Proof.Machine

/-- MDEC.DES.ECB (R152). -/
def execMdecDesEcb (s : State) : Host.Outcome State Fault Refusal := .next (decryptMessage .des .ecb s)

/-- MDEC.GOST.ECB (R152). -/
def execMdecGostEcb (s : State) : Host.Outcome State Fault Refusal := .next (decryptMessage .gost .ecb s)

/-- MDEC.DES.CBC (R153). -/
def execMdecDesCbc (s : State) : Host.Outcome State Fault Refusal := .next (decryptMessage .des .cbc s)

/-- MDEC.GOST.CBC (R153). -/
def execMdecGostCbc (s : State) : Host.Outcome State Fault Refusal := .next (decryptMessage .gost .cbc s)

/-- MDEC.DES.CFB (R154). -/
def execMdecDesCfb (s : State) : Host.Outcome State Fault Refusal := .next (decryptMessage .des .cfb s)

/-- MDEC.GOST.CFB (R154). -/
def execMdecGostCfb (s : State) : Host.Outcome State Fault Refusal := .next (decryptMessage .gost .cfb s)

/-- MDEC.DES.OFB (R155). -/
def execMdecDesOfb (s : State) : Host.Outcome State Fault Refusal := .next (decryptMessage .des .ofb s)

/-- MDEC.GOST.OFB (R155). -/
def execMdecGostOfb (s : State) : Host.Outcome State Fault Refusal := .next (decryptMessage .gost .ofb s)

end Sys2Proof.Machine
end

