-- ==== Sys2Proof/Machine/Menc.lean ====
section
/-! DEFINITION. The meanings of MENC (45_mode_layer.md R148 to R151). -/

namespace Sys2Proof.Machine

/-- MENC.DES.ECB (R148). -/
def execMencDesEcb (s : State) : Host.Outcome State Fault Refusal := .next (encryptMessage .des .ecb s)

/-- MENC.GOST.ECB (R148). -/
def execMencGostEcb (s : State) : Host.Outcome State Fault Refusal := .next (encryptMessage .gost .ecb s)

/-- MENC.DES.CBC (R149). -/
def execMencDesCbc (s : State) : Host.Outcome State Fault Refusal := .next (encryptMessage .des .cbc s)

/-- MENC.GOST.CBC (R149). -/
def execMencGostCbc (s : State) : Host.Outcome State Fault Refusal := .next (encryptMessage .gost .cbc s)

/-- MENC.DES.CFB (R150). -/
def execMencDesCfb (s : State) : Host.Outcome State Fault Refusal := .next (encryptMessage .des .cfb s)

/-- MENC.GOST.CFB (R150). -/
def execMencGostCfb (s : State) : Host.Outcome State Fault Refusal := .next (encryptMessage .gost .cfb s)

/-- MENC.DES.OFB (R151). -/
def execMencDesOfb (s : State) : Host.Outcome State Fault Refusal := .next (encryptMessage .des .ofb s)

/-- MENC.GOST.OFB (R151). -/
def execMencGostOfb (s : State) : Host.Outcome State Fault Refusal := .next (encryptMessage .gost .ofb s)

end Sys2Proof.Machine
end

