-- ==== Sys2Proof/Machine/System.lean ====
section
/-! DEFINITION. The meanings of the system commands (46_system_commands.md). -/

namespace Sys2Proof.Machine

/-- NOP (R160): nothing. -/
def execNop (s : State) : Host.Outcome State Fault Refusal := .next s

/-- Every register and buffer back to its reset value; the parameters and the host's side of the port stay (R161, R196). -/
def clearState (s : State) : State :=
  { State.resetWith s.cfg with pending := s.pending, returned := s.returned }

/-- CLR (R161). -/
def execClr (s : State) : Host.Outcome State Fault Refusal := .next (clearState s)

end Sys2Proof.Machine
end

