-- ==== Sys2Proof/Machine/Dispatch.lean ====
section
/-! DEFINITION. The dispatch of a decoded command to its meaning (30_encoding.md R61). -/

namespace Sys2Proof.Machine

def exec (i : Instr) (s : State) : Host.Outcome State Fault Refusal :=
  match i with
  | .nop => Sys2Proof.Machine.execNop s
  | .clr => Sys2Proof.Machine.execClr s
  | .kexpDes => Sys2Proof.Machine.execKexpDes s
  | .frndDes => Sys2Proof.Machine.execFrndDes s
  | .bencDes => Sys2Proof.Machine.execBencDes s
  | .bdecDes => Sys2Proof.Machine.execBdecDes s
  | .mencDesEcb => Sys2Proof.Machine.execMencDesEcb s
  | .mdecDesEcb => Sys2Proof.Machine.execMdecDesEcb s
  | .kexpGost => Sys2Proof.Machine.execKexpGost s
  | .frndGost => Sys2Proof.Machine.execFrndGost s
  | .bencGost => Sys2Proof.Machine.execBencGost s
  | .bdecGost => Sys2Proof.Machine.execBdecGost s
  | .mencGostEcb => Sys2Proof.Machine.execMencGostEcb s
  | .mdecGostEcb => Sys2Proof.Machine.execMdecGostEcb s
  | .mencDesCbc => Sys2Proof.Machine.execMencDesCbc s
  | .mdecDesCbc => Sys2Proof.Machine.execMdecDesCbc s
  | .mencGostCbc => Sys2Proof.Machine.execMencGostCbc s
  | .mdecGostCbc => Sys2Proof.Machine.execMdecGostCbc s
  | .mencDesCfb => Sys2Proof.Machine.execMencDesCfb s
  | .mdecDesCfb => Sys2Proof.Machine.execMdecDesCfb s
  | .mencGostCfb => Sys2Proof.Machine.execMencGostCfb s
  | .mdecGostCfb => Sys2Proof.Machine.execMdecGostCfb s
  | .mencDesOfb => Sys2Proof.Machine.execMencDesOfb s
  | .mdecDesOfb => Sys2Proof.Machine.execMdecDesOfb s
  | .mencGostOfb => Sys2Proof.Machine.execMencGostOfb s
  | .mdecGostOfb => Sys2Proof.Machine.execMdecGostOfb s

end Sys2Proof.Machine
end

