-- ==== Sys2Proof/Machine/HostMap.lean ====
section
/-! DEFINITION. The host address map (20_memory.md R35 to R39, R49), the host read, and the host write of every address but
`CMD`. -/

namespace Sys2Proof.Machine

/-- The named rows of the table of R36. Every other address is reserved. -/
inductive Region
  | cmd
  | status
  | err
  | klen
  | ivlen
  | mlenH
  | mlenL
  | olenH
  | olenL
  | iv
  | cv
  | key
  | blk
  | hb
  | fo
  | rkop
  | rk
  | msg
  | out
  deriving DecidableEq, Repr

/-- The rows in ascending order of address (R36). -/
def allRegions : List Region :=
  [.cmd, .status, .err, .klen, .ivlen, .mlenH, .mlenL, .olenH, .olenL, .iv, .cv, .key, .blk, .hb, .fo, .rkop, .rk,
   .msg, .out]

/-- The first address of a row (R36). -/
def regionBase : Region → Nat
  | .cmd => 0x00000
  | .status => 0x00001
  | .err => 0x00002
  | .klen => 0x00003
  | .ivlen => 0x00004
  | .mlenH => 0x00005
  | .mlenL => 0x00006
  | .olenH => 0x00007
  | .olenL => 0x00008
  | .iv => 0x00010
  | .cv => 0x00018
  | .key => 0x00020
  | .blk => 0x00040
  | .hb => 0x00048
  | .fo => 0x0004C
  | .rkop => 0x00050
  | .rk => 0x00100
  | .msg => 0x10000
  | .out => 0x20000

/-- The number of addresses of a row (R36). -/
def regionSize : Region → Nat
  | .cmd | .status | .err | .klen | .ivlen | .mlenH | .mlenL | .olenH | .olenL => 1
  | .iv | .cv | .blk => 8
  | .key => 32
  | .hb | .fo => 4
  | .rkop => 6
  | .rk => 0x100
  | .msg | .out => 0x10000

/-- The rows marked W in R36, less `CMD`: a host write stores its byte (R38). -/
def regionStores : Region → Bool
  | .klen | .ivlen | .mlenH | .mlenL | .iv | .key | .blk | .hb | .rkop | .msg => true
  | .cmd | .status | .err | .olenH | .olenL | .cv | .fo | .rk | .out => false

/-- The address space has 2^18 locations; an address is taken modulo 2^18 (R35). -/
def hostAddress (a : Nat) : Nat := a % 2 ^ 18

/-- The address `a` lies in row `r`. -/
def inRegion (a : Nat) (r : Region) : Bool := decide (regionBase r ≤ a) && decide (a < regionBase r + regionSize r)

/-- The row that holds an address and the offset in it (R36); `none` for a reserved address (R39). -/
def locate (a : Nat) : Option (Region × Nat) :=
  match allRegions.find? (inRegion (hostAddress a)) with
  | some r => some (r, hostAddress a - regionBase r)
  | none => none

/-- `OLEN` as the 16-bit register the host reads (R17, R41). -/
def State.olen (s : State) : BitVec 16 := BitVec.ofNat 16 s.out.length

/-- The byte the `RK` window shows at an offset (R49): byte `k` of entry `i` for `k < 6`, else 0. -/
def roundKeyWindow (s : State) (off : Nat) : Byte :=
  if off % 8 < 6 then (s.rk.toList.getD (off / 8) 0).extractLsb' (40 - 8 * (off % 8)) 8 else 0

/-- The byte a row shows at an offset (R36). -/
def regionByte (s : State) (r : Region) (off : Nat) : Byte :=
  match r with
  | .cmd => 0
  | .status => s.status
  | .err => s.err
  | .klen => s.klen
  | .ivlen => s.ivlen
  | .mlenH => s.mlen.extractLsb' 8 8
  | .mlenL => s.mlen.extractLsb' 0 8
  | .olenH => s.olen.extractLsb' 8 8
  | .olenL => s.olen.extractLsb' 0 8
  | .iv => byteAt s.iv off
  | .cv => byteAt s.cv off
  | .key => byteAt s.key off
  | .blk => byteAt s.blk off
  | .hb => byteAt s.hb off
  | .fo => byteAt s.fo off
  | .rkop => byteAt s.rkop off
  | .rk => roundKeyWindow s off
  | .msg => if off < s.cfg.bufMax then s.msg.read off else 0
  | .out => s.out.getD off 0

/-- `HostRead(a)` (R37). -/
def hostRead (s : State) (a : Nat) : Byte :=
  match locate a with
  | some (r, off) => regionByte s r off
  | none => 0

/-- Store a byte in a row that a host write reaches (R38); the other rows ignore the write. -/
def storeByte (s : State) (r : Region) (off : Nat) (v : Byte) : State :=
  match r with
  | .klen => { s with klen := v }
  | .ivlen => { s with ivlen := v }
  | .mlenH => { s with mlen := v ++ s.mlen.extractLsb' 0 8 }
  | .mlenL => { s with mlen := s.mlen.extractLsb' 8 8 ++ v }
  | .iv => { s with iv := s.iv.setIfInBounds off v }
  | .key => { s with key := s.key.setIfInBounds off v }
  | .blk => { s with blk := s.blk.setIfInBounds off v }
  | .hb => { s with hb := s.hb.setIfInBounds off v }
  | .rkop => { s with rkop := s.rkop.setIfInBounds off v }
  | .msg => if off < s.cfg.bufMax then { s with msg := s.msg.write off v } else s
  | .cmd | .status | .err | .olenH | .olenL | .cv | .fo | .rk | .out => s

/-- A host write to an address other than `CMD` (R38, R39). -/
def hostStore (s : State) (a : Nat) (v : Byte) : State :=
  match locate a with
  | some (r, off) => storeByte s r off v
  | none => s

end Sys2Proof.Machine
end

