-- ==== Sys2Proof/Machine/HostPort.lean ====
section
/-! DEFINITION. The host port: a write to `CMD` executes a command (30_encoding.md R61), every other write stores or is
ignored (20_memory.md R38), a read returns a byte (R37), and the reset input (70_reset_and_hazards.md R195). -/

namespace Sys2Proof.Machine

/-- A host write of `w` to `CMD` (R11, R61): decode, then run the command, or raise `IllegalCommand` (R178). -/
def executeByte (w : Byte) (s : State) : Host.Outcome State Fault Refusal :=
  match decode w with
  | .ok i => exec i s
  | .error _ => .next (raise .illegalCommand false s)

/-- The hardware reset (R195, R196): the reset state of the same parameters, the host's side of the port unchanged. -/
def hardwareReset (s : State) : State :=
  { State.resetWith s.cfg with pending := s.pending, returned := s.returned }

/-- The effect of one host event (R37, R38, R195). A read changes nothing but what has been returned to the host. -/
def performEvent (e : HostEvent) (s : State) : Host.Outcome State Fault Refusal :=
  match e with
  | .read a => .next { s with returned := s.returned ++ [hostRead s a] }
  | .write a v => if locate a = some (.cmd, 0) then executeByte v s else .next (hostStore s a v)
  | .reset => .next (hardwareReset s)

/-- The oldest waiting event is performed (R45); with nothing waiting the engine is idle and holds its state (R187). -/
def performNext (s : State) : Host.Outcome State Fault Refusal :=
  match s.pending with
  | [] => .next s
  | e :: rest => performEvent e { s with pending := rest }

/-- The host write that makes the engine run the command byte `w` (R55), waiting before everything else. -/
def queueCommand (w : Byte) (s : State) : State := { s with pending := .write 0 w :: s.pending }

end Sys2Proof.Machine
end

