-- ==== Sys2Proof/Machine/Step.lean ====
section
/-! DEFINITION. One step of the machine: one host event, performed to completion (20_memory.md R45). -/

namespace Sys2Proof.Machine

/-- One step. -/
def step (s : State) : Host.Outcome State Fault Refusal := performNext s

/-- `s` with the command whose bits are `w`, `nbits` of them given and 0 above, written to `CMD` by the very next step
(R11, R48: a command is the byte the host writes; log 2). -/
def State.withFetchWord (s : State) (nbits w : Nat) : State := queueCommand (BitVec.ofNat 8 (w % 2 ^ nbits)) s

end Sys2Proof.Machine
end

