-- ==== Sys2Proof/Machine/Script.lean ====
section
/-! DEFINITION. The host-script notation (30_encoding.md R62, R63): each pseudo-instruction as the host events it expands
to. The queries whose length depends on `OLEN` take the state they are issued in, and a line is expanded whatever the
length of its bytes (log 8). -/

namespace Sys2Proof.Machine

/-- `wr a+i, h[i]` for every byte of `h` in order. -/
def writeBytes (a : Nat) : List Byte → List HostEvent
  | [] => []
  | v :: h => .write a v :: writeBytes (a + 1) h

/-- `rd a+i` for `i = 0..n-1`. -/
def readBytes (a n : Nat) : List HostEvent := (List.range n).map fun i => .read (a + i)

/-- The lower-case mnemonic of a command (R62). -/
def scriptMnemonic : Instr → String
  | .nop => "nop"
  | .clr => "clr"
  | .kexpDes => "kexp.des"
  | .kexpGost => "kexp.gost"
  | .frndDes => "frnd.des"
  | .frndGost => "frnd.gost"
  | .bencDes => "benc.des"
  | .bencGost => "benc.gost"
  | .bdecDes => "bdec.des"
  | .bdecGost => "bdec.gost"
  | .mencDesEcb => "menc.des.ecb"
  | .mencGostEcb => "menc.gost.ecb"
  | .mencDesCbc => "menc.des.cbc"
  | .mencGostCbc => "menc.gost.cbc"
  | .mencDesCfb => "menc.des.cfb"
  | .mencGostCfb => "menc.gost.cfb"
  | .mencDesOfb => "menc.des.ofb"
  | .mencGostOfb => "menc.gost.ofb"
  | .mdecDesEcb => "mdec.des.ecb"
  | .mdecGostEcb => "mdec.gost.ecb"
  | .mdecDesCbc => "mdec.des.cbc"
  | .mdecGostCbc => "mdec.gost.cbc"
  | .mdecDesCfb => "mdec.des.cfb"
  | .mdecGostCfb => "mdec.gost.cfb"
  | .mdecDesOfb => "mdec.des.ofb"
  | .mdecGostOfb => "mdec.gost.ofb"

/-- The command a mnemonic names (R62). -/
def assemble (name : String) : Option Instr := allInstrs.find? fun i => scriptMnemonic i == name

/-- A mnemonic line: the write of the command byte to `CMD` (R62). -/
def commandLine (i : Instr) : List HostEvent := [.write 0x00000 (encode i)]

/-- `key <hex>` (R63). -/
def keyLine (h : List Byte) : List HostEvent :=
  writeBytes 0x00020 (h.take 32) ++ [.write 0x00003 (BitVec.ofNat 8 h.length)]

/-- `iv <hex>` (R63). -/
def ivLine (h : List Byte) : List HostEvent :=
  writeBytes 0x00010 (h.take 8) ++ [.write 0x00004 (BitVec.ofNat 8 h.length)]

/-- The two writes of `MLEN` (R41, R63). -/
def mlenLine (n : Nat) : List HostEvent :=
  [.write 0x00005 (BitVec.ofNat 8 (n / 256)), .write 0x00006 (BitVec.ofNat 8 n)]

/-- `msg <hex>` (R63). -/
def msgLine (h : List Byte) : List HostEvent := writeBytes 0x10000 h ++ mlenLine h.length

/-- `blk <hex>` (R63). -/
def blkLine (h : List Byte) : List HostEvent := writeBytes 0x00040 h

/-- `hb <hex>` (R63). -/
def hbLine (h : List Byte) : List HostEvent := writeBytes 0x00048 h

/-- `rkop <hex>` (R63). -/
def rkopLine (h : List Byte) : List HostEvent := writeBytes 0x00050 h

/-- `out?` issued in state `s` (R63). -/
def outQuery (s : State) : List HostEvent := readBytes 0x00007 2 ++ readBytes 0x20000 s.olen.toNat

/-- `blk?` (R63). -/
def blkQuery : List HostEvent := readBytes 0x00040 8

/-- `fo?` (R63). -/
def foQuery : List HostEvent := readBytes 0x0004C 4

/-- `cv?` (R63). -/
def cvQuery : List HostEvent := readBytes 0x00018 8

/-- `rk? i` (R63), `i` in 1..32 (R49). For another `i` the spec gives the line no meaning: the model reads entry 1 for
`i = 0` and the six addresses from `0x00100 + 8(i-1)`, past the `RK` window, for `i > 32` (DESIGN CHOICE log 8). -/
def rkQuery (i : Nat) : List HostEvent := readBytes (0x00100 + 8 * (i - 1)) 6

/-- `err?` (R63). -/
def errQuery : List HostEvent := [.read 0x00002]

/-- `status?` (R63). -/
def statusQuery : List HostEvent := [.read 0x00001]

/-- `out>msg` issued in state `s` (R63): the host writes back what it read. -/
def outToMsg (s : State) : List HostEvent :=
  writeBytes 0x10000 ((List.range s.olen.toNat).map fun i => hostRead s (0x20000 + i)) ++ mlenLine s.olen.toNat

/-- A state with a script waiting at its host port. -/
def withScript (s : State) (es : List HostEvent) : State := { s with pending := es }

end Sys2Proof.Machine
end

