-- ==== Sys2Proof/Machine/Sequencer.lean ====
section
/-! DEFINITION. The two state machines that the spec puts in the place of a program counter (10_state.md R28), with their
transient registers (R27): the block driver (44_block_driver.md R120 to R125) and the mode controller (45_mode_layer.md
R137 to R139). The commands of Block.lean, Menc.lean and Mdec.lean compute the same results as one function each; the
machines run the same stages one at a time. That the two agree is an obligation. -/

namespace Sys2Proof.Machine

/-- The transient registers of the driver while it runs (R27, R28), with its input block and its output. -/
structure Driver where
  /-- `DST` -/
  dst : DriverState
  /-- `RND` -/
  rnd : Nat
  /-- `L` -/
  l : BitSeq
  /-- `R` -/
  r : BitSeq
  /-- the block being transformed: the input `b`, then `u` of R124, then the output `o` -/
  block : BitSeq
  deriving DecidableEq, Repr

/-- The driver as a run on block `b` begins (R120): in `Initial`, the other registers 0 or empty, values
R28 does not give and no step reads (DESIGN CHOICE log 14). -/
def driverStart (b : BitSeq) : Driver where
  dst := .initial
  rnd := 0
  l := []
  r := []
  block := b

/-- One step of the state machine (R121, R122, R124, R125). -/
def driverStep (cfg : Config) (c : Cipher) (K : List BitSeq) (dir : Direction) (d : Driver) :
    Except CipherError Driver :=
  match d.dst with
  | .idle => .ok d
  | .initial => do
    let h ← initialHalves c d.block
    return { d with l := h.1, r := h.2, rnd := 1, dst := .round }
  | .round => do
    let h ← feistelRound cfg c (roundKey c K dir d.rnd) (d.l, d.r)
    if d.rnd < rounds c then return { d with l := h.1, r := h.2, rnd := d.rnd + 1 }
    else return { d with l := h.1, r := h.2, dst := .swapped }
  | .swapped => .ok { d with block := d.r ++ d.l, dst := .final }
  | .final => do
    let o ← permute d.block (finalTable c)
    return { d with block := o, dst := .idle }

/-- `n` steps of the state machine. -/
def driverSteps (cfg : Config) (c : Cipher) (K : List BitSeq) (dir : Direction) :
    Nat → Driver → Except CipherError Driver
  | 0, d => .ok d
  | n + 1, d => do
    let d' ← driverStep cfg c K dir d
    driverSteps cfg c K dir n d'

/-- The steps of one run: `Initial`, `Round(1)` to `Round(N)`, `Swapped`, `Final` (R120). -/
def driverRun (cfg : Config) (c : Cipher) (K : List BitSeq) (dir : Direction) (b : BitSeq) :
    Except CipherError Driver :=
  driverSteps cfg c K dir (rounds c + 3) (driverStart b)

/-- The mode controller while a command runs (R27, R28): `MST` and `CV` are the ones of the engine's state. -/
structure Controller where
  /-- the engine's state, with `MST` as the controller has it -/
  eng : State
  /-- `BIDX` -/
  bidx : Nat
  /-- the schedule of this command -/
  sched : List BitSeq
  /-- `PAD`: the padded message of MENC, the decrypted data of MDEC -/
  pad : List Byte
  /-- the result: `T` of R138, `M` of R139 -/
  text : List Byte
  deriving DecidableEq, Repr

/-- The controller as a command begins: in `Validate`, the other registers 0 or empty:
`BIDX` as R138 starts it, the buffers because blocks are appended to them (DESIGN CHOICE log 14). -/
def controllerStart (s : State) : Controller where
  eng := { s with mst := .validate }
  bidx := 0
  sched := []
  pad := []
  text := []

/-- The number of blocks of a command: the padded length over 8 for MENC, `MLEN / 8` for MDEC (R137). -/
def blockCount (dir : Direction) (s : State) : Nat :=
  match dir with
  | .enc => paddedLength s / 8
  | .dec => s.mlen.toNat / 8

/-- The state after the last block: `Done` for MENC, `Unpad` for MDEC (R137). -/
def afterBlocks (dir : Direction) : ModeState :=
  match dir with
  | .enc => .done
  | .dec => .unpad

/-- The controller's state before block `b`: the block if there is one, else the state after the last block. -/
def blockOrAfter (dir : Direction) (s : State) (b : Nat) : ModeState :=
  if b < blockCount dir s then .block else afterBlocks dir

/-- A command that ends with error `e` in the controller (R172). -/
def controllerRaise (e : CipherError) (k : Controller) : Controller := { k with eng := raise e true k.eng }

/-- One step of the controller for MENC (`dir = enc`) or MDEC (`dir = dec`) (R137 to R139). `BIDX` goes up by 1 after
every block, the last one too: in `Unpad`, `Done` and after them it is the block count, a value R28 does not give
(DESIGN CHOICE log 14). -/
def controllerStep (dir : Direction) (c : Cipher) (m : Mode) (k : Controller) : Controller :=
  match k.eng.mst with
  | .idle => k
  | .validate =>
    match (match dir with | .enc => validateEnc c m k.eng | .dec => validateDec c m k.eng) with
    | some e => controllerRaise e k
    | none => { k with eng := { k.eng with mst := .schedule } }
  | .schedule =>
    match scheduleStage c k.eng with
    | .error e => controllerRaise e k
    | .ok (K, s) =>
      match dir with
      | .enc => { k with sched := K, eng := { s with mst := .padIn } }
      | .dec => { k with sched := K, eng := { storeChaining m s.iv.toList s with mst := blockOrAfter dir s 0 } }
  | .padIn =>
    { k with
      pad := pad (message k.eng)
      eng := { storeChaining m k.eng.iv.toList k.eng with mst := blockOrAfter dir k.eng 0 } }
  | .block =>
    match dir with
    | .enc =>
      match encStep k.eng.cfg c k.sched m k.eng.cv.toList (blockAt k.pad k.bidx) with
      | .error e => controllerRaise e k
      | .ok (o, cv) =>
        { k with
          text := k.text ++ o
          bidx := k.bidx + 1
          eng := { storeChaining m cv k.eng with mst := blockOrAfter dir k.eng (k.bidx + 1) } }
    | .dec =>
      match decStep k.eng.cfg c k.sched m k.eng.cv.toList (blockAt (message k.eng) k.bidx) with
      | .error e => controllerRaise e k
      | .ok (o, cv) =>
        { k with
          pad := k.pad ++ o
          bidx := k.bidx + 1
          eng := { storeChaining m cv k.eng with mst := blockOrAfter dir k.eng (k.bidx + 1) } }
  | .unpad =>
    match unpad k.pad with
    | .error e => controllerRaise e k
    | .ok M => { k with text := M, eng := { k.eng with mst := .done } }
  | .done => { k with eng := finishMessage k.text k.eng }

/-- `n` steps of the controller. -/
def controllerSteps (dir : Direction) (c : Cipher) (m : Mode) : Nat → Controller → Controller
  | 0, k => k
  | n + 1, k => controllerSteps dir c m n (controllerStep dir c m k)

/-- One run: `Validate`, `Schedule`, `PadIn` or `Unpad`, one step per block, `Done` (R137). -/
def controllerRun (dir : Direction) (c : Cipher) (m : Mode) (s : State) : Controller :=
  controllerSteps dir c m (blockCount dir s + 4) (controllerStart s)

end Sys2Proof.Machine
end

