-- ==== Sys2Proof/Safety.lean ====
section
/-! DEFINITION. What holds of every state the machine can be in between two host events (10_state.md, R196), in the terms the
statements use. -/

namespace Sys2Proof.Machine

/-- The `ERR` codes a command can write: 0 and every code but `IndexOutOfRange` and `InvalidLength` (R171, R176, R180). -/
def reachableCodes : List Byte := [0, 1, 2, 3, 5, 6, 7]

/-- The invariant of the machine. -/
structure State.Inv (s : State) : Prop where
  /-- the parameter instance satisfies R3 -/
  cfgLegal : s.cfg.legal = true
  /-- `MSG` has its canonical form -/
  msgCanonical : Memory.wf s.msg = true
  /-- `MSG` has `BUF_MAX` bytes (R26) -/
  msgInside : ∀ x ∈ s.msg, x.1 < s.cfg.bufMax
  /-- `OLEN <= BUF_MAX` (R17) -/
  outInside : s.out.length ≤ s.cfg.bufMax
  /-- bits 7:4 of `STATUS` read as 0 (R12) -/
  statusReserved : s.status.toNat < 16
  /-- `ERRF` is 1 exactly when `ERR != 0` (R12) -/
  errfAgrees : s.errFlag = true ↔ s.err ≠ 0
  /-- `OK` and `ERRF` are not both 1 (R12) -/
  okExclusive : ¬(s.okFlag = true ∧ s.errFlag = true)
  /-- `ERR` holds a code some command can write (R171) -/
  errReachable : s.err ∈ reachableCodes
  /-- with `RKV = 0` no schedule was derived since reset or CLR: `RKC = 0` and `RK` is zero (R12, R25) -/
  noSchedule : s.rkvFlag = false → s.rkcFlag = false ∧ s.rk = Vector.replicate 32 0
  /-- under a DES-like schedule `RK[17..32]` are zero (R25) -/
  desTail : s.rkvFlag = true → s.rkcFlag = false → ∀ i : Fin 32, 16 ≤ i.val → s.rk[i] = 0
  /-- under a GOST-like schedule the last 16 bits of every entry are zero (R25) -/
  gostTail : s.rkcFlag = true → ∀ i : Fin 32, (s.rk[i]).extractLsb' 0 16 = 0
  /-- `DST = Idle` between commands (R28) -/
  driverIdle : s.dst = .idle
  /-- `MST = Idle` between commands (R28) -/
  controllerIdle : s.mst = .idle

/-- A step that ends well: the only outcome the hardware has (R170, R205). -/
def State.StepsOn (s : State) : Prop := ∃ t, step s = .next t

/-- `OK` and `ERRF` report an outcome and the other bits of `STATUS` stay (R12, R172). -/
def OutcomeFlags (before after : Byte) (ok : Bool) : Prop :=
  after.getLsbD 0 = ok ∧ after.getLsbD 1 = !ok ∧ ∀ i, 2 ≤ i → after.getLsbD i = before.getLsbD i

/-- `OK` and `ERRF` report an outcome, `RKV` and `RKC` a schedule of cipher `c`, and bits 7:4 stay (R12, R105). -/
def ScheduleFlags (c : Cipher) (before after : Byte) (ok : Bool) : Prop :=
  after.getLsbD 0 = ok ∧ after.getLsbD 1 = !ok ∧ after.getLsbD 2 = true ∧ after.getLsbD 3 = decide (c = .gost) ∧
    ∀ i, 4 ≤ i → after.getLsbD i = before.getLsbD i

/-- `RK` holds schedule `K` of cipher `c` (R25): each round key followed by zero bits, and zero above `N(c)`. -/
def HoldsSchedule (c : Cipher) (K : List BitSeq) (s : State) : Prop :=
  ∀ i : Fin 32, bitsN 48 (s.rk[i]).toNat =
    if i.val < rounds c then K.getD i.val [] ++ List.replicate (48 - rkBits c) false else List.replicate 48 false

/-- A host write to this address stores its byte (R36, R38): the rows marked W other than `CMD`. -/
def hostWritable (s : State) (a : Nat) : Prop :=
  let h := a % 2 ^ 18
  (0x3 ≤ h ∧ h ≤ 0x6) ∨ (0x10 ≤ h ∧ h ≤ 0x17) ∨ (0x20 ≤ h ∧ h ≤ 0x4B) ∨ (0x50 ≤ h ∧ h ≤ 0x55) ∨
    (0x10000 ≤ h ∧ h ≤ 0x1FFFF ∧ h - 0x10000 < s.cfg.bufMax)

/-- The validation of `MENC.c.m` passes (R138). -/
def MencReady (c : Cipher) (m : Mode) (s : State) : Prop :=
  s.mlen.toNat + 8 - s.mlen.toNat % 8 ≤ s.cfg.bufMax ∧ s.klen.toNat = keyBytes c ∧ (m ≠ .ecb → s.ivlen.toNat = 8)

/-- The validation of `MDEC.c.m` passes (R139). -/
def MdecReady (c : Cipher) (m : Mode) (s : State) : Prop :=
  s.mlen.toNat ≤ s.cfg.bufMax ∧ s.klen.toNat = keyBytes c ∧ (m ≠ .ecb → s.ivlen.toNat = 8) ∧ s.mlen.toNat % 8 = 0

/-- `t` differs from `s` at most in the registers MENC and MDEC write: `OUT`, `RK`, `CV`, `STATUS`, `ERR`; the
sequencer is at rest. -/
def MessageFrame (s t : State) : Prop :=
  t = { s with
    out := t.out, rk := t.rk, cv := t.cv, status := t.status, err := t.err, dst := .idle, mst := .idle }

/-- `DES_S[1..8]` as R85 prints them: one hexadecimal digit per entry, rows 0 to 3 one after another, column 0 first. -/
def desSBoxDigits : List Nat :=
  [0xE4D12FB83A6C59070F74E2D1A6CB953841E8D62BFC973A50FC8249175B3EA06D,
   0xF18E6B34972DC05A3D47F28EC01A69B50E7BA4D158C6932FD8A13F42B67C05E9,
   0xA09E63F51DC7B428D709346A285ECBF1D6498F30B12C5AE71AD069874FE3B52C,
   0x7DE3069A1285BC4FD8B56F03472C1AE9A690CB7DF13E52843F06A1D8945BC72E,
   0x2C417AB6853FD0E9EB2C47D150FA3986421BAD78F9C5630EB8C71E2D6F09A453,
   0xC1AF92680D34E75BAF427C9561DE0B389EF528C3704A1DB6432C95FABE17608D,
   0x4B2EF08D3C975A61D0B7491AE35C2F8614BDC37EAF6805926BD814A7950FE23C,
   0xD2846FB1A93E50C71FD8A374C56B0E927B419CE206ADF35821E74A8DFC90356B]

/-- Bit `m` (0 to 5, the leftmost first) of group `j` (0 to 7) of R110: bit `4j + m`, counted cyclically so that bit 1 of
`h` follows bit 32 and group 0 starts at bit 32 (the rows of `DES_E`, R83), xor bit `6j + m + 1` of the round key. -/
def desGroupBit (h k : BitSeq) (j m : Nat) : Bool :=
  Bool.xor (h.getD ((4 * j + m + 31) % 32) false) (k.getD (6 * j + m) false)

/-- The entry of S-box `j + 1` that group `j` selects (R110): the outer bits are the row, the first of them the more
significant; the inner four are the column, the first of them the most significant. -/
def desGroupValue (h k : BitSeq) (j : Nat) : Nat :=
  let x := fun m => (desGroupBit h k j m).toNat
  let row := 2 * x 0 + x 5
  let col := 8 * x 1 + 4 * x 2 + 2 * x 3 + x 4
  desSBoxDigits.getD j 0 / 16 ^ (63 - (16 * row + col)) % 16

/-- The entry of table `j + 1` of `GOST_SBOX` that nibble `j` (0 to 7, the most significant first) of the sum modulo
2^32 selects (R111). -/
def gostNibbleValue (cfg : Config) (h k : BitSeq) (j : Fin 8) : BitVec 4 :=
  let v : Fin 16 := ⟨(uint h + uint k) % 2 ^ 32 / 16 ^ (7 - j.val) % 16, Nat.mod_lt _ (by decide)⟩
  (cfg.gostSbox[j])[v]

/-- `GOST_SBOX = Z` as R91 prints it: one hexadecimal digit per entry, entry 0 first. -/
def gostZDigits : List Nat :=
  [0x17ED05834FA69CB2, 0x8E25691CF4B0DA37, 0x5DF692CAB78143E0, 0x7F5A816D093EB42C,
   0xC821D4F670A53E9B, 0xB3582FADE174C960, 0x68239A5C1E47BD0F, 0xC462A5B9E8D703F1]

/-- The chaining value before block `b` where it is the previous ciphertext block: `IV` for block 0. -/
def chainBlock (iv C : List Byte) (b : Nat) : List Byte := if b = 0 then iv else blockAt C (b - 1)

/-- ECB, block by block (R140, R144): `Y` is `X` with every block encrypted or decrypted. -/
def EcbBlocks (cfg : Config) (c : Cipher) (K : List BitSeq) (dir : Direction) (X Y : List Byte) : Prop :=
  Y.length = X.length ∧ ∀ b, b < X.length / 8 → cryptBytes cfg c K dir (blockAt X b) = .ok (blockAt Y b)

/-- CBC encryption, block by block (R141): `C[b] = E(P[b] xor C[b-1])`, with `IV` before block 0. -/
def CbcCipherBlocks (cfg : Config) (c : Cipher) (K : List BitSeq) (iv P C : List Byte) : Prop :=
  C.length = P.length ∧ ∀ b, b < P.length / 8 →
    cryptBytes cfg c K .enc (xorBytes (blockAt P b) (chainBlock iv C b)) = .ok (blockAt C b)

/-- CBC decryption, block by block (R145): `P[b] = D(C[b]) xor C[b-1]`, with `IV` before block 0. -/
def CbcPlainBlocks (cfg : Config) (c : Cipher) (K : List BitSeq) (iv C P : List Byte) : Prop :=
  P.length = C.length ∧ ∀ b, b < C.length / 8 →
    ∃ D, cryptBytes cfg c K .dec (blockAt C b) = .ok D ∧ blockAt P b = xorBytes D (chainBlock iv C b)

/-- CFB, block by block (R142, R146): the output block is the input block xor `E(C[b-1])`, with `IV` before block 0;
`C` is the ciphertext, the output when encrypting and the input when decrypting. -/
def CfbBlocks (cfg : Config) (c : Cipher) (K : List BitSeq) (iv C X Y : List Byte) : Prop :=
  Y.length = X.length ∧ ∀ b, b < X.length / 8 →
    ∃ O, cryptBytes cfg c K .enc (chainBlock iv C b) = .ok O ∧ blockAt Y b = xorBytes (blockAt X b) O

/-- OFB, block by block (R143, R147): the key stream is `E(IV)`, `E(E(IV))`, ..; `z` is what it has become after the last
block. -/
def OfbBlocks (cfg : Config) (c : Cipher) (K : List BitSeq) (iv X Y z : List Byte) : Prop :=
  Y.length = X.length ∧ ∃ Z : List (List Byte), Z.length = X.length / 8 + 1 ∧ Z.getD 0 [] = iv ∧
    Z.getD (X.length / 8) [] = z ∧ ∀ b, b < X.length / 8 →
      cryptBytes cfg c K .enc (Z.getD b []) = .ok (Z.getD (b + 1) []) ∧
        blockAt Y b = xorBytes (blockAt X b) (Z.getD (b + 1) [])

/-- `P` is `M` with valid padding (R135, R136): `p` bytes of value `p` after it, `p` in 1..8. -/
def PaddedFrom (P M : List Byte) : Prop :=
  ∃ p, 1 ≤ p ∧ p ≤ 8 ∧ P = M ++ List.replicate p (BitVec.ofNat 8 p)

/-- How MDEC ends on the decrypted data `P` (R139, R172): the message if `P` is validly padded, else `InvalidPadding`. -/
def MdecOutcome (c : Cipher) (P : List Byte) (s t : State) : Prop :=
  (∀ M, PaddedFrom P M → t.out = M ∧ t.err = 0 ∧ ScheduleFlags c s.status t.status true) ∧
    ((¬∃ M, PaddedFrom P M) → t.out = [] ∧ t.err = 5 ∧ ScheduleFlags c s.status t.status false)

end Sys2Proof.Machine
end

