-- ==== Sys2Proof/Certificates/Slice0/Obligations.lean ====
section
/-! DEFINITION. The statements for the provers. Each docstring names the rules of spec/ it rests on; a clause that rests on a
choice of the model names its entry of the assumption log. -/

open Sys2Proof Sys2Proof.Machine

/-- Decoding a command's byte gives the command, and only that byte does. From 30_encoding.md section 3 (R61),
30_encoding.md section 1 (R55 to R58). -/
def Obligations.DecodeEncodeAgree : Prop :=
  (∀ i : Instr, decode (encode i) = .ok i) ∧ ∀ (w : Byte) (i : Instr), decode w = .ok i → encode i = w

/-- The illegal command bytes are those of the four cases, 230 of them, and executing one only reports
IllegalCommand. States R59. -/
def Obligations.IllegalBytesAreThoseListed : Prop :=
  (∀ w : Byte, (∃ x, decode w = .error x) ↔
      (w.getLsbD 7 = true ∨ 8 ≤ w.toNat % 16 ∨ (w.toNat % 16 ≤ 1 ∧ w.toNat / 16 % 8 ≠ 0) ∨
        (2 ≤ w.toNat % 16 ∧ w.toNat % 16 ≤ 5 ∧ w.toNat / 32 % 4 ≠ 0))) ∧
    ((List.range 256).filter fun n => (decode (BitVec.ofNat 8 n)).toOption.isNone).length = 230 ∧
    ∀ (w : Byte) (x : IllegalReason) (s : State), decode w = .error x →
      ∃ t, executeByte w s = .next t ∧ t = { s with status := t.status, err := 6 } ∧
        OutcomeFlags s.status t.status false

/-- Each of the 26 legal bytes of the opcode map decodes to the command the map gives. From 30_encoding.md section 2
(the opcode map), 30_encoding.md section 3 (R61). -/
def Obligations.OpcodeMapDecodes : Prop :=
  decode 0x00 = .ok .nop ∧ decode 0x01 = .ok .clr ∧ decode 0x02 = .ok .kexpDes ∧
    decode 0x12 = .ok .kexpGost ∧ decode 0x03 = .ok .frndDes ∧ decode 0x13 = .ok .frndGost ∧
    decode 0x04 = .ok .bencDes ∧ decode 0x14 = .ok .bencGost ∧ decode 0x05 = .ok .bdecDes ∧
    decode 0x15 = .ok .bdecGost ∧ decode 0x06 = .ok .mencDesEcb ∧ decode 0x07 = .ok .mdecDesEcb ∧
    decode 0x16 = .ok .mencGostEcb ∧ decode 0x17 = .ok .mdecGostEcb ∧ decode 0x26 = .ok .mencDesCbc ∧
    decode 0x27 = .ok .mdecDesCbc ∧ decode 0x36 = .ok .mencGostCbc ∧ decode 0x37 = .ok .mdecGostCbc ∧
    decode 0x46 = .ok .mencDesCfb ∧ decode 0x47 = .ok .mdecDesCfb ∧ decode 0x56 = .ok .mencGostCfb ∧
    decode 0x57 = .ok .mdecGostCfb ∧ decode 0x66 = .ok .mencDesOfb ∧ decode 0x67 = .ok .mdecDesOfb ∧
    decode 0x76 = .ok .mencGostOfb ∧ decode 0x77 = .ok .mdecGostOfb

/-- A host write to CMD runs the decoded command, and raises IllegalCommand on an illegal byte. From 30_encoding.md
section 3 (R59, R61), 10_state.md section 2 (R11), 20_memory.md section 1 (R35), 60_exceptions.md section 1 (R172),
60_exceptions.md section 2 (R178). That events wait in State.pending, and that withFetchWord queues a write to CMD
there, is the model's choice (log 2). -/
def Obligations.StepRunsTheDecodedCommand : Prop :=
  (∀ (s : State) (a : Nat) (w : Byte) (rest : List HostEvent),
    s.pending = .write a w :: rest → a % 2 ^ 18 = 0 →
      (∀ i, decode w = .ok i → step s = exec i { s with pending := rest }) ∧
        ∀ x, decode w = .error x → ∃ t, step s = .next t ∧
          t = { s with pending := rest, status := t.status, err := 6 } ∧ OutcomeFlags s.status t.status false) ∧
    ∀ (s : State) (i : Instr), step (s.withFetchWord 8 (encode i).toNat) = exec i s

/-- A read returns its byte and changes no register, a reset gives the reset state, and with nothing waiting the
engine holds its state. From 20_memory.md section 1 (R37), 60_exceptions.md section 6 (R187, H6),
70_reset_and_hazards.md section 1 (R195, R196). The two lists of the host port and the reset event among the waiting
ones are the model's choice (log 2, log 3). -/
def Obligations.EventsOtherThanWritesChangeOnlyWhatTheySay : Prop :=
  ∀ s : State,
    (s.pending = [] → step s = .next s) ∧
    (∀ (a : Nat) (rest : List HostEvent), s.pending = .read a :: rest →
      step s = .next { s with pending := rest, returned := s.returned ++ [hostRead s a] }) ∧
    ∀ rest : List HostEvent, s.pending = .reset :: rest →
      step s = .next { State.resetWith s.cfg with pending := rest, returned := s.returned }

/-- No step and no command ever stops the machine. From 60_exceptions.md section 1 (R170), 70_reset_and_hazards.md
section 3 (R205). -/
def Obligations.EveryStepGoesOn : Prop :=
  (∀ s : State, s.StepsOn) ∧ ∀ (i : Instr) (s : State), ∃ t, exec i s = .next t

/-- Every row of the address map reads as the map says; everything else reads 0x00. From 20_memory.md section 1 (R35,
R36, R37, R39, R49). -/
def Obligations.HostReadFollowsTheMap : Prop :=
  ∀ s : State,
    (∀ a, hostRead s a = hostRead s (a % 2 ^ 18)) ∧ hostRead s 0x0 = 0 ∧ hostRead s 0x1 = s.status ∧
    hostRead s 0x2 = s.err ∧ hostRead s 0x3 = s.klen ∧ hostRead s 0x4 = s.ivlen ∧
    (hostRead s 0x5).toNat = s.mlen.toNat / 256 ∧ (hostRead s 0x6).toNat = s.mlen.toNat % 256 ∧
    (s.out.length < 2 ^ 16 →
      (hostRead s 0x7).toNat = s.out.length / 256 ∧ (hostRead s 0x8).toNat = s.out.length % 256) ∧
    (∀ i : Fin 8, hostRead s (0x10 + i.val) = s.iv[i] ∧ hostRead s (0x18 + i.val) = s.cv[i] ∧
      hostRead s (0x40 + i.val) = s.blk[i]) ∧
    (∀ i : Fin 32, hostRead s (0x20 + i.val) = s.key[i]) ∧
    (∀ i : Fin 4, hostRead s (0x48 + i.val) = s.hb[i] ∧ hostRead s (0x4C + i.val) = s.fo[i]) ∧
    (∀ i : Fin 6, hostRead s (0x50 + i.val) = s.rkop[i]) ∧
    (∀ (i : Fin 32) (k : Nat), k < 8 → hostRead s (0x100 + 8 * i.val + k) =
      if k < 6 then (s.rk[i]).extractLsb' (40 - 8 * k) 8 else 0) ∧
    (∀ off, off < 0x10000 → hostRead s (0x10000 + off) = if off < s.cfg.bufMax then s.msg.read off else 0) ∧
    (∀ off, off < 0x10000 → hostRead s (0x20000 + off) = if h : off < s.out.length then s.out[off] else 0) ∧
    ∀ a, (0x9 ≤ a ∧ a ≤ 0xF) ∨ (0x56 ≤ a ∧ a ≤ 0xFF) ∨ (0x200 ≤ a ∧ a ≤ 0xFFFF) ∨ (0x30000 ≤ a ∧ a ≤ 0x3FFFF) →
      hostRead s a = 0

/-- The RK window shows each round key's bytes, first bits first, and two zero bytes after them. States R49. -/
def Obligations.RoundKeyWindowShowsTheFile : Prop :=
  ∀ (s : State) (i : Fin 32) (k : Nat), k < 8 →
    (k < 6 → (hostRead s (0x100 + 8 * i.val + k)).toNat =
      uint (slice (bitsN 48 (s.rk[i]).toNat) (8 * k + 1) (8 * k + 8))) ∧
    (6 ≤ k → hostRead s (0x100 + 8 * i.val + k) = 0) ∧
    ((s.rk[i]).extractLsb' 0 16 = 0 → 4 ≤ k → hostRead s (0x100 + 8 * i.val + k) = 0)

/-- A host write to a writable address stores its byte there and changes nothing else. From 20_memory.md section 1
(R38, first sentence and second bullet), 20_memory.md section 2 (R41). -/
def Obligations.HostWriteStoresOneByte : Prop :=
  ∀ (s : State) (a : Nat) (v : Byte) (rest : List HostEvent),
    Memory.wf s.msg = true → s.pending = .write a v :: rest → hostWritable s a →
      ∃ t, step s = .next t ∧ hostRead t a = v ∧
        (∀ b, b % 2 ^ 18 ≠ a % 2 ^ 18 → hostRead t b = hostRead s b) ∧
        t.out = s.out ∧ t.cfg = s.cfg ∧ t.dst = s.dst ∧ t.mst = s.mst ∧ t.pending = rest ∧ t.returned = s.returned

/-- A host write to a read-only or reserved address changes nothing. From 20_memory.md section 1 (R38, third bullet;
R39). -/
def Obligations.HostWriteElsewhereIsIgnored : Prop :=
  ∀ (s : State) (a : Nat) (v : Byte) (rest : List HostEvent),
    s.pending = .write a v :: rest → a % 2 ^ 18 ≠ 0 → ¬hostWritable s a →
      step s = .next { s with pending := rest }

/-- The pseudo-instruction key loads KEY and KLEN and changes nothing else. From 30_encoding.md section 4 (R63, row
key), 20_memory.md section 4 (R45). -/
def Obligations.KeyLineLoadsTheKey : Prop :=
  ∀ (s : State) (h : List Byte) (rest : List HostEvent), h.length ≤ 255 → s.pending = keyLine h ++ rest →
    ∃ t, Host.Core.run Sys2Proof.core (keyLine h).length s = .next t ∧
      t = { s with pending := rest, key := t.key, klen := BitVec.ofNat 8 h.length } ∧
      ∀ i : Fin 32, t.key[i] = h.getD i.val (s.key[i])

/-- The pseudo-instruction msg makes the message what the line says. From 30_encoding.md section 4 (R63, row msg),
10_state.md section 3 (R26). -/
def Obligations.MsgLineLoadsTheMessage : Prop :=
  ∀ (s : State) (h : List Byte) (rest : List HostEvent),
    s.cfg.legal = true → Memory.wf s.msg = true → h.length ≤ s.cfg.bufMax → s.pending = msgLine h ++ rest →
      ∃ t, Host.Core.run Sys2Proof.core (msgLine h).length s = .next t ∧
        t = { s with pending := rest, msg := t.msg, mlen := BitVec.ofNat 16 h.length } ∧ message t = h ∧
        ∀ off, h.length ≤ off → t.msg.read off = s.msg.read off

/-- After reset every register and buffer is zero or empty and the sequencer is Idle. From 70_reset_and_hazards.md
section 1 (R196), 10_state.md section 1 (R10). -/
def Obligations.ResetStateIsAllZero : Prop :=
  ∀ cfg : Config,
    let s := State.resetWith cfg
    s.cfg = cfg ∧ s.status = 0 ∧ s.err = 0 ∧ s.klen = 0 ∧ s.ivlen = 0 ∧ s.mlen = 0 ∧ s.out = [] ∧ s.olen = 0 ∧
    (∀ i : Fin 32, s.key[i] = 0 ∧ s.rk[i] = 0) ∧ (∀ i : Fin 8, s.iv[i] = 0 ∧ s.cv[i] = 0 ∧ s.blk[i] = 0) ∧
    (∀ i : Fin 4, s.hb[i] = 0 ∧ s.fo[i] = 0) ∧ (∀ i : Fin 6, s.rkop[i] = 0) ∧ (∀ off, s.msg.read off = 0) ∧
    s.dst = .idle ∧ s.mst = .idle

/-- NOP changes no state; its byte with a cipher or mode bit set is illegal. States R160. -/
def Obligations.NopChangesNothing : Prop :=
  (∀ s : State, exec .nop s = .next s) ∧ decode 0x00 = .ok .nop ∧
    ∀ w : Byte, w.toNat % 16 = 0 → w ≠ 0 → ∃ x, decode w = .error x

/-- CLR sets every register and buffer to its reset value and keeps the parameters; twice is as once. States R161. -/
def Obligations.ClrGivesTheResetState : Prop :=
  (∀ s : State, ∃ t, exec .clr s = .next t ∧
      t.status = 0 ∧ t.err = 0 ∧ t.klen = 0 ∧ t.ivlen = 0 ∧ t.mlen = 0 ∧ t.out = [] ∧
      (∀ i : Fin 32, t.key[i] = 0 ∧ t.rk[i] = 0) ∧ (∀ i : Fin 8, t.iv[i] = 0 ∧ t.cv[i] = 0 ∧ t.blk[i] = 0) ∧
      (∀ i : Fin 4, t.hb[i] = 0 ∧ t.fo[i] = 0) ∧ (∀ i : Fin 6, t.rkop[i] = 0) ∧ (∀ off, t.msg.read off = 0) ∧
      t = { State.resetWith s.cfg with pending := s.pending, returned := s.returned } ∧ exec .clr t = .next t) ∧
    decode 0x01 = .ok .clr ∧ ∀ w : Byte, w.toNat % 16 = 1 → w ≠ 1 → ∃ x, decode w = .error x

/-- bytes_to_bits puts bit 8-j of byte k at position 8k+j. States R70. -/
def Obligations.BytesToBitsPlacesEveryBit : Prop :=
  ∀ B : List Byte, (bytesToBits B).length = 8 * B.length ∧
    ∀ k j : Nat, k < B.length → 1 ≤ j → j ≤ 8 →
      (bytesToBits B).getD (8 * k + j - 1) false = (B.getD k 0).getLsbD (8 - j)

/-- bits_to_bytes inverts bytes_to_bits and fails exactly on a length that is no multiple of 8. From
40_bit_utilities.md section 1 (R71). -/
def Obligations.PackAndUnpackAreInverse : Prop :=
  (∀ B : List Byte, bitsToBytes (bytesToBits B) = .ok B) ∧
    (∀ s : BitSeq, s.length % 8 = 0 → ∃ B, bitsToBytes s = .ok B ∧ bytesToBits B = s ∧ 8 * B.length = s.length ∧
      ∀ k, k < B.length → (B.getD k 0).toNat = uint (slice s (8 * k + 1) (8 * k + 8))) ∧
    ∀ s : BitSeq, s.length % 8 ≠ 0 → bitsToBytes s = .error .invalidLength

/-- rotate_left moves position ((i-1+r) mod w)+1 to i, and rotate_right undoes it. From 40_bit_utilities.md section 2
(R73, R74). -/
def Obligations.RotationsMoveEveryPosition : Prop :=
  (∀ (s : BitSeq) (n i : Nat), 1 ≤ i → i ≤ s.length →
      (rotateLeft s n).getD (i - 1) false = s.getD ((i - 1 + n % s.length) % s.length) false) ∧
    (∀ (s : BitSeq) (n : Nat), rotateRight (rotateLeft s n) n = s) ∧
    ∀ (s : BitSeq) (n : Nat), s ≠ [] → rotateRight s n = rotateLeft s (s.length - n % s.length)

/-- xor cancels, and the byte and the bit form agree. From 40_bit_utilities.md section 3 (R75). -/
def Obligations.XorLaws : Prop :=
  (∀ a : BitSeq, xorBits a a = List.replicate a.length false ∧ xorBits a (List.replicate a.length false) = a) ∧
    (∀ a b : BitSeq, a.length = b.length → xorBits (xorBits a b) b = a) ∧
    ∀ A B : List Byte, A.length = B.length → bytesToBits (xorBytes A B) = xorBits (bytesToBits A) (bytesToBits B)

/-- bits_n puts bit n-i at position i, and inverts uint. States R77. -/
def Obligations.UintAndBitsAreInverse : Prop :=
  (∀ n v : Nat, v < 2 ^ n → (bitsN n v).length = n ∧ uint (bitsN n v) = v ∧
      ∀ i, 1 ≤ i → i ≤ n → (bitsN n v).getD (i - 1) false = v.testBit (n - i)) ∧
    ∀ s : BitSeq, uint s < 2 ^ s.length ∧ bitsN s.length (uint s) = s

/-- add32 adds modulo 2^32, is commutative, and adding zero changes nothing. States R78. -/
def Obligations.AddThirtyTwoWraps : Prop :=
  (∀ a b : BitSeq, a.length = 32 → b.length = 32 →
      (add32 a b).length = 32 ∧ uint (add32 a b) = (uint a + uint b) % 2 ^ 32 ∧ add32 a b = add32 b a ∧
        add32 a (List.replicate 32 false) = a) ∧
    add32 (List.replicate 32 true) (List.replicate 31 false ++ [true]) = List.replicate 32 false

/-- The initial permutation is the one of the table, and the final permutation of each variant undoes it. From
41_parameter_tables.md section 2 (R81, R82), 41_parameter_tables.md section 3 (R89). -/
def Obligations.PermutationsOfTheDriverAreInverse : Prop :=
  ∀ (c : Cipher) (b : BitSeq), b.length = 64 →
    (∃ t, permute b (initialTable c) = .ok t ∧ permute t (finalTable c) = .ok b ∧
      ∀ i, i < 64 → t.getD i false = b.getD (match c with
        | .des => (if i < 32 then 58 + 2 * (i / 8) - 8 * (i % 8) else 57 + 2 * (i / 8 - 4) - 8 * (i % 8)) - 1
        | .gost => i) false) ∧
      ∃ t, permute b (finalTable c) = .ok t ∧ permute t (initialTable c) = .ok b

/-- DES-like round key i is PC-2 of the two halves rotated by the sum of the first i shifts. From 42_key_schedule.md
section 1 (R100), 41_parameter_tables.md section 2 (R86 to R88). -/
def Obligations.DesRoundKeysAreRotatedSelections : Prop :=
  (∀ k : BitSeq, k.length = 64 → ∃ C D K, C.length = 28 ∧ D.length = 28 ∧ permute k desPC1 = .ok (C ++ D) ∧
      deriveDes k = .ok K ∧ ScheduleShape .des K ∧
      ∀ i, 1 ≤ i → i ≤ 16 →
        permute (rotateLeft C (desShifts.take i).sum ++ rotateLeft D (desShifts.take i).sum) desPC2 =
          .ok (roundKeyAt K i)) ∧
    (∀ k : BitSeq, k.length ≠ 64 → deriveDes k = .error .invalidKeyLength) ∧
    desPC1 = [57, 49, 41, 33, 25, 17, 9, 1, 58, 50, 42, 34, 26, 18, 10, 2, 59, 51, 43, 35, 27, 19, 11, 3, 60, 52, 44, 36,
      63, 55, 47, 39, 31, 23, 15, 7, 62, 54, 46, 38, 30, 22, 14, 6, 61, 53, 45, 37, 29, 21, 13, 5, 28, 20, 12, 4] ∧
    desPC2 = [14, 17, 11, 24, 1, 5, 3, 28, 15, 6, 21, 10, 23, 19, 12, 4, 26, 8, 16, 7, 27, 20, 13, 2,
      41, 52, 31, 37, 47, 55, 30, 40, 51, 45, 33, 48, 44, 49, 39, 56, 34, 53, 46, 42, 50, 36, 29, 32] ∧
    desShifts = [1, 1, 2, 2, 2, 2, 2, 2, 1, 2, 2, 2, 2, 2, 2, 1]

/-- GOST-like round keys are the eight sub-keys, three times forward and once backward. States R101, R102. -/
def Obligations.GostRoundKeysAreSubKeys : Prop :=
  (∀ k : BitSeq, k.length = 256 → ∃ K, deriveGost k = .ok K ∧ ScheduleShape .gost K ∧
      ∀ i, i < 32 → K.getD i [] = slice k
        (32 * [1, 2, 3, 4, 5, 6, 7, 8, 1, 2, 3, 4, 5, 6, 7, 8, 1, 2, 3, 4, 5, 6, 7, 8, 8, 7, 6, 5, 4, 3, 2, 1].getD i 0 - 31)
        (32 * [1, 2, 3, 4, 5, 6, 7, 8, 1, 2, 3, 4, 5, 6, 7, 8, 1, 2, 3, 4, 5, 6, 7, 8, 8, 7, 6, 5, 4, 3, 2, 1].getD i 0)) ∧
    ∀ k : BitSeq, k.length ≠ 256 → deriveGost k = .error .invalidKeyLength

/-- Two DES-like keys that differ only in the parity bits have the same schedule. From 42_key_schedule.md section 1
(R100, consequences), 41_parameter_tables.md section 2 (R86). -/
def Obligations.DesParityBitsInfluenceNothing : Prop :=
  ∀ k k' : BitSeq, k.length = 64 → k'.length = 64 →
    (∀ p, 1 ≤ p → p ≤ 64 → p % 8 ≠ 0 → k.getD (p - 1) false = k'.getD (p - 1) false) → deriveDes k = deriveDes k'

/-- Two keys that differ in a bit that is no DES-like parity bit have different schedules. From 42_key_schedule.md
section 1 (R105 item 3). -/
def Obligations.KeyBitsChangeTheSchedule : Prop :=
  (∀ k k' : BitSeq, k.length = 64 → k'.length = 64 →
      (∃ p, 1 ≤ p ∧ p ≤ 64 ∧ p % 8 ≠ 0 ∧ k.getD (p - 1) false ≠ k'.getD (p - 1) false) → deriveDes k ≠ deriveDes k') ∧
    ∀ k k' : BitSeq, k.length = 256 → k'.length = 256 → k ≠ k' → deriveGost k ≠ deriveGost k'

/-- KEXP.DES stores the schedule of KEY, or reports InvalidKeyLength. States R103. -/
def Obligations.KexpDesStoresTheSchedule : Prop :=
  ∀ s : State,
    (s.klen = 8 → ∃ K t, deriveDes (bytesToBits (s.key.toList.take 8)) = .ok K ∧ exec .kexpDes s = .next t ∧
      t = { s with rk := t.rk, status := t.status, err := 0 } ∧ HoldsSchedule .des K t ∧
      ScheduleFlags .des s.status t.status true) ∧
    (s.klen ≠ 8 → ∃ t, exec .kexpDes s = .next t ∧ t = { s with status := t.status, err := 1 } ∧
      OutcomeFlags s.status t.status false)

/-- KEXP.GOST stores the schedule of KEY, or reports InvalidKeyLength. States R104. -/
def Obligations.KexpGostStoresTheSchedule : Prop :=
  ∀ s : State,
    (s.klen = 32 → ∃ K t, deriveGost (bytesToBits (s.key.toList.take 32)) = .ok K ∧ exec .kexpGost s = .next t ∧
      t = { s with rk := t.rk, status := t.status, err := 0 } ∧ HoldsSchedule .gost K t ∧
      ScheduleFlags .gost s.status t.status true) ∧
    (s.klen ≠ 32 → ∃ t, exec .kexpGost s = .next t ∧ t = { s with status := t.status, err := 1 } ∧
      OutcomeFlags s.status t.status false)

/-- F answers 32 bits on well-formed widths and fails with InvalidBlockWidth on others. States R112. -/
def Obligations.RoundFunctionKeepsTheWidth : Prop :=
  ∀ (cfg : Config) (c : Cipher) (h k : BitSeq),
    (h.length = 32 ∧ k.length = rkBits c → ∃ f, roundFunction cfg c h k = .ok f ∧ f.length = 32) ∧
      (¬(h.length = 32 ∧ k.length = rkBits c) → roundFunction cfg c h k = .error .invalidBlockWidth)

/-- F_des is its expansion, S-boxes and output permutation group by group, F_gost its sum, tables and rotation nibble
by nibble, and both have their symmetries. From 43_round_function.md section 1 (R110, R111), 41_parameter_tables.md
section 2 (R83 to R85), 41_parameter_tables.md section 3 (R90, R91). The tables of the default instance are the
digits of R91; that State.reset has this instance is the model's choice (log 1). -/
def Obligations.RoundFunctionsBitByBit : Prop :=
  (∀ h k : BitSeq, h.length = 32 → k.length = 48 → ∃ f, fDes h k = .ok f ∧ f.length = 32 ∧ ∀ i, i < 32 →
      let p := [16, 7, 20, 21, 29, 12, 28, 17, 1, 15, 23, 26, 5, 18, 31, 10,
        2, 8, 24, 14, 32, 27, 3, 9, 19, 13, 30, 6, 22, 11, 4, 25].getD i 0
      f.getD i false = (desGroupValue h k ((p - 1) / 4)).testBit (3 - (p - 1) % 4)) ∧
    (∀ h k : BitSeq, fDes (h.map not) (k.map not) = fDes h k) ∧
    (∀ (cfg : Config) (h k : BitSeq), h.length = 32 → k.length = 32 →
      ∃ f, fGost cfg h k = .ok f ∧ f.length = 32 ∧ ∀ i, i < 32 →
        let j : Fin 8 := ⟨(i + 11) / 4 % 8, Nat.mod_lt _ (by decide)⟩
        f.getD i false = (gostNibbleValue cfg h k j).getLsbD (3 - (i + 11) % 4)) ∧
    (∀ cfg : Config, (∀ h k : BitSeq, fGost cfg h k = fGost cfg k h) ∧
      fGost cfg (List.replicate 32 true) (List.replicate 31 false ++ [true]) =
        fGost cfg (List.replicate 32 false) (List.replicate 32 false)) ∧
    ∀ (j : Fin 8) (v : Fin 16),
      ((defaultConfig.gostSbox[j])[v]).toNat = gostZDigits.getD j.val 0 / 16 ^ (15 - v.val) % 16

/-- FRND.DES leaves F_des(HB, RKOP) in FO. States R113. -/
def Obligations.FrndDesComputesTheRoundFunction : Prop :=
  ∀ s : State, ∃ f t, fDes (bytesToBits s.hb.toList) (bytesToBits s.rkop.toList) = .ok f ∧
    exec .frndDes s = .next t ∧ bitsToBytes f = .ok t.fo.toList ∧
    t = { s with fo := t.fo, status := t.status, err := 0 } ∧ OutcomeFlags s.status t.status true

/-- FRND.GOST leaves F_gost(HB, RKOP[0..3]) in FO. States R114. -/
def Obligations.FrndGostComputesTheRoundFunction : Prop :=
  ∀ s : State, ∃ f t, fGost s.cfg (bytesToBits s.hb.toList) (bytesToBits (s.rkop.toList.take 4)) = .ok f ∧
    exec .frndGost s = .next t ∧ bitsToBytes f = .ok t.fo.toList ∧
    t = { s with fo := t.fo, status := t.status, err := 0 } ∧ OutcomeFlags s.status t.status true

/-- Decryption inverts encryption and encryption inverts decryption, for every block, schedule and S-boxes. States
R127. -/
def Obligations.SingleBlockIsInvertible : Prop :=
  ∀ (cfg : Config) (c : Cipher) (K : List BitSeq) (b : BitSeq), ScheduleShape c K → b.length = 64 →
    (∃ e, crypt cfg c K b .enc = .ok e ∧ crypt cfg c K e .dec = .ok b) ∧
      ∃ d, crypt cfg c K b .dec = .ok d ∧ crypt cfg c K d .enc = .ok b

/-- The driver's state machine passes through its N+3 states in order and ends with the output of crypt. From
44_block_driver.md section 1 (R120 to R126). -/
def Obligations.DriverMachineComputesTheSingleBlockFunction : Prop :=
  ∀ (cfg : Config) (c : Cipher) (K : List BitSeq) (dir : Direction) (b : BitSeq), ScheduleShape c K → b.length = 64 →
    (∀ j, 1 ≤ j → j ≤ rounds c →
      ∃ d, driverSteps cfg c K dir j (driverStart b) = .ok d ∧ d.dst = .round ∧ d.rnd = j) ∧
    (∃ d, driverSteps cfg c K dir (rounds c + 1) (driverStart b) = .ok d ∧ d.dst = .swapped) ∧
    (∃ d, driverSteps cfg c K dir (rounds c + 2) (driverStart b) = .ok d ∧ d.dst = .final) ∧
    ∃ d, driverRun cfg c K dir b = .ok d ∧ d.dst = .idle ∧ crypt cfg c K b dir = .ok d.block

/-- BENC.DES and BENC.GOST replace BLK by E(BLK), or report InvalidKeyLength. From 44_block_driver.md section 2
(R128, R129), 60_exceptions.md section 2 (R173). -/
def Obligations.BencTransformsTheBlockInPlace : Prop :=
  ∀ (c : Cipher) (s : State),
    (s.klen.toNat = keyBytes c → ∃ K o t,
      deriveRoundKeys c (bytesToBits (s.key.toList.take (keyBytes c))) = .ok K ∧
      crypt s.cfg c K (bytesToBits s.blk.toList) .enc = .ok o ∧ exec (bencInstr c) s = .next t ∧
      bitsToBytes o = .ok t.blk.toList ∧
      t = { s with rk := t.rk, blk := t.blk, status := t.status, err := 0, dst := .idle } ∧
      HoldsSchedule c K t ∧ ScheduleFlags c s.status t.status true) ∧
    (s.klen.toNat ≠ keyBytes c → ∃ t, exec (bencInstr c) s = .next t ∧
      t = { s with status := t.status, err := 1 } ∧ OutcomeFlags s.status t.status false)

/-- BDEC.DES and BDEC.GOST replace BLK by D(BLK), or report InvalidKeyLength. From 44_block_driver.md section 2
(R130, R131), 60_exceptions.md section 2 (R173). -/
def Obligations.BdecTransformsTheBlockInPlace : Prop :=
  ∀ (c : Cipher) (s : State),
    (s.klen.toNat = keyBytes c → ∃ K o t,
      deriveRoundKeys c (bytesToBits (s.key.toList.take (keyBytes c))) = .ok K ∧
      crypt s.cfg c K (bytesToBits s.blk.toList) .dec = .ok o ∧ exec (bdecInstr c) s = .next t ∧
      bitsToBytes o = .ok t.blk.toList ∧
      t = { s with rk := t.rk, blk := t.blk, status := t.status, err := 0, dst := .idle } ∧
      HoldsSchedule c K t ∧ ScheduleFlags c s.status t.status true) ∧
    (s.klen.toNat ≠ keyBytes c → ∃ t, exec (bdecInstr c) s = .next t ∧
      t = { s with status := t.status, err := 1 } ∧ OutcomeFlags s.status t.status false)

/-- pad appends p = 8 - (n mod 8) bytes of value p. States R135. -/
def Obligations.PadAddsOneToEightBytes : Prop :=
  ∀ M : List Byte, pad M = M ++ List.replicate (8 - M.length % 8) (BitVec.ofNat 8 (8 - M.length % 8)) ∧
    PaddedFrom (pad M) M ∧ (pad M).length = M.length + 8 - M.length % 8 ∧ (pad M).length % 8 = 0 ∧ 8 ≤ (pad M).length

/-- unpad answers M exactly on M followed by p bytes of value p, 1 <= p <= 8, and fails with InvalidPadding
otherwise. From 45_mode_layer.md section 1 (R136). -/
def Obligations.UnpadRemovesExactlyValidPadding : Prop :=
  (∀ B M : List Byte, unpad B = .ok M ↔ PaddedFrom B M) ∧
    (∀ B : List Byte, (¬∃ M, PaddedFrom B M) → unpad B = .error .invalidPadding) ∧
    ∀ M : List Byte, unpad (pad M) = .ok M

/-- MENC.c.ECB encrypts every padded block by itself and leaves CV. From 45_mode_layer.md section 2 (R138),
45_mode_layer.md section 3 (R140), 45_mode_layer.md section 4 (R148). -/
def Obligations.MencEcbEncryptsThePaddedMessage : Prop :=
  ∀ (c : Cipher) (s : State), MencReady c .ecb s →
    ∃ K t, deriveRoundKeys c (bytesToBits (s.key.toList.take (keyBytes c))) = .ok K ∧
      exec (mencInstr c .ecb) s = .next t ∧ MessageFrame s t ∧ HoldsSchedule c K t ∧ t.err = 0 ∧
      ScheduleFlags c s.status t.status true ∧ t.out.length = s.mlen.toNat + 8 - s.mlen.toNat % 8 ∧
      EcbBlocks s.cfg c K .enc (pad (message s)) t.out ∧
      t.cv = s.cv

/-- MENC.c.CBC chains every block with the ciphertext block before it. From 45_mode_layer.md section 2 (R138),
45_mode_layer.md section 3 (R141), 45_mode_layer.md section 4 (R149). -/
def Obligations.MencCbcEncryptsThePaddedMessage : Prop :=
  ∀ (c : Cipher) (s : State), MencReady c .cbc s →
    ∃ K t, deriveRoundKeys c (bytesToBits (s.key.toList.take (keyBytes c))) = .ok K ∧
      exec (mencInstr c .cbc) s = .next t ∧ MessageFrame s t ∧ HoldsSchedule c K t ∧ t.err = 0 ∧
      ScheduleFlags c s.status t.status true ∧ t.out.length = s.mlen.toNat + 8 - s.mlen.toNat % 8 ∧
      CbcCipherBlocks s.cfg c K s.iv.toList (pad (message s)) t.out ∧
      t.cv.toList = blockAt t.out ((s.mlen.toNat + 8 - s.mlen.toNat % 8) / 8 - 1)

/-- MENC.c.CFB mixes every block with the encryption of the ciphertext block before it. From 45_mode_layer.md section
2 (R138), 45_mode_layer.md section 3 (R142), 45_mode_layer.md section 4 (R150). -/
def Obligations.MencCfbEncryptsThePaddedMessage : Prop :=
  ∀ (c : Cipher) (s : State), MencReady c .cfb s →
    ∃ K t, deriveRoundKeys c (bytesToBits (s.key.toList.take (keyBytes c))) = .ok K ∧
      exec (mencInstr c .cfb) s = .next t ∧ MessageFrame s t ∧ HoldsSchedule c K t ∧ t.err = 0 ∧
      ScheduleFlags c s.status t.status true ∧ t.out.length = s.mlen.toNat + 8 - s.mlen.toNat % 8 ∧
      CfbBlocks s.cfg c K s.iv.toList t.out (pad (message s)) t.out ∧
      t.cv.toList = blockAt t.out ((s.mlen.toNat + 8 - s.mlen.toNat % 8) / 8 - 1)

/-- MENC.c.OFB mixes every block with the key stream E(IV), E(E(IV)), ... From 45_mode_layer.md section 2 (R138),
45_mode_layer.md section 3 (R143), 45_mode_layer.md section 4 (R151). -/
def Obligations.MencOfbEncryptsThePaddedMessage : Prop :=
  ∀ (c : Cipher) (s : State), MencReady c .ofb s →
    ∃ K t, deriveRoundKeys c (bytesToBits (s.key.toList.take (keyBytes c))) = .ok K ∧
      exec (mencInstr c .ofb) s = .next t ∧ MessageFrame s t ∧ HoldsSchedule c K t ∧ t.err = 0 ∧
      ScheduleFlags c s.status t.status true ∧ t.out.length = s.mlen.toNat + 8 - s.mlen.toNat % 8 ∧
      OfbBlocks s.cfg c K s.iv.toList (pad (message s)) t.out t.cv.toList

/-- MDEC.c.ECB decrypts every block by itself, then unpads; CV stays. From 45_mode_layer.md section 2 (R139),
45_mode_layer.md section 3 (R144), 45_mode_layer.md section 4 (R152), 60_exceptions.md section 1 (R172). -/
def Obligations.MdecEcbDecryptsAndUnpads : Prop :=
  ∀ (c : Cipher) (s : State), MdecReady c .ecb s →
    ∃ K P t, deriveRoundKeys c (bytesToBits (s.key.toList.take (keyBytes c))) = .ok K ∧
      EcbBlocks s.cfg c K .dec (message s) P ∧
      exec (mdecInstr c .ecb) s = .next t ∧ MessageFrame s t ∧ HoldsSchedule c K t ∧ MdecOutcome c P s t ∧
      t.cv = s.cv

/-- MDEC.c.CBC decrypts and unchains every block, then unpads. From 45_mode_layer.md section 2 (R139),
45_mode_layer.md section 3 (R145), 45_mode_layer.md section 4 (R153), 60_exceptions.md section 1 (R172). -/
def Obligations.MdecCbcDecryptsAndUnpads : Prop :=
  ∀ (c : Cipher) (s : State), MdecReady c .cbc s →
    ∃ K P t, deriveRoundKeys c (bytesToBits (s.key.toList.take (keyBytes c))) = .ok K ∧
      CbcPlainBlocks s.cfg c K s.iv.toList (message s) P ∧
      exec (mdecInstr c .cbc) s = .next t ∧ MessageFrame s t ∧ HoldsSchedule c K t ∧ MdecOutcome c P s t ∧
      t.cv.toList = chainBlock s.iv.toList (message s) (s.mlen.toNat / 8)

/-- MDEC.c.CFB uses E on the ciphertext block before, then unpads. From 45_mode_layer.md section 2 (R139),
45_mode_layer.md section 3 (R146), 45_mode_layer.md section 4 (R154), 60_exceptions.md section 1 (R172). -/
def Obligations.MdecCfbDecryptsAndUnpads : Prop :=
  ∀ (c : Cipher) (s : State), MdecReady c .cfb s →
    ∃ K P t, deriveRoundKeys c (bytesToBits (s.key.toList.take (keyBytes c))) = .ok K ∧
      CfbBlocks s.cfg c K s.iv.toList (message s) (message s) P ∧
      exec (mdecInstr c .cfb) s = .next t ∧ MessageFrame s t ∧ HoldsSchedule c K t ∧ MdecOutcome c P s t ∧
      t.cv.toList = chainBlock s.iv.toList (message s) (s.mlen.toNat / 8)

/-- MDEC.c.OFB mixes every block with the same key stream, then unpads. From 45_mode_layer.md section 2 (R139),
45_mode_layer.md section 3 (R147), 45_mode_layer.md section 4 (R155), 60_exceptions.md section 1 (R172). -/
def Obligations.MdecOfbDecryptsAndUnpads : Prop :=
  ∀ (c : Cipher) (s : State), MdecReady c .ofb s →
    ∃ K P t, deriveRoundKeys c (bytesToBits (s.key.toList.take (keyBytes c))) = .ok K ∧
      OfbBlocks s.cfg c K s.iv.toList (message s) P t.cv.toList ∧
      exec (mdecInstr c .ofb) s = .next t ∧ MessageFrame s t ∧ HoldsSchedule c K t ∧ MdecOutcome c P s t

/-- A MENC that fails validation reports the first error in priority order, empties OUT and changes nothing else.
From 45_mode_layer.md section 2 (R138), 60_exceptions.md section 1 (R172), 60_exceptions.md section 3 (R181). -/
def Obligations.MencValidationReportsTheFirstError : Prop :=
  ∀ (c : Cipher) (m : Mode) (s : State), ¬MencReady c m s →
    ∃ t, exec (mencInstr c m) s = .next t ∧
      t = { s with out := [], status := t.status, err := t.err, dst := .idle, mst := .idle } ∧
      OutcomeFlags s.status t.status false ∧
      t.err = if s.cfg.bufMax < s.mlen.toNat + 8 - s.mlen.toNat % 8 then 7 else if s.klen.toNat ≠ keyBytes c then 1 else 2

/-- A MDEC that fails validation reports the first error in priority order, empties OUT and changes nothing else.
From 45_mode_layer.md section 2 (R139), 60_exceptions.md section 1 (R172), 60_exceptions.md section 3 (R181). -/
def Obligations.MdecValidationReportsTheFirstError : Prop :=
  ∀ (c : Cipher) (m : Mode) (s : State), ¬MdecReady c m s →
    ∃ t, exec (mdecInstr c m) s = .next t ∧
      t = { s with out := [], status := t.status, err := t.err, dst := .idle, mst := .idle } ∧
      OutcomeFlags s.status t.status false ∧
      t.err = if s.cfg.bufMax < s.mlen.toNat then 7 else if s.klen.toNat ≠ keyBytes c then 1
        else if m ≠ .ecb ∧ s.ivlen.toNat ≠ 8 then 2 else 3

/-- MDEC on the output of MENC, with the same key and IV, gives back the message. From 45_mode_layer.md section 5
(R156). -/
def Obligations.MessageRoundTrip : Prop :=
  ∀ (c : Cipher) (m : Mode) (s : State), MencReady c m s →
    ∃ t, exec (mencInstr c m) s = .next t ∧
      ∀ u : State, u.cfg = s.cfg → u.key = s.key → u.klen = s.klen → u.iv = s.iv → u.ivlen = s.ivlen →
        message u = t.out → ∃ v, exec (mdecInstr c m) u = .next v ∧ v.err = 0 ∧ v.out = message s

/-- In ECB two padded blocks are equal exactly when their ciphertext blocks are. From 45_mode_layer.md section 5
(R157). -/
def Obligations.EcbLeaksEqualBlocks : Prop :=
  ∀ (c : Cipher) (s : State), MencReady c .ecb s →
    ∃ t, exec (mencInstr c .ecb) s = .next t ∧
      ∀ a b, a < t.out.length / 8 → b < t.out.length / 8 →
        (blockAt (pad (message s)) a = blockAt (pad (message s)) b ↔ blockAt t.out a = blockAt t.out b)

/-- In CBC, CFB and OFB equal blocks give equal ciphertext exactly when the chaining values before them are equal.
From 45_mode_layer.md section 5 (R157), 45_mode_layer.md section 3 (R141 to R143). -/
def Obligations.EqualBlocksEncryptAlikeExactlyOnEqualChaining : Prop :=
  ∀ (c : Cipher) (m : Mode) (s : State), m ≠ .ecb → MencReady c m s →
    ∃ K t, deriveRoundKeys c (bytesToBits (s.key.toList.take (keyBytes c))) = .ok K ∧
      exec (mencInstr c m) s = .next t ∧
      ∃ Z : List (List Byte), Z.length = t.out.length / 8 + 1 ∧ Z.getD 0 [] = s.iv.toList ∧
        (∀ b, b < t.out.length / 8 →
          (m ≠ .ofb → Z.getD (b + 1) [] = blockAt t.out b) ∧
            (m = .ofb → cryptBytes s.cfg c K .enc (Z.getD b []) = .ok (Z.getD (b + 1) []))) ∧
        ∀ a b, a < t.out.length / 8 → b < t.out.length / 8 →
          blockAt (pad (message s)) a = blockAt (pad (message s)) b →
            (blockAt t.out a = blockAt t.out b ↔ Z.getD a [] = Z.getD b [])

/-- The mode controller's state machine, run to its end, does what MENC and MDEC do. From 45_mode_layer.md section 2
(R137 to R139), 10_state.md section 4 (R28). -/
def Obligations.ControllerMachineComputesTheCommands : Prop :=
  ∀ (c : Cipher) (m : Mode) (s : State),
    (exec (mencInstr c m) s = .next (controllerRun .enc c m s).eng ∧ (controllerRun .enc c m s).eng.mst = .idle) ∧
      exec (mdecInstr c m) s = .next (controllerRun .dec c m s).eng ∧ (controllerRun .dec c m s).eng.mst = .idle

/-- The invariant holds of the reset state of every legal parameter instance. From 70_reset_and_hazards.md section 1
(R196), 10_state.md section 1 (R10). -/
def Obligations.InvariantHoldsAfterReset : Prop :=
  ∀ cfg : Config, cfg.legal = true → (State.resetWith cfg).Inv

/-- Every step keeps the invariant. From 10_state.md sections 1 to 4 (R10, R12, R13, R17, R25, R26, R28),
60_exceptions.md section 1 (R171). -/
def Obligations.EveryStepKeepsTheInvariant : Prop :=
  ∀ s t : State, s.Inv → step s = .next t → t.Inv

/-- Each register is written only by the commands the state table names. From 10_state.md section 1 (R10, column
"engine writes it in"), 20_memory.md section 3 (R44). For every command the parameters and the two lists of the host
port, which are the model's own (log 1, log 2), are unchanged. -/
def Obligations.CommandsWriteOnlyTheirRegisters : Prop :=
  ∀ (i : Instr) (s : State), ∃ t, exec i s = .next t ∧
    t.cfg = s.cfg ∧ t.pending = s.pending ∧ t.returned = s.returned ∧
    (t.status ≠ s.status ∨ t.err ≠ s.err → i ≠ .nop) ∧
    (i ≠ .clr →
      t.klen = s.klen ∧ t.ivlen = s.ivlen ∧ t.mlen = s.mlen ∧ t.key = s.key ∧ t.iv = s.iv ∧ t.hb = s.hb ∧
      t.rkop = s.rkop ∧ t.msg = s.msg ∧
      (t.out ≠ s.out → i.op = .menc ∨ i.op = .mdec) ∧
      (t.cv ≠ s.cv → (i.op = .menc ∨ i.op = .mdec) ∧ i.mode ≠ some .ecb) ∧
      (t.blk ≠ s.blk → i.op = .benc ∨ i.op = .bdec) ∧ (t.fo ≠ s.fo → i.op = .frnd) ∧
      (t.rk ≠ s.rk → i.op = .kexp ∨ i.op = .benc ∨ i.op = .bdec ∨ i.op = .menc ∨ i.op = .mdec))

/-- After every command but NOP and CLR exactly one of OK and ERRF is 1, and ERR is 0 or a code that command can
raise. From 10_state.md section 2 (R12, R13), 40_bit_utilities.md section 1 (R71), 60_exceptions.md section 1 (R171),
60_exceptions.md section 2 (R174, R176, R180). -/
def Obligations.CommandsReportExactlyOneOutcome : Prop :=
  ∀ (i : Instr) (s : State), i ≠ .nop → i ≠ .clr → ∃ t, exec i s = .next t ∧
    t.okFlag = !t.errFlag ∧ (t.errFlag = true ↔ t.err ≠ 0) ∧ (s.rkvFlag = true → t.rkvFlag = true) ∧
    (t.err = 0 ∨ (t.err = 1 ∧ i.op ≠ .frnd) ∨
      (t.err = 2 ∧ (i.op = .menc ∨ i.op = .mdec) ∧ i.mode ≠ some .ecb) ∨
      (t.err = 7 ∧ (i.op = .menc ∨ i.op = .mdec)) ∨ ((t.err = 3 ∨ t.err = 5) ∧ i.op = .mdec))

/-- No command's result depends on STATUS. From 10_state.md section 2 (R12, last sentences). -/
def Obligations.StatusIsNoInputOfACommand : Prop :=
  ∀ (i : Instr) (s : State) (x : Byte), ∃ t t', exec i s = .next t ∧ exec i { s with status := x } = .next t' ∧
    t' = { t with status := t'.status }

/-- No command uses a round-key schedule left by an earlier command. From 10_state.md section 3 (R25),
70_reset_and_hazards.md section 3 (R201 item 5). -/
def Obligations.StaleScheduleIsNeverUsed : Prop :=
  ∀ (i : Instr) (s : State) (x : Vector (BitVec 48) 32), ∃ t t',
    exec i s = .next t ∧ exec i { s with rk := x } = .next t' ∧
      (t' = t ∨ (t.rk = s.rk ∧ t' = { t with rk := x }))

/-- Bytes of MSG at offsets of MLEN and above influence no command. From 10_state.md section 3 (R26),
70_reset_and_hazards.md section 3 (R201 item 1). -/
def Obligations.BytesPastTheMessageAreIgnored : Prop :=
  ∀ (i : Instr) (s : State) (x : Memory), i ≠ .clr → (∀ off, off < s.mlen.toNat → x.read off = s.msg.read off) →
    ∃ t, exec i s = .next t ∧ exec i { s with msg := x } = .next { t with msg := x }

/-- DES-like commands ignore KEY[8..31], FRND.GOST ignores RKOP[4..5], and ECB commands ignore IV and IVLEN. From
10_state.md sections 2 and 3 (R15, R18, R23), 45_mode_layer.md section 4 (R148, R152). -/
def Obligations.IgnoredOperandsInfluenceNothing : Prop :=
  (∀ (i : Instr) (s : State) (x : Vector Byte 32), i.cipher = some .des →
      (∀ j : Fin 32, j.val < 8 → x[j] = s.key[j]) →
      ∃ t, exec i s = .next t ∧ exec i { s with key := x } = .next { t with key := x }) ∧
    (∀ (s : State) (x : Vector Byte 6), (∀ j : Fin 6, j.val < 4 → x[j] = s.rkop[j]) →
      ∃ t, exec .frndGost s = .next t ∧ exec .frndGost { s with rkop := x } = .next { t with rkop := x }) ∧
    ∀ (i : Instr) (s : State) (x : Vector Byte 8) (n : Byte), i.mode = some .ecb →
      ∃ t, exec i s = .next t ∧ exec i { s with iv := x, ivlen := n } = .next { t with iv := x, ivlen := n }
end

