-- ==== Sys2Proof/Laws/Bits.lean ====
section
/-! SUPPORT. What the bit utilities answer: widths, when they answer at all, and position by position. -/

namespace Sys2Proof.Machine

@[simp] theorem byteBits_length (b : Byte) : (byteBits b).length = 8 := by simp [byteBits]

@[simp] theorem bytesToBits_nil : bytesToBits [] = [] := rfl

@[simp] theorem bytesToBits_cons (b : Byte) (B : List Byte) :
    bytesToBits (b :: B) = byteBits b ++ bytesToBits B := by simp [bytesToBits]

@[simp] theorem bytesToBits_length (B : List Byte) : (bytesToBits B).length = 8 * B.length := by
  induction B with
  | nil => rfl
  | cons b B ih => simp [ih]; omega

@[simp] theorem bitsN_length (n v : Nat) : (bitsN n v).length = n := by simp [bitsN]

@[simp] theorem rotateLeft_length (s : BitSeq) (n : Nat) : (rotateLeft s n).length = s.length := by
  simp only [rotateLeft, List.length_append, List.length_drop, List.length_take]
  rcases Nat.eq_zero_or_pos s.length with h | h
  · omega
  · have := Nat.mod_lt n h
    omega

@[simp] theorem xorBits_length (a b : BitSeq) : (xorBits a b).length = min a.length b.length := by
  simp [xorBits]

@[simp] theorem xorBytes_length (a b : List Byte) : (xorBytes a b).length = min a.length b.length := by
  simp [xorBytes]

@[simp] theorem add32_length (a b : BitSeq) : (add32 a b).length = 32 := by simp [add32]

theorem slice_length (s : BitSeq) (a b : Nat) (hb : b ≤ s.length) (ha : 1 ≤ a) : (slice s a b).length = b + 1 - a := by
  simp only [slice, List.length_take, List.length_drop]
  omega

@[simp] theorem packBytes_length (n : Nat) (s : BitSeq) : (packBytes n s).length = n := by
  induction n generalizing s with
  | zero => rfl
  | succ n ih => simp [packBytes, ih]

/-- `permute` answers exactly when every entry is a position of the sequence (R72). -/
theorem permute_eq_ok {s : BitSeq} {T : List Nat} (h : ∀ t ∈ T, 1 ≤ t ∧ t ≤ s.length) :
    permute s T = .ok (T.map fun t => s.getD (t - 1) false) := by
  unfold permute
  rw [if_pos h]

/-- What `permute` can answer: the selected positions, one per entry of the table. -/
theorem permute_spec {s : BitSeq} {T : List Nat} {o : BitSeq} (h : permute s T = .ok o) :
    (∀ t ∈ T, 1 ≤ t ∧ t ≤ s.length) ∧ o = T.map fun t => s.getD (t - 1) false := by
  unfold permute at h
  split at h
  · rename_i hT
    exact ⟨hT, by injection h with h; exact h.symm⟩
  · cases h

/-- `bits_to_bytes` of a whole number of bytes. -/
theorem bitsToBytes_eq_ok {s : BitSeq} {n : Nat} (h : s.length = 8 * n) : bitsToBytes s = .ok (packBytes n s) := by
  unfold bitsToBytes
  rw [if_pos (by omega), h, Nat.mul_div_cancel_left n (by decide)]

/-- What `bits_to_bytes` can answer. -/
theorem bitsToBytes_spec {s : BitSeq} {B : List Byte} (h : bitsToBytes s = .ok B) :
    s.length = 8 * B.length ∧ B = packBytes (s.length / 8) s := by
  unfold bitsToBytes at h
  split at h
  · injection h with h
    subst h
    rename_i h8
    constructor
    · simp; omega
    · rfl
  · cases h

/-- Position `i + 1` of `bits_n(v)` is bit `n - 1 - i` of `v`. -/
theorem bitsN_getD {n v i : Nat} (h : i < n) : (bitsN n v).getD i false = v.testBit (n - 1 - i) := by
  simp [bitsN, List.getD_eq_getElem?_getD, h]

/-- Position `i + 1` of a slice is the position of the sequence that many places into it. -/
theorem slice_getD (s : BitSeq) {a b i : Nat} (h : i < b + 1 - a) : (slice s a b).getD i false = s.getD (a - 1 + i) false := by
  simp [slice, List.getD_eq_getElem?_getD, h]

/-- A position of `xor` is the exclusive or of the two positions. -/
theorem xorBits_getD {a b : BitSeq} (h : a.length = b.length) (i : Nat) :
    (xorBits a b).getD i false = Bool.xor (a.getD i false) (b.getD i false) := by
  simp only [xorBits, List.getD_eq_getElem?_getD, List.getElem?_zipWith]
  rcases Nat.lt_or_ge i a.length with hi | hi
  · simp [hi, h ▸ hi]
  · simp [hi, h ▸ hi]

/-- Position `i + 1` of a permuted sequence is the position the table's entry names. -/
theorem permute_getD {s o : BitSeq} {T : List Nat} (h : permute s T = .ok o) {i : Nat} (hi : i < T.length) :
    o.getD i false = s.getD (T.getD i 0 - 1) false := by
  obtain ⟨-, rfl⟩ := permute_spec h
  simp [List.getD_eq_getElem?_getD, hi]

end Sys2Proof.Machine
end

