-- ==== Sys2Proof/Laws/Cipher.lean ====
section
/-! SUPPORT. What the cipher units answer on well-formed widths: they answer, and with what width. -/

namespace Sys2Proof.Machine

theorem tables_in_range :
    (∀ t ∈ desIP, 1 ≤ t ∧ t ≤ 64) ∧ (∀ t ∈ desFP, 1 ≤ t ∧ t ≤ 64) ∧ (∀ t ∈ desE, 1 ≤ t ∧ t ≤ 32) ∧
      (∀ t ∈ desP, 1 ≤ t ∧ t ≤ 32) ∧ (∀ t ∈ desPC1, 1 ≤ t ∧ t ≤ 64) ∧ (∀ t ∈ desPC2, 1 ≤ t ∧ t ≤ 56) ∧
      ∀ t ∈ gostIdentity, 1 ≤ t ∧ t ≤ 64 := by
  decide

theorem initialTable_range (c : Cipher) : ∀ t ∈ initialTable c, 1 ≤ t ∧ t ≤ 64 := by
  cases c
  · exact tables_in_range.1
  · exact tables_in_range.2.2.2.2.2.2

theorem finalTable_range (c : Cipher) : ∀ t ∈ finalTable c, 1 ≤ t ∧ t ≤ 64 := by
  cases c
  · exact tables_in_range.2.1
  · exact tables_in_range.2.2.2.2.2.2

theorem initialTable_length (c : Cipher) : (initialTable c).length = 64 := by cases c <;> rfl

theorem finalTable_length (c : Cipher) : (finalTable c).length = 64 := by cases c <;> rfl

/-- A table whose entries lie in `1..n`, applied to `n` bits, answers with its own length. -/
theorem permute_ok {s : BitSeq} {T : List Nat} {n : Nat} (hs : s.length = n) (hT : ∀ t ∈ T, 1 ≤ t ∧ t ≤ n) :
    ∃ o, permute s T = .ok o ∧ o.length = T.length := by
  subst hs
  exact ⟨_, permute_eq_ok hT, by simp⟩

/-- The DES-like rounds answer one 48-bit key per shift. -/
theorem desRounds_ok (ns : List Nat) (C D : BitSeq) (hC : C.length = 28) (hD : D.length = 28) :
    ∃ Ks, desRounds ns C D = .ok Ks ∧ Ks.length = ns.length ∧ ∀ k ∈ Ks, k.length = 48 := by
  induction ns generalizing C D with
  | nil => exact ⟨[], rfl, rfl, by simp⟩
  | cons n ns ih =>
    obtain ⟨K, hK, hKl⟩ := permute_ok (s := rotateLeft C n ++ rotateLeft D n) (n := 56) (by simp [hC, hD])
      tables_in_range.2.2.2.2.2.1
    obtain ⟨Ks, hKs, hlen, hall⟩ := ih (rotateLeft C n) (rotateLeft D n) (by simp [hC]) (by simp [hD])
    refine ⟨K :: Ks, ?_, by simp [hlen], ?_⟩
    · simp only [desRounds, hK, hKs]
      rfl
    · intro k hk
      rcases List.mem_cons.1 hk with rfl | hk
      · exact hKl
      · exact hall k hk

/-- A key of the variant's width has a schedule (R105). -/
theorem deriveRoundKeys_ok (c : Cipher) (k : BitSeq) (h : k.length = 8 * keyBytes c) :
    ∃ K, deriveRoundKeys c k = .ok K ∧ ScheduleShape c K := by
  cases c with
  | des =>
    replace h : k.length = 64 := h
    obtain ⟨cd, hcd, hl⟩ := permute_ok h tables_in_range.2.2.2.2.1
    replace hl : cd.length = 56 := hl
    obtain ⟨Ks, hKs, hlen, hall⟩ := desRounds_ok desShifts (slice cd 1 28) (slice cd 29 56)
      (slice_length cd 1 28 (by omega) (by omega)) (slice_length cd 29 56 (by omega) (by omega))
    refine ⟨Ks, ?_, hlen, hall⟩
    simp only [deriveRoundKeys, deriveDes, if_pos h, hcd]
    exact hKs
  | gost =>
    replace h : k.length = 256 := h
    refine ⟨(List.range' 1 32).map fun i => gostSubKey k (gostIndex i), ?_, by simp [rounds], ?_⟩
    · simp only [deriveRoundKeys, deriveGost, if_pos h]
    intro q hq
    obtain ⟨i, hi, rfl⟩ := List.mem_map.1 hq
    have hi' := List.mem_range'_1.1 hi
    have hj : 1 ≤ gostIndex i ∧ gostIndex i ≤ 8 := by
      unfold gostIndex
      split <;> omega
    rw [gostSubKey, slice_length _ _ _ (by omega) (by omega)]
    simp only [rkBits]
    omega

theorem flatMap_length_const {α β : Type} (l : List α) (f : α → List β) (n : Nat) (h : ∀ a ∈ l, (f a).length = n) :
    (l.flatMap f).length = n * l.length := by
  induction l with
  | nil => simp
  | cons a l ih =>
    rw [List.flatMap_cons, List.length_append, h a (by simp), ih (fun b hb => h b (by simp [hb]))]
    simp [Nat.mul_add, Nat.add_comm]

@[simp] theorem desSubstitute_length (x : BitSeq) : (desSubstitute x).length = 32 := by
  rw [desSubstitute, flatMap_length_const _ _ 4 (fun j _ => by simp [desLookup])]
  simp

@[simp] theorem gostSubstitute_length (cfg : Config) (a : BitSeq) : (gostSubstitute cfg a).length = 32 := by
  rw [gostSubstitute, flatMap_length_const _ _ 4 (fun j _ => by simp)]
  simp

/-- Element `i` of a concatenation of pieces of `n` elements stands in piece `i / n`, at place `i % n`. -/
theorem flatMap_getD_const {α : Type} (f : α → BitSeq) {n : Nat} (hn : 0 < n) (l : List α)
    (h : ∀ a ∈ l, (f a).length = n) (i : Nat) :
    (l.flatMap f).getD i false = ((l[i / n]?.map f).getD []).getD (i % n) false := by
  induction l generalizing i with
  | nil => simp
  | cons a l ih =>
    have ha := h a (by simp)
    have ih := fun i => ih (fun b hb => h b (by simp [hb])) i
    simp only [List.flatMap_cons, List.getD_eq_getElem?_getD] at ih ⊢
    rcases Nat.lt_or_ge i n with hi | hi
    · simp [List.getElem?_append_left (ha ▸ hi), Nat.div_eq_of_lt hi, Nat.mod_eq_of_lt hi]
    · obtain ⟨j, rfl⟩ := Nat.exists_eq_add_of_le hi
      rw [List.getElem?_append_right (ha ▸ hi), ha, Nat.add_sub_cancel_left, ih, Nat.add_mod_left,
        Nat.add_div_left _ hn]
      simp

/-- Bit `i + 1` after the eight DES-like S-boxes belongs to S-box `i / 4 + 1` on its own group. -/
theorem desSubstitute_getD (x : BitSeq) {i : Nat} (h : i < 32) :
    (desSubstitute x).getD i false = (desLookup (i / 4 + 1) (slice x (6 * (i / 4) + 1) (6 * (i / 4) + 6))).getD (i % 4) false := by
  rw [desSubstitute, flatMap_getD_const _ (by decide : 0 < 4) _ (fun j _ => by simp [desLookup])]
  have hi : i / 4 < 8 := by omega
  simp [hi, Nat.add_comm 1, Nat.mul_add]

/-- Bit `i + 1` after the eight GOST-like S-boxes belongs to table `i / 4 + 1` on its own nibble. -/
theorem gostSubstitute_getD (cfg : Config) (a : BitSeq) {i : Nat} (h : i < 32) :
    (gostSubstitute cfg a).getD i false =
      (gostSBox cfg (i / 4 + 1) (uint (slice a (4 * (i / 4) + 1) (4 * (i / 4) + 4)))).testBit (3 - i % 4) := by
  rw [gostSubstitute, flatMap_getD_const _ (by decide : 0 < 4) _ (fun j _ => by simp)]
  have hi : i / 4 < 8 := by omega
  have h4 : i % 4 < 4 := Nat.mod_lt _ (by decide)
  rw [← bitsN_getD h4]
  simp [hi, Nat.add_comm 1, Nat.mul_add]

/-- The round function answers 32 bits on a half block and a round key of the right widths (R112). -/
theorem roundFunction_ok (cfg : Config) (c : Cipher) (h k : BitSeq) (hh : h.length = 32) (hk : k.length = rkBits c) :
    ∃ f, roundFunction cfg c h k = .ok f ∧ f.length = 32 := by
  cases c with
  | des =>
    replace hk : k.length = 48 := hk
    obtain ⟨e, he, hel⟩ := permute_ok hh tables_in_range.2.2.1
    obtain ⟨o, ho, hol⟩ := permute_ok (desSubstitute_length (xorBits e k)) tables_in_range.2.2.2.1
    refine ⟨o, ?_, hol⟩
    simp only [roundFunction, fDes, if_pos (And.intro hh hk), he]
    exact ho
  | gost =>
    replace hk : k.length = 32 := hk
    refine ⟨rotateLeft (gostSubstitute cfg (add32 h k)) 11, ?_, by simp⟩
    simp only [roundFunction, fGost, if_pos (And.intro hh hk)]

/-- One round keeps both halves 32 bits wide (R122). -/
theorem feistelRound_ok (cfg : Config) (c : Cipher) (k : BitSeq) (h : BitSeq × BitSeq) (hk : k.length = rkBits c)
    (h1 : h.1.length = 32) (h2 : h.2.length = 32) :
    ∃ f, roundFunction cfg c h.2 k = .ok f ∧ f.length = 32 ∧
      feistelRound cfg c k h = .ok (h.2, xorBits h.1 f) ∧ (xorBits h.1 f).length = 32 := by
  obtain ⟨f, hf, hl⟩ := roundFunction_ok cfg c h.2 k h2 hk
  refine ⟨f, hf, hl, ?_, by simp [h1, hl]⟩
  simp only [feistelRound, hf]
  rfl

/-- The rounds answer two 32-bit halves. -/
theorem feistelRounds_ok (cfg : Config) (c : Cipher) (ks : List BitSeq) (h : BitSeq × BitSeq)
    (hk : ∀ k ∈ ks, k.length = rkBits c) (h1 : h.1.length = 32) (h2 : h.2.length = 32) :
    ∃ h', feistelRounds cfg c ks h = .ok h' ∧ h'.1.length = 32 ∧ h'.2.length = 32 := by
  induction ks generalizing h with
  | nil => exact ⟨h, rfl, h1, h2⟩
  | cons k ks ih =>
    obtain ⟨f, _, _, hr, hx⟩ := feistelRound_ok cfg c k h (hk k (by simp)) h1 h2
    obtain ⟨h', hh', hl⟩ := ih (h.2, xorBits h.1 f) (fun q hq => hk q (by simp [hq])) h2 hx
    refine ⟨h', ?_, hl⟩
    simp only [feistelRounds, hr]
    exact hh'

/-- Every round key of a run is one of the schedule's. -/
theorem keySequence_width {c : Cipher} {K : List BitSeq} (hK : ScheduleShape c K) (dir : Direction) :
    ∀ k ∈ keySequence c K dir, k.length = rkBits c := by
  intro k hk
  obtain ⟨i, hi, rfl⟩ := List.mem_map.1 hk
  have hi' := List.mem_range'_1.1 hi
  have key : ∀ j, 1 ≤ j → j ≤ rounds c → (roundKeyAt K j).length = rkBits c := by
    intro j h1 h2
    have hj : j - 1 < K.length := by rw [hK.1]; omega
    rw [roundKeyAt, List.getD_eq_getElem _ _ hj]
    exact hK.2 _ (List.getElem_mem hj)
  cases dir
  · exact key i (by omega) (by omega)
  · exact key _ (by omega) (by omega)

/-- The single-block function answers 64 bits on a 64-bit block and a schedule of the variant (R126). -/
theorem crypt_ok (cfg : Config) {c : Cipher} {K : List BitSeq} (hK : ScheduleShape c K) (dir : Direction) {b : BitSeq}
    (hb : b.length = 64) : ∃ o, crypt cfg c K b dir = .ok o ∧ o.length = 64 := by
  obtain ⟨t, ht, htl⟩ := permute_ok hb (initialTable_range c)
  rw [initialTable_length] at htl
  obtain ⟨h', hh', h1, h2⟩ := feistelRounds_ok cfg c (keySequence c K dir) (slice t 1 32, slice t 33 64)
    (keySequence_width hK dir) (slice_length t 1 32 (by omega) (by omega)) (slice_length t 33 64 (by omega) (by omega))
  obtain ⟨o, ho, hol⟩ := permute_ok (s := h'.2 ++ h'.1) (n := 64) (by simp [h1, h2]) (finalTable_range c)
  rw [finalTable_length] at hol
  refine ⟨o, ?_, hol⟩
  have hi : initialHalves c b = .ok (slice t 1 32, slice t 33 64) := by
    simp only [initialHalves, ht]
    rfl
  simp only [crypt, if_pos hb, hi]
  show (feistelRounds cfg c (keySequence c K dir) (slice t 1 32, slice t 33 64) >>= fun h' => finalBlock c h') = _
  rw [hh']
  exact ho

/-- A block of another width is refused before the first step (R126, R132). -/
theorem crypt_bad_width (cfg : Config) (c : Cipher) (K : List BitSeq) (dir : Direction) {b : BitSeq}
    (hb : b.length ≠ 64) : crypt cfg c K b dir = .error .invalidBlockWidth := by
  simp only [crypt, if_neg hb]

/-- The single-block function on bytes answers 8 bytes on 8 bytes. -/
theorem cryptBytes_ok (cfg : Config) {c : Cipher} {K : List BitSeq} (hK : ScheduleShape c K) (dir : Direction)
    {x : List Byte} (hx : x.length = 8) :
    ∃ o, cryptBytes cfg c K dir x = .ok o ∧ o.length = 8 := by
  obtain ⟨o, ho, hol⟩ := crypt_ok cfg hK dir (b := bytesToBits x) (by simp [hx])
  refine ⟨packBytes 8 o, ?_, by simp⟩
  simp only [cryptBytes, ho]
  exact bitsToBytes_eq_ok (by omega)

end Sys2Proof.Machine
end

