-- ==== Sys2Proof/Laws/Memory.lean ====
section
/-! SUPPORT. The message buffer: a read after a write, and every operation keeps the canonical form. -/

namespace Sys2Proof.Machine

@[simp] theorem memory_read_nil (a : Nat) : Memory.read [] a = 0 := rfl

theorem memory_wf_cons {k : Nat} {w : Byte} {m : Memory} :
    Memory.wf ((k, w) :: m) = true ↔ w ≠ 0 ∧ (∀ c ∈ m, k < c.1) ∧ Memory.wf m = true := by
  simp [Memory.wf, Memory.unlisted, and_assoc]

@[simp] theorem memory_wf_nil : Memory.wf [] = true := rfl

/-- An offset below every entry reads as unlisted. -/
theorem memory_read_below {m : Memory} {a : Nat} (h : ∀ c ∈ m, a < c.1) : m.read a = 0 := by
  induction m with
  | nil => rfl
  | cons c m ih =>
    obtain ⟨k, w⟩ := c
    have hk : a < k := h (k, w) (by simp)
    rw [Memory.read, if_neg (by omega), ih (fun c hc => h c (by simp [hc]))]

/-- Every entry after a write is an old entry or the byte written. -/
theorem memory_mem_write {m : Memory} {a : Nat} {v : Byte} {c : Host.Cell} (h : c ∈ m.write a v) :
    c ∈ m ∨ c = (a, v) := by
  induction m with
  | nil =>
    simp only [Memory.write] at h
    split at h <;> simp_all
  | cons d m ih =>
    obtain ⟨k, w⟩ := d
    simp only [Memory.write] at h
    split at h
    · split at h <;> simp_all
      rcases h with h | h | h <;> simp [h]
    · split at h
      · split at h
        · simp [h]
        · rcases List.mem_cons.1 h with h | h <;> simp [h]
      · rcases List.mem_cons.1 h with h | h
        · simp [h]
        · rcases ih h with h | h <;> simp [h]

/-- A write keeps the canonical form. -/
theorem memory_write_wf {m : Memory} (h : m.wf = true) (a : Nat) (v : Byte) : (m.write a v).wf = true := by
  induction m with
  | nil =>
    simp only [Memory.write]
    split
    · rfl
    · rename_i hv
      exact memory_wf_cons.2 ⟨hv, by simp, rfl⟩
  | cons c m ih =>
    obtain ⟨k, w⟩ := c
    obtain ⟨hw, hk, hm⟩ := memory_wf_cons.1 h
    simp only [Memory.write]
    split
    · split
      · exact h
      · rename_i hlt hv
        refine memory_wf_cons.2 ⟨hv, ?_, h⟩
        intro c hc
        rcases List.mem_cons.1 hc with rfl | hc
        · exact hlt
        · exact lt_trans hlt (hk c hc)
    · split
      · split
        · exact hm
        · rename_i hne hak hv
          subst hak
          exact memory_wf_cons.2 ⟨hv, hk, hm⟩
      · rename_i h1 h2
        refine memory_wf_cons.2 ⟨hw, ?_, ih hm⟩
        intro c hc
        rcases memory_mem_write hc with hc | rfl
        · exact hk c hc
        · simp only; omega

/-- A read after a write: the byte written at its offset, the old byte elsewhere. -/
theorem memory_read_write {m : Memory} (h : m.wf = true) (a : Nat) (v : Byte) (b : Nat) :
    (m.write a v).read b = if b = a then v else m.read b := by
  induction m with
  | nil =>
    simp only [Memory.write]
    split
    · rename_i hv
      simp only [Memory.read, Memory.unlisted] at *
      split <;> simp_all
    · simp [Memory.read]
  | cons c m ih =>
    obtain ⟨k, w⟩ := c
    obtain ⟨hw, hk, hm⟩ := memory_wf_cons.1 h
    simp only [Memory.write]
    split
    · rename_i hlt
      split
      · rename_i hv
        by_cases hb : b = a
        · subst hb
          rw [if_pos rfl, Memory.read, if_neg (by omega), memory_read_below (fun c hc => lt_trans hlt (hk c hc))]
          exact hv.symm
        · rw [if_neg hb]
      · rfl
    · split
      · rename_i hne hak
        subst hak
        split
        · rename_i hv
          by_cases hb : b = a
          · subst hb
            rw [if_pos rfl, memory_read_below hk]
            exact hv.symm
          · rw [if_neg hb, Memory.read, if_neg hb]
        · simp only [Memory.read]
          split <;> simp_all
      · simp only [Memory.read, ih hm]
        by_cases hb : b = k
        · subst hb
          rw [if_pos rfl, if_neg (by omega), if_pos rfl]
        · rw [if_neg hb, if_neg hb]

/-- Two canonical buffers that read the same at every offset are the same list. -/
theorem memory_ext {m n : Memory} (hm : m.wf = true) (hn : n.wf = true) (h : ∀ a, m.read a = n.read a) : m = n := by
  induction m generalizing n with
  | nil =>
    cases n with
    | nil => rfl
    | cons c n =>
      obtain ⟨k, w⟩ := c
      have := h k
      simp [Memory.read] at this
      exact absurd this.symm (memory_wf_cons.1 hn).1
  | cons c m ih =>
    obtain ⟨k, w⟩ := c
    obtain ⟨hw, hk, hm'⟩ := memory_wf_cons.1 hm
    cases n with
    | nil =>
      have := h k
      simp [Memory.read] at this
      exact absurd this hw
    | cons d n =>
      obtain ⟨l, x⟩ := d
      obtain ⟨hx, hl, hn'⟩ := memory_wf_cons.1 hn
      have hkl : k = l := by
        rcases lt_trichotomy k l with hlt | heq | hlt
        · have h1 := h k
          rw [Memory.read, if_pos rfl, Memory.read, if_neg (by omega),
            memory_read_below (fun c hc => lt_trans hlt (hl c hc))] at h1
          exact absurd h1 hw
        · exact heq
        · have h1 := h l
          rw [Memory.read, if_neg (by omega), memory_read_below (fun c hc => lt_trans hlt (hk c hc)), Memory.read,
            if_pos rfl] at h1
          exact absurd h1.symm hx
      subst hkl
      have hwx : w = x := by simpa [Memory.read] using h k
      subst hwx
      rw [ih hm' hn']
      intro a
      by_cases ha : a = k
      · subst ha
        rw [memory_read_below hk, memory_read_below hl]
      · simpa [Memory.read, ha] using h a

end Sys2Proof.Machine
end

