-- ==== Sys2Proof/Laws/HostMap.lean ====
section
/-! SUPPORT. The address map: which addresses a row holds, and what a host event can do. -/

namespace Sys2Proof.Machine

theorem mem_allRegions (r : Region) : r ∈ allRegions := by cases r <;> decide

/-- No two rows of the map share an address (R36). -/
theorem regions_disjoint (r q : Region) (h : r ≠ q) :
    regionBase r + regionSize r ≤ regionBase q ∨ regionBase q + regionSize q ≤ regionBase r := by
  revert h
  cases r <;> cases q <;> decide

theorem inRegion_iff (a : Nat) (r : Region) :
    inRegion a r = true ↔ regionBase r ≤ a ∧ a < regionBase r + regionSize r := by simp [inRegion]

/-- An address lies in at most one row. -/
theorem inRegion_unique {a : Nat} {r q : Region} (hr : inRegion a r = true) (hq : inRegion a q = true) : r = q := by
  by_contra h
  rw [inRegion_iff] at hr hq
  rcases regions_disjoint r q h with h | h <;> omega

/-- Where an address is: its row and its offset in it (R36). -/
theorem locate_eq_some {a : Nat} {r : Region} {off : Nat} :
    locate a = some (r, off) ↔ hostAddress a = regionBase r + off ∧ off < regionSize r := by
  unfold locate
  constructor
  · intro h
    split at h
    · rename_i q hq
      have hin := (inRegion_iff _ _).1 (List.find?_some hq)
      injection h with h
      injection h with h1 h2
      subst h1
      omega
    · cases h
  · intro h
    have hin : inRegion (hostAddress a) r = true := (inRegion_iff _ _).2 (by omega)
    cases hf : allRegions.find? (inRegion (hostAddress a)) with
    | none => exact absurd hin (List.find?_eq_none.1 hf r (mem_allRegions r))
    | some q =>
      have hq : q = r := inRegion_unique (List.find?_some hf) hin
      subst hq
      simp only
      rw [h.1, Nat.add_sub_cancel_left]

/-- A reserved address is one in no row (R39). -/
theorem locate_eq_none {a : Nat} : locate a = none ↔ ∀ r, inRegion (hostAddress a) r = false := by
  unfold locate
  constructor
  · intro h r
    split at h
    · cases h
    · rename_i hf
      simpa using List.find?_eq_none.1 hf r (mem_allRegions r)
  · intro h
    rw [List.find?_eq_none.2 (fun r _ => by simp [h r])]

/-- The offset of a located address is inside its row. -/
theorem locate_offset_lt {a : Nat} {r : Region} {off : Nat} (h : locate a = some (r, off)) : off < regionSize r :=
  (locate_eq_some.1 h).2

/-- `CMD` is address 0 (R11, R36). -/
theorem locate_cmd {a : Nat} : locate a = some (.cmd, 0) ↔ a % 2 ^ 18 = 0 := by
  rw [locate_eq_some]
  simp [hostAddress, regionBase, regionSize]

/-- A row that is not marked W ignores a host write (R38). -/
theorem storeByte_ignored {r : Region} (h : regionStores r = false) (s : State) (off : Nat) (v : Byte) :
    storeByte s r off v = s := by
  cases r <;> first
    | rfl
    | exact absurd h (by decide)

/-- Every command answers a next state: no command of the hardware stops the machine (R170). -/
theorem exec_next (i : Instr) (s : State) : ∃ t, exec i s = .next t := by
  cases i <;> exact ⟨_, rfl⟩

/-- Everything the oldest waiting event can do (R37, R38, R61, R195). -/
theorem step_cases {s t : State} (h : step s = .next t) :
    (s.pending = [] ∧ t = s) ∨
      ∃ e rest, s.pending = e :: rest ∧
        ((∃ a, e = .read a ∧
            t = { s with pending := rest, returned := s.returned ++ [hostRead { s with pending := rest } a] }) ∨
          (∃ a v i, e = .write a v ∧ a % 2 ^ 18 = 0 ∧ decode v = .ok i ∧
            exec i { s with pending := rest } = .next t) ∨
          (∃ a v x, e = .write a v ∧ a % 2 ^ 18 = 0 ∧ decode v = .error x ∧
            t = raise .illegalCommand false { s with pending := rest }) ∨
          (∃ a v, e = .write a v ∧ a % 2 ^ 18 ≠ 0 ∧ t = hostStore { s with pending := rest } a v) ∨
          (e = .reset ∧ t = hardwareReset { s with pending := rest })) := by
  unfold step performNext at h
  split at h
  · rename_i hp
    injection h with h
    exact .inl ⟨hp, h.symm⟩
  · rename_i e rest hp
    refine .inr ⟨e, rest, hp, ?_⟩
    cases e with
    | read a =>
      injection h with h
      exact .inl ⟨a, rfl, h.symm⟩
    | write a v =>
      simp only [performEvent, locate_cmd] at h
      split at h
      · rename_i h0
        unfold executeByte at h
        split at h
        · rename_i i hi
          exact .inr (.inl ⟨a, v, i, rfl, h0, hi, h⟩)
        · rename_i x hx
          injection h with h
          exact .inr (.inr (.inl ⟨a, v, x, rfl, h0, hx, h.symm⟩))
      · rename_i h0
        injection h with h
        exact .inr (.inr (.inr (.inl ⟨a, v, rfl, h0, h.symm⟩)))
    | reset =>
      injection h with h
      exact .inr (.inr (.inr (.inr ⟨rfl, h.symm⟩)))

end Sys2Proof.Machine
end

