-- ==== Sys2Proof/Laws/State.lean ====
section
/-! SUPPORT. One lemma per field per update of `State`, so that no later proof unfolds a record update. -/

namespace Sys2Proof.Machine

@[simp] theorem restSequencer_cfg (s : State) : (s.restSequencer).cfg = s.cfg := rfl
@[simp] theorem restSequencer_status (s : State) : (s.restSequencer).status = s.status := rfl
@[simp] theorem restSequencer_err (s : State) : (s.restSequencer).err = s.err := rfl
@[simp] theorem restSequencer_klen (s : State) : (s.restSequencer).klen = s.klen := rfl
@[simp] theorem restSequencer_ivlen (s : State) : (s.restSequencer).ivlen = s.ivlen := rfl
@[simp] theorem restSequencer_mlen (s : State) : (s.restSequencer).mlen = s.mlen := rfl
@[simp] theorem restSequencer_out (s : State) : (s.restSequencer).out = s.out := rfl
@[simp] theorem restSequencer_key (s : State) : (s.restSequencer).key = s.key := rfl
@[simp] theorem restSequencer_iv (s : State) : (s.restSequencer).iv = s.iv := rfl
@[simp] theorem restSequencer_cv (s : State) : (s.restSequencer).cv = s.cv := rfl
@[simp] theorem restSequencer_blk (s : State) : (s.restSequencer).blk = s.blk := rfl
@[simp] theorem restSequencer_hb (s : State) : (s.restSequencer).hb = s.hb := rfl
@[simp] theorem restSequencer_rkop (s : State) : (s.restSequencer).rkop = s.rkop := rfl
@[simp] theorem restSequencer_fo (s : State) : (s.restSequencer).fo = s.fo := rfl
@[simp] theorem restSequencer_rk (s : State) : (s.restSequencer).rk = s.rk := rfl
@[simp] theorem restSequencer_msg (s : State) : (s.restSequencer).msg = s.msg := rfl
@[simp] theorem restSequencer_dst (s : State) : (s.restSequencer).dst = .idle := rfl
@[simp] theorem restSequencer_mst (s : State) : (s.restSequencer).mst = .idle := rfl
@[simp] theorem restSequencer_pending (s : State) : (s.restSequencer).pending = s.pending := rfl
@[simp] theorem restSequencer_returned (s : State) : (s.restSequencer).returned = s.returned := rfl

@[simp] theorem raise_cfg (e : CipherError) (b : Bool) (s : State) : (raise e b s).cfg = s.cfg := by cases b <;> rfl
@[simp] theorem raise_status (e : CipherError) (b : Bool) (s : State) : (raise e b s).status = statusError s.status := by cases b <;> rfl
@[simp] theorem raise_err (e : CipherError) (b : Bool) (s : State) : (raise e b s).err = errorCode e := by cases b <;> rfl
@[simp] theorem raise_klen (e : CipherError) (b : Bool) (s : State) : (raise e b s).klen = s.klen := by cases b <;> rfl
@[simp] theorem raise_ivlen (e : CipherError) (b : Bool) (s : State) : (raise e b s).ivlen = s.ivlen := by cases b <;> rfl
@[simp] theorem raise_mlen (e : CipherError) (b : Bool) (s : State) : (raise e b s).mlen = s.mlen := by cases b <;> rfl
@[simp] theorem raise_out (e : CipherError) (b : Bool) (s : State) : (raise e b s).out = if b then [] else s.out := by cases b <;> rfl
@[simp] theorem raise_key (e : CipherError) (b : Bool) (s : State) : (raise e b s).key = s.key := by cases b <;> rfl
@[simp] theorem raise_iv (e : CipherError) (b : Bool) (s : State) : (raise e b s).iv = s.iv := by cases b <;> rfl
@[simp] theorem raise_cv (e : CipherError) (b : Bool) (s : State) : (raise e b s).cv = s.cv := by cases b <;> rfl
@[simp] theorem raise_blk (e : CipherError) (b : Bool) (s : State) : (raise e b s).blk = s.blk := by cases b <;> rfl
@[simp] theorem raise_hb (e : CipherError) (b : Bool) (s : State) : (raise e b s).hb = s.hb := by cases b <;> rfl
@[simp] theorem raise_rkop (e : CipherError) (b : Bool) (s : State) : (raise e b s).rkop = s.rkop := by cases b <;> rfl
@[simp] theorem raise_fo (e : CipherError) (b : Bool) (s : State) : (raise e b s).fo = s.fo := by cases b <;> rfl
@[simp] theorem raise_rk (e : CipherError) (b : Bool) (s : State) : (raise e b s).rk = s.rk := by cases b <;> rfl
@[simp] theorem raise_msg (e : CipherError) (b : Bool) (s : State) : (raise e b s).msg = s.msg := by cases b <;> rfl
@[simp] theorem raise_dst (e : CipherError) (b : Bool) (s : State) : (raise e b s).dst = if b then .idle else s.dst := by cases b <;> rfl
@[simp] theorem raise_mst (e : CipherError) (b : Bool) (s : State) : (raise e b s).mst = if b then .idle else s.mst := by cases b <;> rfl
@[simp] theorem raise_pending (e : CipherError) (b : Bool) (s : State) : (raise e b s).pending = s.pending := by cases b <;> rfl
@[simp] theorem raise_returned (e : CipherError) (b : Bool) (s : State) : (raise e b s).returned = s.returned := by cases b <;> rfl

@[simp] theorem succeed_cfg (s : State) : (succeed s).cfg = s.cfg := rfl
@[simp] theorem succeed_status (s : State) : (succeed s).status = statusSuccess s.status := rfl
@[simp] theorem succeed_err (s : State) : (succeed s).err = 0 := rfl
@[simp] theorem succeed_klen (s : State) : (succeed s).klen = s.klen := rfl
@[simp] theorem succeed_ivlen (s : State) : (succeed s).ivlen = s.ivlen := rfl
@[simp] theorem succeed_mlen (s : State) : (succeed s).mlen = s.mlen := rfl
@[simp] theorem succeed_out (s : State) : (succeed s).out = s.out := rfl
@[simp] theorem succeed_key (s : State) : (succeed s).key = s.key := rfl
@[simp] theorem succeed_iv (s : State) : (succeed s).iv = s.iv := rfl
@[simp] theorem succeed_cv (s : State) : (succeed s).cv = s.cv := rfl
@[simp] theorem succeed_blk (s : State) : (succeed s).blk = s.blk := rfl
@[simp] theorem succeed_hb (s : State) : (succeed s).hb = s.hb := rfl
@[simp] theorem succeed_rkop (s : State) : (succeed s).rkop = s.rkop := rfl
@[simp] theorem succeed_fo (s : State) : (succeed s).fo = s.fo := rfl
@[simp] theorem succeed_rk (s : State) : (succeed s).rk = s.rk := rfl
@[simp] theorem succeed_msg (s : State) : (succeed s).msg = s.msg := rfl
@[simp] theorem succeed_dst (s : State) : (succeed s).dst = s.dst := rfl
@[simp] theorem succeed_mst (s : State) : (succeed s).mst = s.mst := rfl
@[simp] theorem succeed_pending (s : State) : (succeed s).pending = s.pending := rfl
@[simp] theorem succeed_returned (s : State) : (succeed s).returned = s.returned := rfl

@[simp] theorem storeSchedule_cfg (c : Cipher) (K : List BitSeq) (s : State) : (storeSchedule c K s).cfg = s.cfg := rfl
@[simp] theorem storeSchedule_status (c : Cipher) (K : List BitSeq) (s : State) : (storeSchedule c K s).status = statusSchedule c s.status := rfl
@[simp] theorem storeSchedule_err (c : Cipher) (K : List BitSeq) (s : State) : (storeSchedule c K s).err = s.err := rfl
@[simp] theorem storeSchedule_klen (c : Cipher) (K : List BitSeq) (s : State) : (storeSchedule c K s).klen = s.klen := rfl
@[simp] theorem storeSchedule_ivlen (c : Cipher) (K : List BitSeq) (s : State) : (storeSchedule c K s).ivlen = s.ivlen := rfl
@[simp] theorem storeSchedule_mlen (c : Cipher) (K : List BitSeq) (s : State) : (storeSchedule c K s).mlen = s.mlen := rfl
@[simp] theorem storeSchedule_out (c : Cipher) (K : List BitSeq) (s : State) : (storeSchedule c K s).out = s.out := rfl
@[simp] theorem storeSchedule_key (c : Cipher) (K : List BitSeq) (s : State) : (storeSchedule c K s).key = s.key := rfl
@[simp] theorem storeSchedule_iv (c : Cipher) (K : List BitSeq) (s : State) : (storeSchedule c K s).iv = s.iv := rfl
@[simp] theorem storeSchedule_cv (c : Cipher) (K : List BitSeq) (s : State) : (storeSchedule c K s).cv = s.cv := rfl
@[simp] theorem storeSchedule_blk (c : Cipher) (K : List BitSeq) (s : State) : (storeSchedule c K s).blk = s.blk := rfl
@[simp] theorem storeSchedule_hb (c : Cipher) (K : List BitSeq) (s : State) : (storeSchedule c K s).hb = s.hb := rfl
@[simp] theorem storeSchedule_rkop (c : Cipher) (K : List BitSeq) (s : State) : (storeSchedule c K s).rkop = s.rkop := rfl
@[simp] theorem storeSchedule_fo (c : Cipher) (K : List BitSeq) (s : State) : (storeSchedule c K s).fo = s.fo := rfl
@[simp] theorem storeSchedule_rk (c : Cipher) (K : List BitSeq) (s : State) : (storeSchedule c K s).rk = Vector.ofFn fun i => scheduleEntry c K (i.val + 1) := rfl
@[simp] theorem storeSchedule_msg (c : Cipher) (K : List BitSeq) (s : State) : (storeSchedule c K s).msg = s.msg := rfl
@[simp] theorem storeSchedule_dst (c : Cipher) (K : List BitSeq) (s : State) : (storeSchedule c K s).dst = s.dst := rfl
@[simp] theorem storeSchedule_mst (c : Cipher) (K : List BitSeq) (s : State) : (storeSchedule c K s).mst = s.mst := rfl
@[simp] theorem storeSchedule_pending (c : Cipher) (K : List BitSeq) (s : State) : (storeSchedule c K s).pending = s.pending := rfl
@[simp] theorem storeSchedule_returned (c : Cipher) (K : List BitSeq) (s : State) : (storeSchedule c K s).returned = s.returned := rfl

@[simp] theorem storeChaining_cfg (m : Mode) (l : List Byte) (s : State) : (storeChaining m l s).cfg = s.cfg := by cases m <;> rfl
@[simp] theorem storeChaining_status (m : Mode) (l : List Byte) (s : State) : (storeChaining m l s).status = s.status := by cases m <;> rfl
@[simp] theorem storeChaining_err (m : Mode) (l : List Byte) (s : State) : (storeChaining m l s).err = s.err := by cases m <;> rfl
@[simp] theorem storeChaining_klen (m : Mode) (l : List Byte) (s : State) : (storeChaining m l s).klen = s.klen := by cases m <;> rfl
@[simp] theorem storeChaining_ivlen (m : Mode) (l : List Byte) (s : State) : (storeChaining m l s).ivlen = s.ivlen := by cases m <;> rfl
@[simp] theorem storeChaining_mlen (m : Mode) (l : List Byte) (s : State) : (storeChaining m l s).mlen = s.mlen := by cases m <;> rfl
@[simp] theorem storeChaining_out (m : Mode) (l : List Byte) (s : State) : (storeChaining m l s).out = s.out := by cases m <;> rfl
@[simp] theorem storeChaining_key (m : Mode) (l : List Byte) (s : State) : (storeChaining m l s).key = s.key := by cases m <;> rfl
@[simp] theorem storeChaining_iv (m : Mode) (l : List Byte) (s : State) : (storeChaining m l s).iv = s.iv := by cases m <;> rfl
@[simp] theorem storeChaining_cv (m : Mode) (l : List Byte) (s : State) : (storeChaining m l s).cv = if chained m then bufferOf 8 l else s.cv := by cases m <;> rfl
@[simp] theorem storeChaining_blk (m : Mode) (l : List Byte) (s : State) : (storeChaining m l s).blk = s.blk := by cases m <;> rfl
@[simp] theorem storeChaining_hb (m : Mode) (l : List Byte) (s : State) : (storeChaining m l s).hb = s.hb := by cases m <;> rfl
@[simp] theorem storeChaining_rkop (m : Mode) (l : List Byte) (s : State) : (storeChaining m l s).rkop = s.rkop := by cases m <;> rfl
@[simp] theorem storeChaining_fo (m : Mode) (l : List Byte) (s : State) : (storeChaining m l s).fo = s.fo := by cases m <;> rfl
@[simp] theorem storeChaining_rk (m : Mode) (l : List Byte) (s : State) : (storeChaining m l s).rk = s.rk := by cases m <;> rfl
@[simp] theorem storeChaining_msg (m : Mode) (l : List Byte) (s : State) : (storeChaining m l s).msg = s.msg := by cases m <;> rfl
@[simp] theorem storeChaining_dst (m : Mode) (l : List Byte) (s : State) : (storeChaining m l s).dst = s.dst := by cases m <;> rfl
@[simp] theorem storeChaining_mst (m : Mode) (l : List Byte) (s : State) : (storeChaining m l s).mst = s.mst := by cases m <;> rfl
@[simp] theorem storeChaining_pending (m : Mode) (l : List Byte) (s : State) : (storeChaining m l s).pending = s.pending := by cases m <;> rfl
@[simp] theorem storeChaining_returned (m : Mode) (l : List Byte) (s : State) : (storeChaining m l s).returned = s.returned := by cases m <;> rfl

@[simp] theorem finishMessage_cfg (l : List Byte) (s : State) : (finishMessage l s).cfg = s.cfg := rfl
@[simp] theorem finishMessage_status (l : List Byte) (s : State) : (finishMessage l s).status = statusSuccess s.status := rfl
@[simp] theorem finishMessage_err (l : List Byte) (s : State) : (finishMessage l s).err = 0 := rfl
@[simp] theorem finishMessage_klen (l : List Byte) (s : State) : (finishMessage l s).klen = s.klen := rfl
@[simp] theorem finishMessage_ivlen (l : List Byte) (s : State) : (finishMessage l s).ivlen = s.ivlen := rfl
@[simp] theorem finishMessage_mlen (l : List Byte) (s : State) : (finishMessage l s).mlen = s.mlen := rfl
@[simp] theorem finishMessage_out (l : List Byte) (s : State) : (finishMessage l s).out = l := rfl
@[simp] theorem finishMessage_key (l : List Byte) (s : State) : (finishMessage l s).key = s.key := rfl
@[simp] theorem finishMessage_iv (l : List Byte) (s : State) : (finishMessage l s).iv = s.iv := rfl
@[simp] theorem finishMessage_cv (l : List Byte) (s : State) : (finishMessage l s).cv = s.cv := rfl
@[simp] theorem finishMessage_blk (l : List Byte) (s : State) : (finishMessage l s).blk = s.blk := rfl
@[simp] theorem finishMessage_hb (l : List Byte) (s : State) : (finishMessage l s).hb = s.hb := rfl
@[simp] theorem finishMessage_rkop (l : List Byte) (s : State) : (finishMessage l s).rkop = s.rkop := rfl
@[simp] theorem finishMessage_fo (l : List Byte) (s : State) : (finishMessage l s).fo = s.fo := rfl
@[simp] theorem finishMessage_rk (l : List Byte) (s : State) : (finishMessage l s).rk = s.rk := rfl
@[simp] theorem finishMessage_msg (l : List Byte) (s : State) : (finishMessage l s).msg = s.msg := rfl
@[simp] theorem finishMessage_dst (l : List Byte) (s : State) : (finishMessage l s).dst = .idle := rfl
@[simp] theorem finishMessage_mst (l : List Byte) (s : State) : (finishMessage l s).mst = .idle := rfl
@[simp] theorem finishMessage_pending (l : List Byte) (s : State) : (finishMessage l s).pending = s.pending := rfl
@[simp] theorem finishMessage_returned (l : List Byte) (s : State) : (finishMessage l s).returned = s.returned := rfl

@[simp] theorem resetWith_cfg (cfg : Config) : (State.resetWith cfg).cfg = cfg := rfl
@[simp] theorem resetWith_status (cfg : Config) : (State.resetWith cfg).status = 0 := rfl
@[simp] theorem resetWith_err (cfg : Config) : (State.resetWith cfg).err = 0 := rfl
@[simp] theorem resetWith_klen (cfg : Config) : (State.resetWith cfg).klen = 0 := rfl
@[simp] theorem resetWith_ivlen (cfg : Config) : (State.resetWith cfg).ivlen = 0 := rfl
@[simp] theorem resetWith_mlen (cfg : Config) : (State.resetWith cfg).mlen = 0 := rfl
@[simp] theorem resetWith_out (cfg : Config) : (State.resetWith cfg).out = [] := rfl
@[simp] theorem resetWith_key (cfg : Config) : (State.resetWith cfg).key = Vector.replicate 32 0 := rfl
@[simp] theorem resetWith_iv (cfg : Config) : (State.resetWith cfg).iv = Vector.replicate 8 0 := rfl
@[simp] theorem resetWith_cv (cfg : Config) : (State.resetWith cfg).cv = Vector.replicate 8 0 := rfl
@[simp] theorem resetWith_blk (cfg : Config) : (State.resetWith cfg).blk = Vector.replicate 8 0 := rfl
@[simp] theorem resetWith_hb (cfg : Config) : (State.resetWith cfg).hb = Vector.replicate 4 0 := rfl
@[simp] theorem resetWith_rkop (cfg : Config) : (State.resetWith cfg).rkop = Vector.replicate 6 0 := rfl
@[simp] theorem resetWith_fo (cfg : Config) : (State.resetWith cfg).fo = Vector.replicate 4 0 := rfl
@[simp] theorem resetWith_rk (cfg : Config) : (State.resetWith cfg).rk = Vector.replicate 32 0 := rfl
@[simp] theorem resetWith_msg (cfg : Config) : (State.resetWith cfg).msg = [] := rfl
@[simp] theorem resetWith_dst (cfg : Config) : (State.resetWith cfg).dst = .idle := rfl
@[simp] theorem resetWith_mst (cfg : Config) : (State.resetWith cfg).mst = .idle := rfl
@[simp] theorem resetWith_pending (cfg : Config) : (State.resetWith cfg).pending = [] := rfl
@[simp] theorem resetWith_returned (cfg : Config) : (State.resetWith cfg).returned = [] := rfl

@[simp] theorem clearState_cfg (s : State) : (clearState s).cfg = s.cfg := rfl
@[simp] theorem clearState_status (s : State) : (clearState s).status = 0 := rfl
@[simp] theorem clearState_err (s : State) : (clearState s).err = 0 := rfl
@[simp] theorem clearState_klen (s : State) : (clearState s).klen = 0 := rfl
@[simp] theorem clearState_ivlen (s : State) : (clearState s).ivlen = 0 := rfl
@[simp] theorem clearState_mlen (s : State) : (clearState s).mlen = 0 := rfl
@[simp] theorem clearState_out (s : State) : (clearState s).out = [] := rfl
@[simp] theorem clearState_key (s : State) : (clearState s).key = Vector.replicate 32 0 := rfl
@[simp] theorem clearState_iv (s : State) : (clearState s).iv = Vector.replicate 8 0 := rfl
@[simp] theorem clearState_cv (s : State) : (clearState s).cv = Vector.replicate 8 0 := rfl
@[simp] theorem clearState_blk (s : State) : (clearState s).blk = Vector.replicate 8 0 := rfl
@[simp] theorem clearState_hb (s : State) : (clearState s).hb = Vector.replicate 4 0 := rfl
@[simp] theorem clearState_rkop (s : State) : (clearState s).rkop = Vector.replicate 6 0 := rfl
@[simp] theorem clearState_fo (s : State) : (clearState s).fo = Vector.replicate 4 0 := rfl
@[simp] theorem clearState_rk (s : State) : (clearState s).rk = Vector.replicate 32 0 := rfl
@[simp] theorem clearState_msg (s : State) : (clearState s).msg = [] := rfl
@[simp] theorem clearState_dst (s : State) : (clearState s).dst = .idle := rfl
@[simp] theorem clearState_mst (s : State) : (clearState s).mst = .idle := rfl
@[simp] theorem clearState_pending (s : State) : (clearState s).pending = s.pending := rfl
@[simp] theorem clearState_returned (s : State) : (clearState s).returned = s.returned := rfl

/-- An error of a command that is not MENC or MDEC: the whole state. -/
theorem raise_plain (e : CipherError) (s : State) :
    raise e false s = { s with err := errorCode e, status := statusError s.status } := rfl

/-- An error of MENC or MDEC: the whole state. -/
theorem raise_message (e : CipherError) (s : State) :
    raise e true s =
      { s with err := errorCode e, status := statusError s.status, out := [], dst := .idle, mst := .idle } := rfl

end Sys2Proof.Machine
end

