-- ==== Sys2Proof/Laws/Mode.lean ====
section
/-! SUPPORT. What the mode layer's operations answer: the block loop, the operands, and the commands' outcomes. -/

namespace Sys2Proof.Machine

@[simp] theorem vector_toList_length {α : Type} {n : Nat} (v : Vector α n) : v.toList.length = n := by simp

theorem bufferOf_toList {n : Nat} {l : List Byte} (h : l.length = n) : (bufferOf n l).toList = l := by
  apply List.ext_getElem
  · simp [h]
  · intro i h1 h2
    simp [bufferOf, h2]

theorem bufferOf_self {n : Nat} (v : Vector Byte n) : bufferOf n v.toList = v := by
  apply Vector.toList_inj.1
  exact bufferOf_toList (by simp)

@[simp] theorem keyBits_length (c : Cipher) (s : State) : (keyBits c s).length = 8 * keyBytes c := by
  cases c <;> simp [keyBits, keyOperand, keyBytes]

@[simp] theorem halfBlockOperand_length (s : State) : (halfBlockOperand s).length = 32 := by
  simp [halfBlockOperand]

@[simp] theorem roundKeyOperand_length (c : Cipher) (s : State) : (roundKeyOperand c s).length = rkBits c := by
  cases c <;> simp [roundKeyOperand, rkBits]

@[simp] theorem message_length (s : State) : (message s).length = s.mlen.toNat := by simp [message]

@[simp] theorem pad_length (M : List Byte) : (pad M).length = M.length + 8 - M.length % 8 := by
  simp only [pad, padLength, List.length_append, List.length_replicate]
  omega

theorem paddedLength_mod (s : State) : paddedLength s % 8 = 0 := by
  unfold paddedLength
  omega

theorem blockAt_length {S : List Byte} {b : Nat} (h : 8 * b + 8 ≤ S.length) : (blockAt S b).length = 8 := by
  simp only [blockAt, List.length_take, List.length_drop]
  omega

@[simp] theorem blocksOf_length (n : Nat) (S : List Byte) : (blocksOf n S).length = n := by simp [blocksOf]

theorem blocksOf_width {n : Nat} {S : List Byte} (h : 8 * n ≤ S.length) : ∀ B ∈ blocksOf n S, B.length = 8 := by
  intro B hB
  obtain ⟨b, hb, rfl⟩ := List.mem_map.1 hB
  have := List.mem_range.1 hb
  exact blockAt_length (by omega)

/-- The key-length check fails only on the variant's own length (R173). -/
theorem keyLengthBad_eq_false {c : Cipher} {s : State} : keyLengthBad c s = false ↔ s.klen.toNat = keyBytes c := by
  simp [keyLengthBad]

/-- Every step of a mode answers a block and a chaining value of 8 bytes on 8-byte operands (R140 to R143). -/
theorem encStep_ok (cfg : Config) {c : Cipher} {K : List BitSeq} (hK : ScheduleShape c K) (m : Mode)
    {cv P : List Byte} (hcv : cv.length = 8) (hP : P.length = 8) :
    ∃ o cv', encStep cfg c K m cv P = .ok (o, cv') ∧ o.length = 8 ∧ cv'.length = 8 := by
  cases m with
  | ecb =>
    obtain ⟨C, hC, hl⟩ := cryptBytes_ok cfg hK .enc hP
    exact ⟨C, cv, by simp only [encStep, hC]; rfl, hl, hcv⟩
  | cbc =>
    obtain ⟨C, hC, hl⟩ := cryptBytes_ok cfg hK .enc (x := xorBytes P cv) (by simp [hP, hcv])
    exact ⟨C, C, by simp only [encStep, hC]; rfl, hl, hl⟩
  | cfb =>
    obtain ⟨O, hO, hl⟩ := cryptBytes_ok cfg hK .enc hcv
    exact ⟨xorBytes P O, xorBytes P O, by simp only [encStep, hO]; rfl, by simp [hP, hl], by simp [hP, hl]⟩
  | ofb =>
    obtain ⟨O, hO, hl⟩ := cryptBytes_ok cfg hK .enc hcv
    exact ⟨xorBytes P O, O, by simp only [encStep, hO]; rfl, by simp [hP, hl], hl⟩

/-- The same for the decryption steps (R144 to R147). -/
theorem decStep_ok (cfg : Config) {c : Cipher} {K : List BitSeq} (hK : ScheduleShape c K) (m : Mode)
    {cv C : List Byte} (hcv : cv.length = 8) (hC : C.length = 8) :
    ∃ o cv', decStep cfg c K m cv C = .ok (o, cv') ∧ o.length = 8 ∧ cv'.length = 8 := by
  cases m with
  | ecb =>
    obtain ⟨P, hP, hl⟩ := cryptBytes_ok cfg hK .dec hC
    exact ⟨P, cv, by simp only [decStep, hP]; rfl, hl, hcv⟩
  | cbc =>
    obtain ⟨P, hP, hl⟩ := cryptBytes_ok cfg hK .dec hC
    exact ⟨xorBytes P cv, C, by simp only [decStep, hP]; rfl, by simp [hl, hcv], hC⟩
  | cfb =>
    obtain ⟨O, hO, hl⟩ := cryptBytes_ok cfg hK .enc hcv
    exact ⟨xorBytes C O, C, by simp only [decStep, hO]; rfl, by simp [hC, hl], hC⟩
  | ofb =>
    obtain ⟨O, hO, hl⟩ := cryptBytes_ok cfg hK .enc hcv
    exact ⟨xorBytes C O, O, by simp only [decStep, hO]; rfl, by simp [hC, hl], hl⟩

/-- The block loop runs to its end when every step answers 8 bytes, and its output has 8 bytes per block. -/
theorem runBlocks_ok {step : List Byte → List Byte → Except CipherError (List Byte × List Byte)}
    (hstep : ∀ cv B : List Byte, cv.length = 8 → B.length = 8 →
      ∃ o cv', step cv B = .ok (o, cv') ∧ o.length = 8 ∧ cv'.length = 8)
    (cv : List Byte) (Bs : List (List Byte)) (hcv : cv.length = 8) (hBs : ∀ B ∈ Bs, B.length = 8) :
    (runBlocks step cv Bs).error = none ∧ (runBlocks step cv Bs).cv.length = 8 ∧
      (runBlocks step cv Bs).out.length = 8 * Bs.length := by
  induction Bs generalizing cv with
  | nil => exact ⟨rfl, hcv, rfl⟩
  | cons B Bs ih =>
    obtain ⟨o, cv', h, ho, hc⟩ := hstep cv B hcv (hBs B (by simp))
    obtain ⟨h1, h2, h3⟩ := ih cv' hc (fun B hB => hBs B (by simp [hB]))
    simp only [runBlocks, h]
    refine ⟨h1, h2, ?_⟩
    simp [ho, h3]
    omega

@[simp] theorem startChaining_length (m : Mode) (s : State) : (startChaining m s).length = 8 := by
  cases m <;> simp [startChaining, chained]

/-- Deriving and storing the schedule always answers (R105). -/
theorem scheduleStage_ok (c : Cipher) (s : State) :
    ∃ K, deriveRoundKeys c (keyBits c s) = .ok K ∧ ScheduleShape c K ∧
      scheduleStage c s = .ok (K, storeSchedule c K s) := by
  obtain ⟨K, hK, hs⟩ := deriveRoundKeys_ok c (keyBits c s) (keyBits_length c s)
  exact ⟨K, hK, hs, by simp only [scheduleStage, hK]⟩

/-- The block loop of MENC on state `s` with schedule `K` (R138). -/
def encRun (c : Cipher) (m : Mode) (K : List BitSeq) (s : State) : BlockRun :=
  runBlocks (encStep s.cfg c K m) (startChaining m s) (blocksOf (paddedLength s / 8) (pad (message s)))

/-- The block loop of MDEC on state `s` with schedule `K` (R139). -/
def decRun (c : Cipher) (m : Mode) (K : List BitSeq) (s : State) : BlockRun :=
  runBlocks (decStep s.cfg c K m) (startChaining m s) (blocksOf (s.mlen.toNat / 8) (message s))

theorem encRun_ok (c : Cipher) (m : Mode) {K : List BitSeq} (hK : ScheduleShape c K) (s : State) :
    (encRun c m K s).error = none ∧ (encRun c m K s).cv.length = 8 ∧
      (encRun c m K s).out.length = paddedLength s := by
  have hmod := paddedLength_mod s
  have h := runBlocks_ok (fun cv B h1 h2 => encStep_ok s.cfg hK m h1 h2) (startChaining m s)
    (blocksOf (paddedLength s / 8) (pad (message s))) (by simp)
    (blocksOf_width (by simp [paddedLength]; omega))
  refine ⟨h.1, h.2.1, h.2.2.trans ?_⟩
  rw [blocksOf_length]
  omega

theorem decRun_ok (c : Cipher) (m : Mode) {K : List BitSeq} (hK : ScheduleShape c K) (s : State) :
    (decRun c m K s).error = none ∧ (decRun c m K s).cv.length = 8 ∧
      (decRun c m K s).out.length = 8 * (s.mlen.toNat / 8) := by
  have h := runBlocks_ok (fun cv B h1 h2 => decStep_ok s.cfg hK m h1 h2) (startChaining m s)
    (blocksOf (s.mlen.toNat / 8) (message s)) (by simp) (blocksOf_width (by simp; omega))
  exact ⟨h.1, h.2.1, h.2.2.trans (by rw [blocksOf_length])⟩

/-- Everything KEXP can do (R103, R104): the length error, or a stored schedule. -/
theorem expandKey_cases (c : Cipher) (s : State) :
    (s.klen.toNat ≠ keyBytes c ∧ expandKey c s = raise .invalidKeyLength false s) ∨
      (s.klen.toNat = keyBytes c ∧ ∃ K, deriveRoundKeys c (keyBits c s) = .ok K ∧ ScheduleShape c K ∧
        expandKey c s = succeed (storeSchedule c K s)) := by
  by_cases h : s.klen.toNat = keyBytes c
  · refine .inr ⟨h, ?_⟩
    obtain ⟨K, hK, hs, _⟩ := scheduleStage_ok c s
    exact ⟨K, hK, hs, by simp [expandKey, keyLengthBad_eq_false.2 h, hK]⟩
  · exact .inl ⟨h, by simp [expandKey, keyLengthBad, h]⟩

/-- Everything FRND can do (R113, R114): a result in `FO`. -/
theorem applyRound_cases (c : Cipher) (s : State) :
    ∃ f, roundFunction s.cfg c (halfBlockOperand s) (roundKeyOperand c s) = .ok f ∧ f.length = 32 ∧
      bitsToBytes f = .ok (packBytes 4 f) ∧ applyRound c s = succeed { s with fo := bufferOf 4 (packBytes 4 f) } := by
  obtain ⟨f, hf, hl⟩ := roundFunction_ok s.cfg c (halfBlockOperand s) (roundKeyOperand c s) (by simp) (by simp)
  have hb : bitsToBytes f = .ok (packBytes 4 f) := bitsToBytes_eq_ok hl
  have hr : roundFunctionBytes c s = .ok (packBytes 4 f) := by
    simp only [roundFunctionBytes, hf]
    exact hb
  exact ⟨f, hf, hl, hb, by simp only [applyRound, hr]⟩

/-- Everything BENC and BDEC can do (R128 to R131): the length error, or the block in place with its schedule. -/
theorem cryptBlock_cases (c : Cipher) (dir : Direction) (s : State) :
    (s.klen.toNat ≠ keyBytes c ∧ cryptBlock c dir s = raise .invalidKeyLength false s) ∨
      (s.klen.toNat = keyBytes c ∧ ∃ K o, deriveRoundKeys c (keyBits c s) = .ok K ∧ ScheduleShape c K ∧
        cryptBytes s.cfg c K dir s.blk.toList = .ok o ∧ o.length = 8 ∧
        cryptBlock c dir s = succeed { storeSchedule c K s with blk := bufferOf 8 o, dst := .idle }) := by
  by_cases h : s.klen.toNat = keyBytes c
  · refine .inr ⟨h, ?_⟩
    obtain ⟨K, hK, hs, _⟩ := scheduleStage_ok c s
    obtain ⟨o, ho, hl⟩ := cryptBytes_ok s.cfg hs dir (x := s.blk.toList) (by simp)
    refine ⟨K, o, hK, hs, ho, hl, ?_⟩
    simp [cryptBlock, keyLengthBad_eq_false.2 h, hK, transformBlock, ho]
  · exact .inl ⟨h, by simp [cryptBlock, keyLengthBad, h]⟩

/-- Everything MENC can do (R138): an error found in `Validate`, or the padded ciphertext. -/
theorem encryptMessage_cases (c : Cipher) (m : Mode) (s : State) :
    (∃ e, validateEnc c m s = some e ∧ encryptMessage c m s = raise e true s) ∨
      (validateEnc c m s = none ∧ ∃ K, deriveRoundKeys c (keyBits c s) = .ok K ∧ ScheduleShape c K ∧
        encryptMessage c m s = finishMessage (encRun c m K s).out
          (storeChaining m (encRun c m K s).cv (storeSchedule c K s))) := by
  cases hv : validateEnc c m s with
  | some e => exact .inl ⟨e, rfl, by simp only [encryptMessage, hv]⟩
  | none =>
    refine .inr ⟨rfl, ?_⟩
    obtain ⟨K, hK, hs, hst⟩ := scheduleStage_ok c s
    refine ⟨K, hK, hs, ?_⟩
    have he : (encRun c m K (storeSchedule c K s)).error = none := (encRun_ok c m hs _).1
    simp only [encryptMessage, hv, hst]
    show (match (encRun c m K (storeSchedule c K s)).error with | some e => _ | none => _) = _
    rw [he]
    rfl

/-- Everything MDEC can do (R139): an error found in `Validate`, invalid padding, or the message. -/
theorem decryptMessage_cases (c : Cipher) (m : Mode) (s : State) :
    (∃ e, validateDec c m s = some e ∧ decryptMessage c m s = raise e true s) ∨
      (validateDec c m s = none ∧ ∃ K, deriveRoundKeys c (keyBits c s) = .ok K ∧ ScheduleShape c K ∧
        ((∃ e, unpad (decRun c m K s).out = .error e ∧ decryptMessage c m s =
            raise e true (storeChaining m (decRun c m K s).cv (storeSchedule c K s))) ∨
          ∃ M, unpad (decRun c m K s).out = .ok M ∧ decryptMessage c m s =
            finishMessage M (storeChaining m (decRun c m K s).cv (storeSchedule c K s)))) := by
  cases hv : validateDec c m s with
  | some e => exact .inl ⟨e, rfl, by simp only [decryptMessage, hv]⟩
  | none =>
    refine .inr ⟨rfl, ?_⟩
    obtain ⟨K, hK, hs, hst⟩ := scheduleStage_ok c s
    refine ⟨K, hK, hs, ?_⟩
    have he : (decRun c m K (storeSchedule c K s)).error = none := (decRun_ok c m hs _).1
    have hd : decryptMessage c m s = match unpad (decRun c m K s).out with
        | .error e => raise e true (storeChaining m (decRun c m K s).cv (storeSchedule c K s))
        | .ok M => finishMessage M (storeChaining m (decRun c m K s).cv (storeSchedule c K s)) := by
      simp only [decryptMessage, hv, hst]
      show (match (decRun c m K (storeSchedule c K s)).error with | some e => _ | none => _) = _
      rw [he]
      rfl
    cases hu : unpad (decRun c m K s).out with
    | error e => exact .inl ⟨e, rfl, by rw [hd, hu]⟩
    | ok M => exact .inr ⟨M, rfl, by rw [hd, hu]⟩

/-- `unpad` fails with `InvalidPadding` only (R136). -/
theorem unpad_error {B : List Byte} {e : CipherError} (h : unpad B = .error e) : e = .invalidPadding := by
  unfold unpad at h
  repeat' split at h
  all_goals first
    | (injection h with h; exact h.symm)
    | cases h

/-- What `unpad` can answer (R136): the buffer without its last `p` bytes, all of them `p`, `1 <= p <= 8`. -/
theorem unpad_spec {B M : List Byte} (h : unpad B = .ok M) :
    1 ≤ lastByte B ∧ lastByte B ≤ 8 ∧ lastByte B ≤ B.length ∧ M = B.take (B.length - lastByte B) ∧
      ∀ x ∈ B.drop (B.length - lastByte B), x.toNat = lastByte B := by
  unfold unpad at h
  repeat' split at h
  all_goals cases h
  rename_i h1 h2 h3 h4
  refine ⟨by omega, by omega, by omega, rfl, ?_⟩
  intro x hx
  by_contra hne
  exact h4 (List.any_eq_true.2 ⟨x, hx, by simpa using hne⟩)

end Sys2Proof.Machine
end

