-- ==== Sys2Proof/Laws/PerInstr.lean ====
section
/-! SUPPORT. A statement for every command, one lemma per constructor: its byte is one of the legal ones (R59, R60), and
carries the fields of the command. -/

namespace Sys2Proof.Laws.ByteLegal

/-- The command's byte has bit 7 clear and legal fields, and its fields are those of R55 to R58. -/
abbrev Statement (i : Instr) : Prop :=
  i.wellFormed = true ∧ (encode i).toNat < 128 ∧ splitCommand (encode i) = encodeFields i

theorem nop : Statement .nop := by decide
theorem clr : Statement .clr := by decide
theorem kexpDes : Statement .kexpDes := by decide
theorem frndDes : Statement .frndDes := by decide
theorem bencDes : Statement .bencDes := by decide
theorem bdecDes : Statement .bdecDes := by decide
theorem mencDesEcb : Statement .mencDesEcb := by decide
theorem mdecDesEcb : Statement .mdecDesEcb := by decide
theorem kexpGost : Statement .kexpGost := by decide
theorem frndGost : Statement .frndGost := by decide
theorem bencGost : Statement .bencGost := by decide
theorem bdecGost : Statement .bdecGost := by decide
theorem mencGostEcb : Statement .mencGostEcb := by decide
theorem mdecGostEcb : Statement .mdecGostEcb := by decide
theorem mencDesCbc : Statement .mencDesCbc := by decide
theorem mdecDesCbc : Statement .mdecDesCbc := by decide
theorem mencGostCbc : Statement .mencGostCbc := by decide
theorem mdecGostCbc : Statement .mdecGostCbc := by decide
theorem mencDesCfb : Statement .mencDesCfb := by decide
theorem mdecDesCfb : Statement .mdecDesCfb := by decide
theorem mencGostCfb : Statement .mencGostCfb := by decide
theorem mdecGostCfb : Statement .mdecGostCfb := by decide
theorem mencDesOfb : Statement .mencDesOfb := by decide
theorem mdecDesOfb : Statement .mdecDesOfb := by decide
theorem mencGostOfb : Statement .mencGostOfb := by decide
theorem mdecGostOfb : Statement .mdecGostOfb := by decide

end Sys2Proof.Laws.ByteLegal
end

