-- ==== Sys2Proof/Tests/Slice0.lean ====
section
/-! SUPPORT. The tests: expected values are those of 30_encoding.md section 2 and 95_test_vectors.md (V1 to V62) or are
counted by hand from the rule named; then, for each statement of Certificates/Slice0/Obligations.lean that has hypotheses, a
theorem `witness_..` with values that meet them. -/

namespace Sys2Proof.Tests

-- One kernel evaluation at a time: several at once need more memory than the check allows.
set_option Elab.async false

open Sys2Proof.Machine

/-- A number as `n` bytes, first byte first. -/
def bytes (n v : Nat) : List Byte := (List.range n).map fun i => BitVec.ofNat 8 (v >>> (8 * (n - 1 - i)))

/-- The key of V1. -/
def keyV1 : List Byte := bytes 8 0x133457799BBCDFF1

/-- The key of V14. -/
def keyV14 : List Byte := bytes 32 0xFFEEDDCCBBAA99887766554433221100F0F1F2F3F4F5F6F7F8F9FAFBFCFDFEFF

/-- The IV of V52. -/
def ivV52 : List Byte := bytes 8 0x1234567890ABCDEF

/-- The reset state with a key, the IV of V52 and a message loaded. -/
def loaded (key M : List Byte) : State :=
  { State.reset with
    key := bufferOf 32 key
    klen := BitVec.ofNat 8 key.length
    iv := bufferOf 8 ivV52
    ivlen := 8
    msg := ((List.range M.length).zip M).foldl (fun m x => m.write x.1 x.2) []
    mlen := BitVec.ofNat 16 M.length }

/-- The state a step ends in. -/
def after : Host.Outcome State Fault Refusal → Option State
  | .next t => some t
  | _ => none

/-- The successor state under a command, seen through `f`. -/
def seen {α : Type} (f : State → α) (i : Instr) (s : State) : Option α := (after (exec i s)).map f

/-- What the vectors show of a message command: `OUT`, `CV`, `STATUS`, `ERR`. -/
def messageView (s : State) : List Byte × List Byte × Byte × Byte := (s.out, s.cv.toList, s.status, s.err)

/-! ### Well-formedness: an ill-formed term for each check -/

theorem test_reserved_bit_refused : CommandFields.legal { rsv := 1, mode := 0, cipher := 0, op := 6 } = false := by decide
theorem test_reserved_op_refused : CommandFields.legal { rsv := 0, mode := 0, cipher := 0, op := 8 } = false := by decide
theorem test_system_cipher_refused : CommandFields.legal { rsv := 0, mode := 0, cipher := 1, op := 1 } = false := by decide
theorem test_system_mode_refused : CommandFields.legal { rsv := 0, mode := 1, cipher := 0, op := 0 } = false := by decide
theorem test_mode_field_refused : CommandFields.legal { rsv := 0, mode := 2, cipher := 1, op := 5 } = false := by decide
theorem test_fields_accepted : CommandFields.legal { rsv := 0, mode := 2, cipher := 1, op := 7 } = true := by decide
theorem test_config_not_multiple_refused : Config.legal { defaultConfig with bufMax := 4097 } = false := by decide
theorem test_config_too_small_refused : Config.legal { defaultConfig with bufMax := 80 } = false := by decide
theorem test_config_too_large_refused : Config.legal { defaultConfig with bufMax := 65536 } = false := by decide

/-! ### Decoding: every byte of the opcode map (30_encoding.md section 2), bit by bit `RSV MODE CIPHER OP` -/

theorem test_decode_nop : decode 0b00000000 = .ok .nop := by decide
theorem test_decode_clr : decode 0b00000001 = .ok .clr := by decide
theorem test_decode_kexp_des : decode 0b00000010 = .ok .kexpDes := by decide
theorem test_decode_frnd_des : decode 0b00000011 = .ok .frndDes := by decide
theorem test_decode_benc_des : decode 0b00000100 = .ok .bencDes := by decide
theorem test_decode_bdec_des : decode 0b00000101 = .ok .bdecDes := by decide
theorem test_decode_menc_des_ecb : decode 0b00000110 = .ok .mencDesEcb := by decide
theorem test_decode_mdec_des_ecb : decode 0b00000111 = .ok .mdecDesEcb := by decide
theorem test_decode_kexp_gost : decode 0b00010010 = .ok .kexpGost := by decide
theorem test_decode_frnd_gost : decode 0b00010011 = .ok .frndGost := by decide
theorem test_decode_benc_gost : decode 0b00010100 = .ok .bencGost := by decide
theorem test_decode_bdec_gost : decode 0b00010101 = .ok .bdecGost := by decide
theorem test_decode_menc_gost_ecb : decode 0b00010110 = .ok .mencGostEcb := by decide
theorem test_decode_mdec_gost_ecb : decode 0b00010111 = .ok .mdecGostEcb := by decide
theorem test_decode_menc_des_cbc : decode 0b00100110 = .ok .mencDesCbc := by decide
theorem test_decode_mdec_des_cbc : decode 0b00100111 = .ok .mdecDesCbc := by decide
theorem test_decode_menc_gost_cbc : decode 0b00110110 = .ok .mencGostCbc := by decide
theorem test_decode_mdec_gost_cbc : decode 0b00110111 = .ok .mdecGostCbc := by decide
theorem test_decode_menc_des_cfb : decode 0b01000110 = .ok .mencDesCfb := by decide
theorem test_decode_mdec_des_cfb : decode 0b01000111 = .ok .mdecDesCfb := by decide
theorem test_decode_menc_gost_cfb : decode 0b01010110 = .ok .mencGostCfb := by decide
theorem test_decode_mdec_gost_cfb : decode 0b01010111 = .ok .mdecGostCfb := by decide
theorem test_decode_menc_des_ofb : decode 0b01100110 = .ok .mencDesOfb := by decide
theorem test_decode_mdec_des_ofb : decode 0b01100111 = .ok .mdecDesOfb := by decide
theorem test_decode_menc_gost_ofb : decode 0b01110110 = .ok .mencGostOfb := by decide
theorem test_decode_mdec_gost_ofb : decode 0b01110111 = .ok .mdecGostOfb := by decide

theorem test_encode_menc_gost_cfb : encode .mencGostCfb = 0x56 := by decide

/-- The illegal bytes of V60 and R59, each with its case. -/
theorem test_decode_illegal :
    decode 0x80 = .error .reservedBit ∧ decode 0xA7 = .error .reservedBit ∧ decode 0x08 = .error .reservedOp ∧
      decode 0x7F = .error .reservedOp ∧ decode 0x10 = .error .systemFields ∧ decode 0x21 = .error .systemFields ∧
      decode 0x22 = .error .modeField ∧ decode 0x75 = .error .modeField := by decide

theorem test_table_word : decodeTableWord 8 0x56 = some .mencGostCfb ∧ decodeTableWord 8 0x88 = none := by decide

/-! ### The bit utilities (V3 to V6) -/

theorem test_bytes_to_bits : bytesToBits [0x01, 0x80] = bitsN 16 0b0000000110000000 := by decide
theorem test_bits_to_bytes : bitsToBytes (bitsN 16 0b1000010111101000) = .ok [0x85, 0xE8] := by decide
theorem test_bits_to_bytes_seven_bits : bitsToBytes (bitsN 7 0b1010101) = .error .invalidLength := by decide
theorem test_permute : permute (bitsN 8 0b10110010) [8, 7, 6, 5, 4, 3, 2, 1] = .ok (bitsN 8 0b01001101) := by decide
theorem test_permute_range :
    permute (bitsN 8 0b10110010) [9] = .error .indexOutOfRange ∧ permute (bitsN 8 0b10110010) [0] = .error .indexOutOfRange := by
  decide
theorem test_rotate_left : rotateLeft (bitsN 32 0x319AC0D0) 11 = bitsN 32 0xD606818C := by decide +kernel
theorem test_rotate_right : rotateRight (bitsN 8 0b10110010) 3 = bitsN 8 0b01010110 := by decide
theorem test_xor : xorBits (bitsN 32 0xCC00CCFF) (bitsN 32 0x234AA9BB) = bitsN 32 0xEF4A6544 := by decide +kernel
theorem test_add32 : add32 (bitsN 32 0xFEDCBA98) (bitsN 32 0x87654321) = bitsN 32 0x8641FDB9 := by decide +kernel
theorem test_uint : uint (bitsN 6 0b011011) = 27 := by decide

/-! ### One step of each command -/

theorem test_nop : seen (fun t => decide (t = loaded keyV1 [])) .nop (loaded keyV1 []) = some true := by decide +kernel

theorem test_clr : after (exec .clr (loaded keyV14 [0x5A])) = some State.reset := by decide +kernel

/-- V10: `K[1]`, `K[16]`, `RK[17]`. -/
theorem test_kexp_des :
    seen (fun t => (t.rk[0], t.rk[15], t.rk[16], t.status)) .kexpDes (loaded keyV1 []) =
      some (0x1B02EFFC7072, 0xCB3D8B0E17F5, 0, 0x05) := by decide +kernel

/-- V58: a 7-byte key. -/
theorem test_kexp_des_bad_length :
    seen (fun t => (t.rk[0], t.status, t.err)) .kexpDes { loaded keyV1 [] with klen := 7 } = some (0, 0x02, 1) := by
  decide +kernel

/-- V14: `RK[1]`, `RK[9]`, `RK[25]`, `RK[32]`. -/
theorem test_kexp_gost :
    seen (fun t => (t.rk[0], t.rk[8], t.rk[24], t.rk[31], t.status)) .kexpGost (loaded keyV14 []) =
      some (0xFFEEDDCC0000, 0xFFEEDDCC0000, 0xFCFDFEFF0000, 0xFFEEDDCC0000, 0x0D) := by decide +kernel

/-- V20. -/
theorem test_frnd_des :
    seen (fun t => (t.fo.toList, t.status)) .frndDes
      { State.reset with hb := bufferOf 4 (bytes 4 0xF0AAF0AA), rkop := bufferOf 6 (bytes 6 0x1B02EFFC7072) } =
      some (bytes 4 0x234AA9BB, 0x01) := by decide +kernel

/-- V22. -/
theorem test_frnd_gost :
    seen (fun t => (t.fo.toList, t.status)) .frndGost
      { State.reset with hb := bufferOf 4 (bytes 4 0x76543210), rkop := bufferOf 6 (bytes 4 0xFFEEDDCC) } =
      some (bytes 4 0xD606818C, 0x01) := by decide +kernel

/-- V1. -/
theorem test_benc_des :
    seen (fun t => (t.blk.toList, t.status, t.err)) .bencDes
      { loaded keyV1 [] with blk := bufferOf 8 (bytes 8 0x0123456789ABCDEF) } =
      some (bytes 8 0x85E813540F0AB405, 0x05, 0) := by decide +kernel

/-- V40. -/
theorem test_benc_gost :
    seen (fun t => (t.blk.toList, t.status)) .bencGost
      { loaded keyV14 [] with blk := bufferOf 8 (bytes 8 0xFEDCBA9876543210) } =
      some (bytes 8 0x4EE901E5C2D8CA3D, 0x0D) := by decide +kernel

/-- V41. -/
theorem test_bdec_gost :
    seen (fun t => (t.blk.toList, t.status)) .bdecGost
      { loaded keyV14 [] with blk := bufferOf 8 (bytes 8 0x4EE901E5C2D8CA3D) } =
      some (bytes 8 0xFEDCBA9876543210, 0x0D) := by decide +kernel

/-- BENC and BDEC run their own cipher and direction (R128 to R131). -/
theorem test_block_arms (s : State) :
    exec .bencDes s = .next (cryptBlock .des .enc s) ∧ exec .bdecDes s = .next (cryptBlock .des .dec s) ∧
      exec .bencGost s = .next (cryptBlock .gost .enc s) ∧ exec .bdecGost s = .next (cryptBlock .gost .dec s) :=
  ⟨rfl, rfl, rfl, rfl⟩

/-- Each arm runs its own cipher and mode (R138, R148 to R151). -/
theorem test_menc_arms (s : State) :
      exec .mencDesEcb s = .next (encryptMessage .des .ecb s) ∧
      exec .mencDesCbc s = .next (encryptMessage .des .cbc s) ∧
      exec .mencDesCfb s = .next (encryptMessage .des .cfb s) ∧
      exec .mencDesOfb s = .next (encryptMessage .des .ofb s) ∧
      exec .mencGostEcb s = .next (encryptMessage .gost .ecb s) ∧
      exec .mencGostCbc s = .next (encryptMessage .gost .cbc s) ∧
      exec .mencGostCfb s = .next (encryptMessage .gost .cfb s) ∧
      exec .mencGostOfb s = .next (encryptMessage .gost .ofb s) :=
  ⟨rfl, rfl, rfl, rfl, rfl, rfl, rfl, rfl⟩

/-- Each arm runs its own cipher and mode (R139, R152 to R155). -/
theorem test_mdec_arms (s : State) :
      exec .mdecDesEcb s = .next (decryptMessage .des .ecb s) ∧
      exec .mdecDesCbc s = .next (decryptMessage .des .cbc s) ∧
      exec .mdecDesCfb s = .next (decryptMessage .des .cfb s) ∧
      exec .mdecDesOfb s = .next (decryptMessage .des .ofb s) ∧
      exec .mdecGostEcb s = .next (decryptMessage .gost .ecb s) ∧
      exec .mdecGostCbc s = .next (decryptMessage .gost .cbc s) ∧
      exec .mdecGostCfb s = .next (decryptMessage .gost .cfb s) ∧
      exec .mdecGostOfb s = .next (decryptMessage .gost .ofb s) :=
  ⟨rfl, rfl, rfl, rfl, rfl, rfl, rfl, rfl⟩

/-- V56. -/
theorem test_menc_gost_ecb :
    seen messageView .mencGostEcb (loaded keyV14 (bytes 5 0x48656C6C6F)) =
      some (bytes 8 0x7AC1BD1701E20494, bytes 8 0x0000000000000000, 0x0D, 0) := by decide +kernel

/-- V56. -/
theorem test_menc_gost_cbc :
    seen messageView .mencGostCbc (loaded keyV14 (bytes 5 0x48656C6C6F)) =
      some (bytes 8 0x8FCA81C231560B9F, bytes 8 0x8FCA81C231560B9F, 0x0D, 0) := by decide +kernel

/-- V56. -/
theorem test_menc_gost_cfb :
    seen messageView .mencGostCfb (loaded keyV14 (bytes 5 0x48656C6C6F)) =
      some (bytes 8 0x018C7CE5358035D9, bytes 8 0x018C7CE5358035D9, 0x0D, 0) := by decide +kernel

/-- V56. -/
theorem test_menc_gost_ofb :
    seen messageView .mencGostOfb (loaded keyV14 (bytes 5 0x48656C6C6F)) =
      some (bytes 8 0x018C7CE5358035D9, bytes 8 0x49E910895A8336DA, 0x0D, 0) := by decide +kernel

/-- V57, the ciphertext of V56 ECB. -/
theorem test_mdec_gost_ecb :
    seen messageView .mdecGostEcb (loaded keyV14 (bytes 8 0x7AC1BD1701E20494)) =
      some (bytes 5 0x48656C6C6F, bytes 8 0x0000000000000000, 0x0D, 0) := by decide +kernel

/-- V57, the ciphertext of V56 CBC. -/
theorem test_mdec_gost_cbc :
    seen messageView .mdecGostCbc (loaded keyV14 (bytes 8 0x8FCA81C231560B9F)) =
      some (bytes 5 0x48656C6C6F, bytes 8 0x8FCA81C231560B9F, 0x0D, 0) := by decide +kernel

/-- V57, the ciphertext of V56 CFB. -/
theorem test_mdec_gost_cfb :
    seen messageView .mdecGostCfb (loaded keyV14 (bytes 8 0x018C7CE5358035D9)) =
      some (bytes 5 0x48656C6C6F, bytes 8 0x018C7CE5358035D9, 0x0D, 0) := by decide +kernel

/-- V57, the ciphertext of V56 OFB. -/
theorem test_mdec_gost_ofb :
    seen messageView .mdecGostOfb (loaded keyV14 (bytes 8 0x018C7CE5358035D9)) =
      some (bytes 5 0x48656C6C6F, bytes 8 0x49E910895A8336DA, 0x0D, 0) := by decide +kernel

/-- V58: `MLEN = 0` decrypts nothing and has no padding. -/
theorem test_mdec_empty :
    seen messageView .mdecDesCbc (loaded keyV1 []) = some ([], ivV52, 0x06, 5) := by decide +kernel

/-! ### The host port (V60 to V62) -/

/-- V60: an illegal byte written to `CMD`. -/
theorem test_illegal_command :
    (after (step { loaded keyV1 [0x41] with pending := [.write 0 0x0F] })).map (fun t => (t.err, t.status, t.mlen)) =
      some (6, 0x02, 1) := by decide +kernel

/-- R45, R61: the byte placed by `withFetchWord` runs first. -/
theorem test_with_fetch_word :
    (after (step (State.reset.withFetchWord 8 0x13))).map (fun t => (t.fo.toList, t.pending)) =
      some (bytes 4 0xBE5B60C2, []) := by decide +kernel

/-- R35: an address is taken modulo 2^18. -/
theorem test_write_klen :
    (after (step { State.reset with pending := [.write 0x40003 7] })).map (fun t => (t.klen, hostRead t 3)) =
      some (7, 7) := by decide +kernel

/-- R41: the high byte of `MLEN` is at the lower address. -/
theorem test_write_mlen_high :
    (after (step { State.reset with mlen := 5, pending := [.write 5 0x12] })).map (fun t => t.mlen) = some 0x1205 := by
  decide +kernel

/-- V61: a write past `BUF_MAX` is ignored. -/
theorem test_write_past_buffer :
    after (step { State.reset with pending := [.write 0x11000 0xAA] }) = some State.reset := by decide +kernel

/-- R49: the bytes of `RK[1]` of V14 and the two zero bytes after them. -/
theorem test_rk_window :
    (after (exec .kexpGost (loaded keyV14 []))).map (fun t => (List.range 8).map fun k => hostRead t (0x100 + k)) =
      some [0xFF, 0xEE, 0xDD, 0xCC, 0, 0, 0, 0] := by decide +kernel

/-- R37: a read returns the byte. -/
theorem test_host_read :
    (after (step { loaded keyV1 [0x41] with pending := [.read 0x10000] })).map (fun t => t.returned) = some [0x41] := by
  decide +kernel

/-- R196, R3: the hardware reset keeps the parameters. -/
theorem test_reset_event :
    (after (step { loaded keyV1 [0x41] with pending := [.reset] })) = some State.reset := by decide +kernel

/-- R62: the lower-case mnemonics assemble to the command bytes. -/
theorem test_assemble :
    (assemble "menc.gost.cfb").map encode = some 0x56 ∧ (assemble "bdec.des").map encode = some 0x05 := by decide

/-- V30, V31: the driver's state machine after `Initial` and `Round(1)`. -/
theorem test_driver :
    (match deriveDes (bytesToBits keyV1) with
      | .ok K => (driverSteps defaultConfig .des K .enc 2 (driverStart (bitsN 64 0x0123456789ABCDEF))).toOption.map
          fun d => (uint d.l, uint d.r, d.rnd)
      | .error _ => none) = some (0xF0AAF0AA, 0xEF4A6544, 2) := by decide +kernel

/-! ### Values that meet the hypotheses of each statement -/

/-- A state with one event waiting. -/
def waiting (e : HostEvent) : State := { loaded keyV1 [0x41] with pending := [e, .read 1] }

/-- A state with a key of a cipher, chosen lengths, and the message buffer empty. -/
def sized (c : Cipher) (klen ivlen : Byte) (mlen : BitVec 16) : State :=
  { State.reset with key := bufferOf 32 (match c with | .des => keyV1 | .gost => keyV14), klen := klen, ivlen := ivlen, mlen := mlen }

/-- The key lengths of the two ciphers as `KLEN` holds them. -/
def klenOf : Cipher → Byte
  | .des => 8
  | .gost => 32

theorem witness_DecodeEncodeAgree : decode 0x77 = .ok .mdecGostOfb ∧ decode 0x00 = .ok .nop := by decide

theorem witness_IllegalBytesAreThoseListed :
    decode 0x88 = .error .reservedBit ∧ decode 0x08 = .error .reservedOp ∧ decode 0x11 = .error .systemFields ∧
      decode 0x62 = .error .modeField := by decide

theorem witness_StepRunsTheDecodedCommand :
    (waiting (.write 0x40000 0x77)).pending = [.write 0x40000 0x77, .read 1] ∧ 0x40000 % 2 ^ 18 = 0 ∧
      (waiting (.write 0 0x0F)).pending = [.write 0 0x0F, .read 1] ∧ 0 % 2 ^ 18 = 0 ∧
      decode 0x77 = .ok .mdecGostOfb ∧ decode 0x0F = .error .reservedOp := by decide +kernel

theorem witness_EventsOtherThanWritesChangeOnlyWhatTheySay :
    State.reset.pending = [] ∧ (waiting (.read 0x10000)).pending = [.read 0x10000, .read 1] ∧
      (waiting .reset).pending = [.reset, .read 1] := by decide +kernel

/-- The first and the last address of each clause, and a state with output. -/
theorem witness_HostReadFollowsTheMap :
    ({ State.reset with out := [0x5A] } : State).out.length < 2 ^ 16 ∧ 0xFFFF < 0x10000 ∧ 4095 < State.reset.cfg.bufMax ∧
      0 < 8 ∧ 7 < 8 ∧
      ∀ a ∈ [0x9, 0xF, 0x56, 0xFF, 0x200, 0xFFFF, 0x30000, 0x3FFFF],
        (0x9 ≤ a ∧ a ≤ 0xF) ∨ (0x56 ≤ a ∧ a ≤ 0xFF) ∨ (0x200 ≤ a ∧ a ≤ 0xFFFF) ∨ (0x30000 ≤ a ∧ a ≤ 0x3FFFF) := by decide

/-- Byte 5 is the last byte of an entry, byte 6 the first zero one; V14 has the GOST-like tail from byte 4. -/
theorem witness_RoundKeyWindowShowsTheFile :
    (5 < 8 ∧ 5 < 6) ∧ (6 < 8 ∧ 6 ≤ 6) ∧
      (4 < 8 ∧ seen (fun t => (t.rk[31]).extractLsb' 0 16) .kexpGost (loaded keyV14 []) = some 0 ∧ 4 ≤ 4) := by
  decide +kernel

theorem witness_HostWriteStoresOneByte :
    Memory.wf (waiting (.write 0x10FFF 0xAA)).msg = true ∧
      (waiting (.write 0x10FFF 0xAA)).pending = [.write 0x10FFF 0xAA, .read 1] ∧
      ∀ a ∈ [0x3, 0x6, 0x10, 0x17, 0x20, 0x4B, 0x50, 0x55, 0x10000, 0x10FFF, 0x40003],
        hostWritable (waiting (.write 0x10FFF 0xAA)) a := by
  unfold hostWritable; decide +kernel

theorem witness_HostWriteElsewhereIsIgnored :
    (waiting (.write 0x1 0xAA)).pending = [.write 0x1 0xAA, .read 1] ∧
      ∀ a ∈ [0x1, 0x2, 0x7, 0xF, 0x18, 0x1F, 0x4C, 0x4F, 0x56, 0xFFFF, 0x11000, 0x1FFFF, 0x20000, 0x3FFFF],
        a % 2 ^ 18 ≠ 0 ∧ ¬hostWritable (waiting (.write 0x1 0xAA)) a := by
  unfold hostWritable; decide +kernel

theorem witness_KeyLineLoadsTheKey :
    keyV1.length ≤ 255 ∧ (List.replicate 255 (0x5A : Byte)).length ≤ 255 ∧
      (withScript State.reset (keyLine keyV1 ++ [.read 3])).pending = keyLine keyV1 ++ [.read 3] := by
  decide +kernel

theorem witness_MsgLineLoadsTheMessage :
    (loaded keyV1 [0x41]).cfg.legal = true ∧ Memory.wf (loaded keyV1 [0x41]).msg = true ∧
      keyV1.length ≤ (loaded keyV1 [0x41]).cfg.bufMax ∧
      (withScript (loaded keyV1 [0x41]) (msgLine keyV1 ++ [.read 3])).pending = msgLine keyV1 ++ [.read 3] := by
  decide +kernel

theorem witness_NopChangesNothing : (0x10 : Byte).toNat % 16 = 0 ∧ (0x10 : Byte) ≠ 0 ∧ (0xF0 : Byte).toNat % 16 = 0 := by
  decide

theorem witness_ClrGivesTheResetState : (0x11 : Byte).toNat % 16 = 1 ∧ (0x11 : Byte) ≠ 1 := by decide

theorem witness_BytesToBitsPlacesEveryBit :
    (0 < [(0xA5 : Byte), 0x01].length ∧ 1 ≤ 1 ∧ 1 ≤ 8) ∧ (1 < [(0xA5 : Byte), 0x01].length ∧ 1 ≤ 8 ∧ 8 ≤ 8) := by decide

theorem witness_PackAndUnpackAreInverse :
    (bitsN 16 0x85E8).length % 8 = 0 ∧ 1 < 2 ∧ ([] : BitSeq).length % 8 = 0 ∧ (bitsN 7 85).length % 8 ≠ 0 := by decide

theorem witness_RotationsMoveEveryPosition :
    (1 ≤ 1 ∧ 1 ≤ (bitsN 8 0xB2).length) ∧ (1 ≤ 8 ∧ 8 ≤ (bitsN 8 0xB2).length) ∧ bitsN 8 0xB2 ≠ [] := by decide

theorem witness_XorLaws : (bitsN 8 1).length = (bitsN 8 2).length ∧ ([1, 2] : List Byte).length = ([3, 4] : List Byte).length := by
  decide

theorem witness_UintAndBitsAreInverse : 0 < 2 ^ 0 ∧ 15 < 2 ^ 4 ∧ 1 ≤ 4 ∧ 4 ≤ 4 := by decide

theorem witness_AddThirtyTwoWraps : (bitsN 32 0xFFFFFFFF).length = 32 ∧ (bitsN 32 1).length = 32 := by decide

theorem witness_PermutationsOfTheDriverAreInverse : (bitsN 64 0x0123456789ABCDEF).length = 64 ∧ 0 < 64 ∧ 63 < 64 := by decide

theorem witness_DesRoundKeysAreRotatedSelections :
    (bytesToBits keyV1).length = 64 ∧ (bytesToBits (keyV1.take 7)).length ≠ 64 ∧ (1 ≤ 16 ∧ 16 ≤ 16) := by decide

theorem witness_GostRoundKeysAreSubKeys :
    (bytesToBits keyV14).length = 256 ∧ (bytesToBits keyV1).length ≠ 256 ∧ 31 < 32 := by decide +kernel

/-- The two keys of V12. -/
theorem witness_DesParityBitsInfluenceNothing :
    (bytesToBits keyV1).length = 64 ∧ (bytesToBits (bytes 8 0x123456789ABCDEF0)).length = 64 ∧
      ∀ p ∈ List.range' 1 64, p % 8 ≠ 0 →
        (bytesToBits keyV1).getD (p - 1) false = (bytesToBits (bytes 8 0x123456789ABCDEF0)).getD (p - 1) false := by
  decide +kernel

/-- Keys that differ in bit 1, and in bit 256. -/
theorem witness_KeyBitsChangeTheSchedule :
    ((bitsN 64 0).length = 64 ∧ (bitsN 64 (2 ^ 63)).length = 64 ∧ 1 ≤ 1 ∧ 1 ≤ 64 ∧ 1 % 8 ≠ 0 ∧
        (bitsN 64 0).getD (1 - 1) false ≠ (bitsN 64 (2 ^ 63)).getD (1 - 1) false) ∧
      (bitsN 256 0).length = 256 ∧ (bitsN 256 1).length = 256 ∧ bitsN 256 0 ≠ bitsN 256 1 := by decide +kernel

theorem witness_KexpDesStoresTheSchedule : (loaded keyV1 []).klen = 8 ∧ ∀ n ∈ [(0 : Byte), 7, 9, 255], n ≠ 8 := by
  decide +kernel

theorem witness_KexpGostStoresTheSchedule : (loaded keyV14 []).klen = 32 ∧ ∀ n ∈ [(0 : Byte), 31, 33, 255], n ≠ 32 := by
  decide +kernel

theorem witness_RoundFunctionKeepsTheWidth :
    ((bitsN 32 5).length = 32 ∧ (bitsN 48 7).length = rkBits .des) ∧ ((bitsN 32 5).length = 32 ∧ (bitsN 32 7).length = rkBits .gost) ∧
      ¬((bitsN 32 5).length = 32 ∧ (bitsN 32 7).length = rkBits .des) := by decide

/-- The operands of V20 and of V22, and the first and last position of the result. -/
theorem witness_RoundFunctionsBitByBit :
    ((bitsN 32 0xF0AAF0AA).length = 32 ∧ (bitsN 48 0x1B02EFFC7072).length = 48 ∧ 0 < 32 ∧ 31 < 32) ∧
      (bitsN 32 0x76543210).length = 32 ∧ (bitsN 32 0xFFEEDDCC).length = 32 := by decide

/-- The schedules of all-zero keys (V12, V14), and the first and last round. -/
theorem witness_schedules :
    ScheduleShape .des (List.replicate 16 (bitsN 48 0)) ∧ ScheduleShape .gost (List.replicate 32 (bitsN 32 0)) := by
  unfold ScheduleShape; decide +kernel

theorem witness_SingleBlockIsInvertible :
    ScheduleShape .des (List.replicate 16 (bitsN 48 0)) ∧ (bitsN 64 0x0123456789ABCDEF).length = 64 :=
  ⟨witness_schedules.1, by decide⟩

theorem witness_DriverMachineComputesTheSingleBlockFunction :
    ScheduleShape .gost (List.replicate 32 (bitsN 32 0)) ∧ (bitsN 64 0x0123456789ABCDEF).length = 64 ∧ 1 ≤ 1 ∧
      1 ≤ rounds .gost ∧ 1 ≤ rounds .gost ∧ rounds .gost ≤ rounds .gost :=
  ⟨witness_schedules.2, by decide⟩

theorem witness_BencTransformsTheBlockInPlace :
    (loaded keyV1 []).klen.toNat = keyBytes .des ∧ (loaded keyV14 []).klen.toNat = keyBytes .gost ∧
      (loaded keyV1 []).klen.toNat ≠ keyBytes .gost ∧ (loaded keyV14 []).klen.toNat ≠ keyBytes .des := by decide +kernel

theorem witness_BdecTransformsTheBlockInPlace :
    ({ loaded keyV1 [] with blk := bufferOf 8 keyV1 } : State).klen.toNat = keyBytes .des ∧
      ({ loaded keyV14 [] with blk := bufferOf 8 keyV1 } : State).klen.toNat = keyBytes .gost ∧
      ∀ n ∈ [(0 : Byte), 7, 9, 31, 33, 255], n.toNat ≠ keyBytes .des ∧ n.toNat ≠ keyBytes .gost := by decide +kernel

theorem witness_UnpadRemovesExactlyValidPadding :
    PaddedFrom [0x41, 0x01] [0x41] ∧ PaddedFrom (List.replicate 8 8) [] ∧ ¬∃ M, PaddedFrom [] M := by
  refine ⟨⟨1, by decide⟩, ⟨8, by decide⟩, ?_⟩
  rintro ⟨M, p, h1, -, h⟩
  have := congrArg List.length h
  simp at this
  omega

/-- `MLEN` 0 and 4088, 4095 (both padded to 4096 = `BUF_MAX`) pass in every mode; ECB passes with `IVLEN` 0. -/
theorem witness_menc_ready (c : Cipher) :
    (∀ m, MencReady c m (sized c (klenOf c) 8 0)) ∧ (∀ m, MencReady c m (sized c (klenOf c) 8 4088)) ∧
      (∀ m, MencReady c m (sized c (klenOf c) 8 4095)) ∧ MencReady c .ecb (sized c (klenOf c) 0 4095) := by
  unfold MencReady
  cases c <;> refine ⟨fun m => ?_, fun m => ?_, fun m => ?_, ?_⟩ <;> first | decide +kernel | (cases m <;> decide +kernel)

theorem witness_MencEcbEncryptsThePaddedMessage : MencReady .gost .ecb (sized .gost 32 0 4095) :=
  (witness_menc_ready .gost).2.2.2

theorem witness_MencCbcEncryptsThePaddedMessage : MencReady .des .cbc (sized .des 8 8 4088) := (witness_menc_ready .des).2.1 _

theorem witness_MencCfbEncryptsThePaddedMessage : MencReady .gost .cfb (sized .gost 32 8 0) := (witness_menc_ready .gost).1 _

theorem witness_MencOfbEncryptsThePaddedMessage : MencReady .des .ofb (sized .des 8 8 4095) :=
  (witness_menc_ready .des).2.2.1 _

/-- `MLEN` 0, 8 and 4096 pass in every mode; ECB passes with `IVLEN` 0. -/
theorem witness_mdec_ready (c : Cipher) :
    (∀ m, MdecReady c m (sized c (klenOf c) 8 0)) ∧ (∀ m, MdecReady c m (sized c (klenOf c) 8 8)) ∧
      (∀ m, MdecReady c m (sized c (klenOf c) 8 4096)) ∧ MdecReady c .ecb (sized c (klenOf c) 0 4096) := by
  unfold MdecReady
  cases c <;> refine ⟨fun m => ?_, fun m => ?_, fun m => ?_, ?_⟩ <;> first | decide +kernel | (cases m <;> decide +kernel)

/-- The validation of MDEC passes on the ciphertexts of V53 and V56, whose decryption is validly padded
(`test_mdec_gost_ecb`), and on the empty message, which has no padding (`test_mdec_empty`). -/
theorem witness_mdec_both_endings :
    MdecReady .des .cfb (loaded keyV1 (bytes 8 0x41FCD3FE8475B90D)) ∧
      MdecReady .gost .ecb (loaded keyV14 (bytes 8 0x7AC1BD1701E20494)) ∧
      PaddedFrom (bytes 8 0x48656C6C6F030303) (bytes 5 0x48656C6C6F) ∧ MdecReady .des .cbc (loaded keyV1 []) := by
  refine ⟨?_, ?_, ⟨3, by decide⟩, ?_⟩ <;> unfold MdecReady <;> decide +kernel

theorem witness_MdecEcbDecryptsAndUnpads : MdecReady .gost .ecb (sized .gost 32 0 4096) := (witness_mdec_ready .gost).2.2.2

theorem witness_MdecCbcDecryptsAndUnpads : MdecReady .des .cbc (sized .des 8 8 0) := (witness_mdec_ready .des).1 _

theorem witness_MdecCfbDecryptsAndUnpads : MdecReady .gost .cfb (sized .gost 32 8 8) := (witness_mdec_ready .gost).2.1 _

theorem witness_MdecOfbDecryptsAndUnpads : MdecReady .des .ofb (sized .des 8 8 4096) := (witness_mdec_ready .des).2.2.1 _

/-- One failing check each: `MLEN` 4096 (padded past `BUF_MAX`), a wrong `KLEN`, a wrong `IVLEN`. -/
theorem witness_MencValidationReportsTheFirstError :
    ¬MencReady .des .cbc (sized .des 8 8 4096) ∧ ¬MencReady .des .ecb (sized .des 9 8 0) ∧
      ¬MencReady .gost .ofb (sized .gost 32 9 0) := by
  unfold MencReady; decide +kernel

/-- One failing check each: `MLEN` 4097, a wrong `KLEN`, a wrong `IVLEN`, a part of a block. -/
theorem witness_MdecValidationReportsTheFirstError :
    ¬MdecReady .des .cbc (sized .des 8 8 4097) ∧ ¬MdecReady .des .ecb (sized .des 7 8 0) ∧
      ¬MdecReady .gost .ofb (sized .gost 32 7 0) ∧ ¬MdecReady .gost .ecb (sized .gost 32 8 7) := by
  unfold MdecReady; decide +kernel

/-- V56, CFB: the message of the second state is the output of the first (`test_menc_gost_cfb`). -/
theorem witness_MessageRoundTrip :
    MencReady .gost .cfb (loaded keyV14 (bytes 5 0x48656C6C6F)) ∧
      (loaded keyV14 (bytes 8 0x018C7CE5358035D9)).key = (loaded keyV14 (bytes 5 0x48656C6C6F)).key ∧
      seen (fun t => decide (message (loaded keyV14 (bytes 8 0x018C7CE5358035D9)) = t.out)) .mencGostCfb
        (loaded keyV14 (bytes 5 0x48656C6C6F)) = some true := by
  unfold MencReady; decide +kernel

/-- The message of V55, two equal blocks, has three padded blocks. -/
theorem witness_EcbLeaksEqualBlocks :
    MencReady .gost .ecb (loaded keyV14 (bytes 16 0xFEDCBA9876543210FEDCBA9876543210)) ∧ 1 < (bytes 24 0).length / 8 ∧
      blockAt (pad (message (loaded keyV14 (bytes 16 0xFEDCBA9876543210FEDCBA9876543210)))) 0 =
        blockAt (pad (message (loaded keyV14 (bytes 16 0xFEDCBA9876543210FEDCBA9876543210)))) 1 := by
  unfold MencReady; decide +kernel

theorem witness_EqualBlocksEncryptAlikeExactlyOnEqualChaining :
    (∀ m ∈ [Mode.cbc, .cfb, .ofb],
        m ≠ .ecb ∧ MencReady .gost m (loaded keyV14 (bytes 16 0xFEDCBA9876543210FEDCBA9876543210))) ∧
      1 < (bytes 24 0).length / 8 ∧
      blockAt (pad (message (loaded keyV14 (bytes 16 0xFEDCBA9876543210FEDCBA9876543210)))) 0 =
        blockAt (pad (message (loaded keyV14 (bytes 16 0xFEDCBA9876543210FEDCBA9876543210)))) 1 := by
  unfold MencReady; decide +kernel

theorem witness_InvariantHoldsAfterReset :
    defaultConfig.legal = true ∧ Config.legal { defaultConfig with bufMax := 88 } = true ∧
      Config.legal { defaultConfig with bufMax := 65528 } = true := by decide

/-- A state after an error, with a message in the buffer and a command waiting. -/
theorem witness_EveryStepKeepsTheInvariant :
    State.Inv { loaded keyV1 [0x41] with status := 0x02, err := 1, out := [0x5A], pending := [.write 0 0x00] } ∧
      (after (step { loaded keyV1 [0x41] with status := 0x02, err := 1, out := [0x5A], pending := [.write 0 0x00] })).isSome := by
  refine ⟨?_, by decide +kernel⟩
  constructor <;> decide +kernel

theorem witness_CommandsWriteOnlyTheirRegisters :
    (∀ i ∈ allInstrs.drop 2, i ≠ .nop ∧ i ≠ .clr) ∧
      seen (fun t => decide (t.rk ≠ (loaded keyV14 []).rk ∧ t.status ≠ (loaded keyV14 []).status)) .kexpGost
        (loaded keyV14 []) = some true := by decide +kernel

theorem witness_CommandsReportExactlyOneOutcome :
    (∀ i ∈ allInstrs.drop 2, i ≠ .nop ∧ i ≠ .clr) ∧ ({ State.reset with status := 0x05 } : State).rkvFlag = true := by decide

/-- A buffer that differs at offset `MLEN`, just past the message. -/
theorem witness_BytesPastTheMessageAreIgnored :
    Instr.mencDesCbc ≠ .clr ∧ (loaded keyV1 [0x41]).mlen.toNat = 1 ∧
      (∀ off, off < 1 → Memory.read [(0, 0x41), (1, 0x99)] off = (loaded keyV1 [0x41]).msg.read off) ∧
      Memory.read [(0, 0x41), (1, 0x99)] 1 ≠ (loaded keyV1 [0x41]).msg.read 1 := by decide +kernel

/-- A key that differs at byte 8, a round-key operand that differs at byte 4, an ECB command. -/
theorem witness_IgnoredOperandsInfluenceNothing :
    (Instr.bencDes.cipher = some .des ∧
        ∀ j : Fin 32, j.val < 8 → (bufferOf 32 (keyV1 ++ [0x77]))[j] = (loaded keyV1 []).key[j]) ∧
      (∀ j : Fin 6, j.val < 4 → (bufferOf 6 [0, 0, 0, 0, 0x77])[j] = (loaded keyV1 []).rkop[j]) ∧
      Instr.mdecGostEcb.mode = some .ecb := by decide +kernel

end Sys2Proof.Tests
end

section
/-! The commands by family, the inputs a command reads, and the writes it can make (10_state.md R10). -/

namespace Sys2Proof

@[simp] theorem kexpInstr_op (c : Cipher) : (kexpInstr c).op = .kexp := by cases c <;> rfl
@[simp] theorem frndInstr_op (c : Cipher) : (frndInstr c).op = .frnd := by cases c <;> rfl
@[simp] theorem bencInstr_op (c : Cipher) : (bencInstr c).op = .benc := by cases c <;> rfl
@[simp] theorem bdecInstr_op (c : Cipher) : (bdecInstr c).op = .bdec := by cases c <;> rfl
@[simp] theorem mencInstr_op (c : Cipher) (m : Mode) : (mencInstr c m).op = .menc := by cases c <;> cases m <;> rfl
@[simp] theorem mdecInstr_op (c : Cipher) (m : Mode) : (mdecInstr c m).op = .mdec := by cases c <;> cases m <;> rfl

@[simp] theorem kexpInstr_cipher (c : Cipher) : (kexpInstr c).cipher = some c := by cases c <;> rfl
@[simp] theorem frndInstr_cipher (c : Cipher) : (frndInstr c).cipher = some c := by cases c <;> rfl
@[simp] theorem bencInstr_cipher (c : Cipher) : (bencInstr c).cipher = some c := by cases c <;> rfl
@[simp] theorem bdecInstr_cipher (c : Cipher) : (bdecInstr c).cipher = some c := by cases c <;> rfl
@[simp] theorem mencInstr_cipher (c : Cipher) (m : Mode) : (mencInstr c m).cipher = some c := by
  cases c <;> cases m <;> rfl
@[simp] theorem mdecInstr_cipher (c : Cipher) (m : Mode) : (mdecInstr c m).cipher = some c := by
  cases c <;> cases m <;> rfl

@[simp] theorem mencInstr_mode (c : Cipher) (m : Mode) : (mencInstr c m).mode = some m := by cases c <;> cases m <;> rfl
@[simp] theorem mdecInstr_mode (c : Cipher) (m : Mode) : (mdecInstr c m).mode = some m := by cases c <;> cases m <;> rfl

/-- The commands by family (R56): what holds of NOP, of CLR and of each family's command for every cipher and mode holds
of every command. -/
theorem Instr.byFamily {P : Instr → Prop} (nop : P .nop) (clr : P .clr) (kexp : ∀ c, P (kexpInstr c))
    (frnd : ∀ c, P (frndInstr c)) (benc : ∀ c, P (bencInstr c)) (bdec : ∀ c, P (bdecInstr c))
    (menc : ∀ c m, P (mencInstr c m)) (mdec : ∀ c m, P (mdecInstr c m)) (i : Instr) : P i := by
  cases i with
  | nop => exact nop
  | clr => exact clr
  | kexpDes => exact kexp .des
  | kexpGost => exact kexp .gost
  | frndDes => exact frnd .des
  | frndGost => exact frnd .gost
  | bencDes => exact benc .des
  | bencGost => exact benc .gost
  | bdecDes => exact bdec .des
  | bdecGost => exact bdec .gost
  | mencDesEcb => exact menc .des .ecb
  | mencDesCbc => exact menc .des .cbc
  | mencDesCfb => exact menc .des .cfb
  | mencDesOfb => exact menc .des .ofb
  | mencGostEcb => exact menc .gost .ecb
  | mencGostCbc => exact menc .gost .cbc
  | mencGostCfb => exact menc .gost .cfb
  | mencGostOfb => exact menc .gost .ofb
  | mdecDesEcb => exact mdec .des .ecb
  | mdecDesCbc => exact mdec .des .cbc
  | mdecDesCfb => exact mdec .des .cfb
  | mdecDesOfb => exact mdec .des .ofb
  | mdecGostEcb => exact mdec .gost .ecb
  | mdecGostCbc => exact mdec .gost .cbc
  | mdecGostCfb => exact mdec .gost .cfb
  | mdecGostOfb => exact mdec .gost .ofb

end Sys2Proof

namespace Sys2Proof.Machine

theorem exec_kexpInstr (c : Cipher) (s : State) : exec (kexpInstr c) s = .next (expandKey c s) := by cases c <;> rfl
theorem exec_frndInstr (c : Cipher) (s : State) : exec (frndInstr c) s = .next (applyRound c s) := by cases c <;> rfl
theorem exec_bencInstr (c : Cipher) (s : State) : exec (bencInstr c) s = .next (cryptBlock c .enc s) := by
  cases c <;> rfl
theorem exec_bdecInstr (c : Cipher) (s : State) : exec (bdecInstr c) s = .next (cryptBlock c .dec s) := by
  cases c <;> rfl
theorem exec_mencInstr (c : Cipher) (m : Mode) (s : State) :
    exec (mencInstr c m) s = .next (encryptMessage c m s) := by cases c <;> cases m <;> rfl
theorem exec_mdecInstr (c : Cipher) (m : Mode) (s : State) :
    exec (mdecInstr c m) s = .next (decryptMessage c m s) := by cases c <;> cases m <;> rfl

/-! ### What a command reads -/

/-- `s'` holds what command `i` reads of `s` (10_state.md, the operands; 45_mode_layer.md R138, R139): the operands of
its cipher, and of its mode if it has one. -/
structure SameInputs (i : Instr) (s s' : State) : Prop where
  /-- the parameters (R3) -/
  cfg : s'.cfg = s.cfg
  /-- `KLEN` -/
  klen : s'.klen = s.klen
  /-- `MLEN` -/
  mlen : s'.mlen = s.mlen
  /-- `BLK` -/
  blk : s'.blk = s.blk
  /-- `HB` -/
  hb : s'.hb = s.hb
  /-- the first `KEY_BYTES(c)` bytes of `KEY` -/
  key : ∀ c, i.cipher = some c → keyOperand c s' = keyOperand c s
  /-- the first `RK_BITS(c) / 8` bytes of `RKOP`, which only FRND reads -/
  rkop : ∀ c, i = frndInstr c → roundKeyOperand c s' = roundKeyOperand c s
  /-- the first `MLEN` bytes of `MSG` -/
  message : message s' = message s
  /-- whether `IVLEN` fails the check of a mode -/
  ivLength : ∀ m, i.mode = some m → ivLengthBad m s' = ivLengthBad m s
  /-- the chaining value before block 0 -/
  chaining : ∀ m, i.mode = some m → startChaining m s' = startChaining m s

theorem SameInputs.refl (i : Instr) (s : State) : SameInputs i s s :=
  ⟨rfl, rfl, rfl, rfl, rfl, fun _ _ => rfl, fun _ _ => rfl, rfl, fun _ _ => rfl, fun _ _ => rfl⟩

section Inputs

variable {i : Instr} {c : Cipher} {m : Mode} {s s' : State}

theorem SameInputs.keyBits_eq (h : SameInputs i s s') (hc : i.cipher = some c) : keyBits c s' = keyBits c s := by
  simp only [keyBits, h.key c hc]

theorem SameInputs.keyLengthBad_eq (h : SameInputs i s s') : keyLengthBad c s' = keyLengthBad c s := by
  simp only [keyLengthBad, h.klen]

theorem SameInputs.paddedLength_eq (h : SameInputs i s s') : paddedLength s' = paddedLength s := by
  simp only [paddedLength, h.mlen]

theorem SameInputs.validateEnc_eq (h : SameInputs i s s') (hm : i.mode = some m) :
    validateEnc c m s' = validateEnc c m s := by
  simp only [validateEnc, h.paddedLength_eq, h.cfg, h.keyLengthBad_eq, h.ivLength m hm]

theorem SameInputs.validateDec_eq (h : SameInputs i s s') (hm : i.mode = some m) :
    validateDec c m s' = validateDec c m s := by
  simp only [validateDec, h.mlen, h.cfg, h.keyLengthBad_eq, h.ivLength m hm]

theorem SameInputs.encRun_eq (h : SameInputs i s s') (hm : i.mode = some m) (K : List BitSeq) :
    encRun c m K s' = encRun c m K s := by
  simp only [encRun, h.cfg, h.chaining m hm, h.paddedLength_eq, h.message]

theorem SameInputs.decRun_eq (h : SameInputs i s s') (hm : i.mode = some m) (K : List BitSeq) :
    decRun c m K s' = decRun c m K s := by
  simp only [decRun, h.cfg, h.chaining m hm, h.mlen, h.message]

end Inputs

/-! ### What a command writes -/

/-- The first error of `Validate` in MENC (R138, R181). -/
theorem validateEnc_error {c : Cipher} {m : Mode} {s : State} {e : CipherError} (h : validateEnc c m s = some e) :
    e = .messageTooLong ∨ e = .invalidKeyLength ∨ (e = .invalidIVLength ∧ m ≠ .ecb) := by
  unfold validateEnc at h
  split_ifs at h with h1 h2 h3 <;> cases h
  · exact .inl rfl
  · exact .inr (.inl rfl)
  · refine .inr (.inr ⟨rfl, ?_⟩)
    rintro rfl
    cases h3

/-- The first error of `Validate` in MDEC (R139, R181). -/
theorem validateDec_error {c : Cipher} {m : Mode} {s : State} {e : CipherError} (h : validateDec c m s = some e) :
    e = .messageTooLong ∨ e = .invalidKeyLength ∨ (e = .invalidIVLength ∧ m ≠ .ecb) ∨ e = .invalidBlockWidth := by
  unfold validateDec at h
  split_ifs at h with h1 h2 h3 h4 <;> cases h
  · exact .inl rfl
  · exact .inr (.inl rfl)
  · refine .inr (.inr (.inl ⟨rfl, ?_⟩))
    rintro rfl
    cases h3
  · exact .inr (.inr (.inr rfl))

/-- A message that passes `Validate` of MENC fits the buffer with its padding (R138). -/
theorem paddedLength_le_of_validateEnc {c : Cipher} {m : Mode} {s : State} (h : validateEnc c m s = none) :
    paddedLength s ≤ s.cfg.bufMax := by
  unfold validateEnc at h
  split_ifs at h with h1
  omega

/-- A message that passes `Validate` of MDEC fits the buffer (R139). -/
theorem mlen_le_of_validateDec {c : Cipher} {m : Mode} {s : State} (h : validateDec c m s = none) :
    s.mlen.toNat ≤ s.cfg.bufMax := by
  unfold validateDec at h
  split_ifs at h with h1
  omega

/-- The errors command `i` can raise (R171, column "raised by"). -/
inductive Raises (i : Instr) : CipherError → Prop
  | keyLength : i.op = .kexp ∨ i.op = .benc ∨ i.op = .bdec ∨ i.op = .menc ∨ i.op = .mdec → Raises i .invalidKeyLength
  | ivLength : i.op = .menc ∨ i.op = .mdec → i.mode ≠ some .ecb → Raises i .invalidIVLength
  | tooLong : i.op = .menc ∨ i.op = .mdec → Raises i .messageTooLong
  | blockWidth : i.op = .mdec → Raises i .invalidBlockWidth
  | padding : i.op = .mdec → Raises i .invalidPadding

/-- `CommandWrite cfg i w`: for the parameters `cfg`, `w` is one of the ways in which command `i` can change the state.
Every value it writes is fixed but `STATUS`, where it sets single flags. -/
inductive CommandWrite (cfg : Config) (i : Instr) : (State → State) → Prop
  /-- NOP (R160) -/
  | nothing : i = .nop → CommandWrite cfg i fun s => s
  /-- CLR (R161) -/
  | clear : i = .clr → CommandWrite cfg i clearState
  /-- the length error of KEXP, BENC, BDEC (R173) -/
  | badKey : i.op = .kexp ∨ i.op = .benc ∨ i.op = .bdec → CommandWrite cfg i (raise .invalidKeyLength false)
  /-- KEXP (R103, R104) -/
  | schedule (c : Cipher) (K : List BitSeq) : i.op = .kexp → ScheduleShape c K →
      CommandWrite cfg i fun s => succeed (storeSchedule c K s)
  /-- FRND (R113, R114) -/
  | round (o : Vector Byte 4) : i.op = .frnd → CommandWrite cfg i fun s => succeed { s with fo := o }
  /-- BENC and BDEC (R128 to R131) -/
  | block (c : Cipher) (K : List BitSeq) (o : Vector Byte 8) : i.op = .benc ∨ i.op = .bdec → ScheduleShape c K →
      CommandWrite cfg i fun s => succeed { storeSchedule c K s with blk := o, dst := .idle }
  /-- an error found in `Validate` (R138, R139) -/
  | invalid (e : CipherError) : i.op = .menc ∨ i.op = .mdec → Raises i e → CommandWrite cfg i (raise e true)
  /-- MENC and MDEC to their end (R138, R139) -/
  | message (c : Cipher) (m : Mode) (K : List BitSeq) (cv o : List Byte) : i.op = .menc ∨ i.op = .mdec →
      i.mode = some m → ScheduleShape c K → o.length ≤ cfg.bufMax →
      CommandWrite cfg i fun s => finishMessage o (storeChaining m cv (storeSchedule c K s))
  /-- MDEC that finds no valid padding (R139) -/
  | badPadding (c : Cipher) (m : Mode) (K : List BitSeq) (cv : List Byte) : i.op = .mdec → i.mode = some m →
      ScheduleShape c K →
      CommandWrite cfg i fun s => raise .invalidPadding true (storeChaining m cv (storeSchedule c K s))

/-- Command `i` makes one write on `s` and on every state with the same inputs. -/
def WritesByInputs (i : Instr) (s : State) : Prop :=
  ∃ w, CommandWrite s.cfg i w ∧ ∀ s', SameInputs i s s' → exec i s' = .next (w s')

theorem kexp_writesByInputs (c : Cipher) (s : State) : WritesByInputs (kexpInstr c) s := by
  simp only [WritesByInputs, exec_kexpInstr]
  rcases expandKey_cases c s with ⟨hl, -⟩ | ⟨hl, K, hK, hs, -⟩
  · refine ⟨_, .badKey (by simp), fun s' h => ?_⟩
    rw [← h.klen] at hl
    simp [expandKey, keyLengthBad, hl]
  · refine ⟨_, .schedule c K (by simp) hs, fun s' h => ?_⟩
    rw [← h.klen] at hl
    rw [← h.keyBits_eq (by simp)] at hK
    simp [expandKey, keyLengthBad, hl, hK]

theorem frnd_writesByInputs (c : Cipher) (s : State) : WritesByInputs (frndInstr c) s := by
  simp only [WritesByInputs, exec_frndInstr]
  obtain ⟨f, hf, -, hb, -⟩ := applyRound_cases c s
  refine ⟨_, .round (bufferOf 4 (packBytes 4 f)) (by simp), fun s' h => ?_⟩
  have hh : halfBlockOperand s' = halfBlockOperand s := by simp only [halfBlockOperand, h.hb]
  obtain ⟨f', hf', -, -, ht⟩ := applyRound_cases c s'
  rw [h.cfg, hh, h.rkop c rfl, hf] at hf'
  injection hf' with hf'
  rw [ht, hf']

/-- BENC and BDEC share their meaning (R128 to R131). -/
theorem cryptBlock_writesByInputs {i : Instr} {c : Cipher} {dir : Direction} (hi : i.op = .benc ∨ i.op = .bdec)
    (hc : i.cipher = some c) (hx : ∀ s, exec i s = .next (cryptBlock c dir s)) (s : State) : WritesByInputs i s := by
  simp only [WritesByInputs, hx]
  rcases cryptBlock_cases c dir s with ⟨hl, -⟩ | ⟨hl, K, o, hK, hs, ho, -, -⟩
  · refine ⟨_, .badKey (.inr hi), fun s' h => ?_⟩
    rw [← h.klen] at hl
    simp [cryptBlock, keyLengthBad, hl]
  · refine ⟨_, .block c K (bufferOf 8 o) hi hs, fun s' h => ?_⟩
    rw [← h.klen] at hl
    rw [← h.keyBits_eq hc] at hK
    rw [← h.cfg, ← h.blk] at ho
    simp [cryptBlock, keyLengthBad, hl, hK, transformBlock, ho]

theorem Raises.of_validateEnc {i : Instr} {c : Cipher} {m : Mode} {s : State} {e : CipherError} (hi : i.op = .menc)
    (hm : i.mode = some m) (h : validateEnc c m s = some e) : Raises i e := by
  rcases validateEnc_error h with rfl | rfl | ⟨rfl, he⟩
  · exact .tooLong (.inl hi)
  · exact .keyLength (by simp [hi])
  · exact .ivLength (.inl hi) (by simp [hm, he])

theorem Raises.of_validateDec {i : Instr} {c : Cipher} {m : Mode} {s : State} {e : CipherError} (hi : i.op = .mdec)
    (hm : i.mode = some m) (h : validateDec c m s = some e) : Raises i e := by
  rcases validateDec_error h with rfl | rfl | ⟨rfl, he⟩ | rfl
  · exact .tooLong (.inr hi)
  · exact .keyLength (by simp [hi])
  · exact .ivLength (.inr hi) (by simp [hm, he])
  · exact .blockWidth hi

theorem menc_writesByInputs (c : Cipher) (m : Mode) (s : State) : WritesByInputs (mencInstr c m) s := by
  have hi : (mencInstr c m).op = .menc := mencInstr_op c m
  have hm : (mencInstr c m).mode = some m := mencInstr_mode c m
  simp only [WritesByInputs, exec_mencInstr]
  rcases encryptMessage_cases c m s with ⟨e, hv, -⟩ | ⟨hv, K, hK, hs, -⟩
  · refine ⟨_, .invalid e (.inl hi) (.of_validateEnc hi hm hv), fun s' h => ?_⟩
    rw [← h.validateEnc_eq hm] at hv
    simp only [encryptMessage, hv]
  · refine ⟨_, .message c m K (encRun c m K s).cv (encRun c m K s).out (.inl hi) hm hs ?_, fun s' h => ?_⟩
    · rw [(encRun_ok c m hs s).2.2]
      exact paddedLength_le_of_validateEnc hv
    · rcases encryptMessage_cases c m s' with ⟨e, hv', -⟩ | ⟨-, K', hK', -, ht⟩
      · rw [h.validateEnc_eq hm, hv] at hv'
        cases hv'
      · rw [h.keyBits_eq (mencInstr_cipher c m), hK] at hK'
        cases hK'
        rw [ht, h.encRun_eq hm]

theorem unpad_length_le {B M : List Byte} (h : unpad B = .ok M) : M.length ≤ B.length := by
  obtain ⟨-, -, -, rfl, -⟩ := unpad_spec h
  simp

theorem mdec_writesByInputs (c : Cipher) (m : Mode) (s : State) : WritesByInputs (mdecInstr c m) s := by
  have hi : (mdecInstr c m).op = .mdec := mdecInstr_op c m
  have hm : (mdecInstr c m).mode = some m := mdecInstr_mode c m
  simp only [WritesByInputs, exec_mdecInstr]
  rcases decryptMessage_cases c m s with ⟨e, hv, -⟩ | ⟨hv, K, hK, hs, hend⟩
  · refine ⟨_, .invalid e (.inr hi) (.of_validateDec hi hm hv), fun s' h => ?_⟩
    rw [← h.validateDec_eq hm] at hv
    simp only [decryptMessage, hv]
  have hsame : ∀ s', SameInputs (mdecInstr c m) s s' →
      ((∃ e, unpad (decRun c m K s).out = .error e ∧ decryptMessage c m s' =
          raise e true (storeChaining m (decRun c m K s).cv (storeSchedule c K s'))) ∨
        ∃ M, unpad (decRun c m K s).out = .ok M ∧ decryptMessage c m s' =
          finishMessage M (storeChaining m (decRun c m K s).cv (storeSchedule c K s'))) := by
    intro s' h
    rcases decryptMessage_cases c m s' with ⟨e, hv', -⟩ | ⟨-, K', hK', -, ht⟩
    · rw [h.validateDec_eq hm, hv] at hv'
      cases hv'
    · rw [h.keyBits_eq (mdecInstr_cipher c m), hK] at hK'
      cases hK'
      rwa [h.decRun_eq hm] at ht
  rcases hend with ⟨e, hu, -⟩ | ⟨M, hu, -⟩
  · cases unpad_error hu
    refine ⟨_, .badPadding c m K (decRun c m K s).cv hi hm hs, fun s' h => ?_⟩
    rcases hsame s' h with ⟨e, hu', ht⟩ | ⟨M, hu', -⟩
    · cases unpad_error hu'
      rw [ht]
    · cases hu.symm.trans hu'
  · refine ⟨_, .message c m K (decRun c m K s).cv M (.inr hi) hm hs ?_, fun s' h => ?_⟩
    · have hlen := (decRun_ok c m hs s).2.2
      have hM := unpad_length_le hu
      have hmax := mlen_le_of_validateDec hv
      omega
    · rcases hsame s' h with ⟨e, hu', -⟩ | ⟨M', hu', ht⟩
      · cases hu.symm.trans hu'
      · cases hu.symm.trans hu'
        rw [ht]

/-- What a command does: one of its writes, chosen by nothing but its inputs. -/
theorem exec_writesByInputs (i : Instr) (s : State) : WritesByInputs i s := by
  induction i using Instr.byFamily with
  | nop => exact ⟨_, .nothing rfl, fun _ _ => rfl⟩
  | clr => exact ⟨_, .clear rfl, fun _ _ => rfl⟩
  | kexp c => exact kexp_writesByInputs c s
  | frnd c => exact frnd_writesByInputs c s
  | benc c => exact cryptBlock_writesByInputs (by simp) (by simp) (exec_bencInstr c) s
  | bdec c => exact cryptBlock_writesByInputs (by simp) (by simp) (exec_bdecInstr c) s
  | menc c m => exact menc_writesByInputs c m s
  | mdec c m => exact mdec_writesByInputs c m s

/-- Every command makes one of its writes. -/
theorem exec_commandWrite (i : Instr) (s : State) : ∃ w, CommandWrite s.cfg i w ∧ exec i s = .next (w s) := by
  obtain ⟨w, hw, h⟩ := exec_writesByInputs i s
  exact ⟨w, hw, h s (.refl i s)⟩

end Sys2Proof.Machine
end

section
/-! The flags of `STATUS` after every way of writing them (10_state.md R12). -/

namespace Sys2Proof.Machine

/-- A bit of `STATUS` after one of its bits is written. -/
theorem putBit_getLsbD (v : Byte) {i : Nat} (hi : i < 8) (b : Bool) (j : Nat) :
    (putBit v i b).getLsbD j = if j = i then b else v.getLsbD j := by
  have hone : (1#8 <<< i).getLsbD j = decide (j = i) := by
    rw [BitVec.getLsbD_shiftLeft, BitVec.getLsbD_one, Bool.eq_iff_iff]
    simp only [Bool.and_eq_true, decide_eq_true_eq, Bool.not_eq_true', decide_eq_false_iff_not]
    omega
  cases b with
  | true =>
    simp only [putBit, if_true, BitVec.getLsbD_or, hone]
    by_cases hj : j = i <;> simp [hj]
  | false =>
    simp only [putBit, Bool.false_eq_true, if_false, BitVec.getLsbD_and, BitVec.getLsbD_not, hone]
    by_cases hj : j = i
    · simp [hj]
    · rcases Nat.lt_or_ge j 8 with h8 | h8
      · simp [hj, h8]
      · simp [hj, BitVec.getLsbD_of_ge v j h8]

theorem statusSuccess_getLsbD (v : Byte) (j : Nat) :
    (statusSuccess v).getLsbD j = if j = 1 then false else if j = 0 then true else v.getLsbD j := by
  rw [statusSuccess, putBit_getLsbD _ (by decide), putBit_getLsbD _ (by decide)]
  rfl

theorem statusError_getLsbD (v : Byte) (j : Nat) :
    (statusError v).getLsbD j = if j = 1 then true else if j = 0 then false else v.getLsbD j := by
  rw [statusError, putBit_getLsbD _ (by decide), putBit_getLsbD _ (by decide)]
  rfl

theorem statusSchedule_getLsbD (c : Cipher) (v : Byte) (j : Nat) :
    (statusSchedule c v).getLsbD j =
      if j = 3 then decide (c = .gost) else if j = 2 then true else v.getLsbD j := by
  rw [statusSchedule, putBit_getLsbD _ (by decide), putBit_getLsbD _ (by decide)]
  rfl

/-- The reserved bits 7:4 of a byte are 0 exactly when it is below 16. -/
theorem byte_lt_16_iff (v : Byte) : v.toNat < 16 ↔ ∀ j, 4 ≤ j → v.getLsbD j = false := by
  constructor
  · intro h j hj
    exact Nat.testBit_lt_two_pow (lt_of_lt_of_le h (Nat.pow_le_pow_right (n := 2) (by decide) hj))
  · intro h
    exact Nat.lt_pow_two_of_testBit (n := 4) v.toNat h

/-- A byte whose bits 7:4 are those of a byte below 16 is below 16. -/
theorem byte_lt_16_of_eq_above {v v' : Byte} (h : v.toNat < 16) (hbits : ∀ j, 4 ≤ j → v'.getLsbD j = v.getLsbD j) :
    v'.toNat < 16 :=
  (byte_lt_16_iff v').2 fun j hj => (hbits j hj).trans ((byte_lt_16_iff v).1 h j hj)

section Flags

variable (e : CipherError) (b : Bool) (c : Cipher) (K : List BitSeq) (s : State)

@[simp] theorem raise_okFlag : (raise e b s).okFlag = false := by
  rw [State.okFlag, raise_status, statusError_getLsbD]
  rfl
@[simp] theorem raise_errFlag : (raise e b s).errFlag = true := by
  rw [State.errFlag, raise_status, statusError_getLsbD]
  rfl
@[simp] theorem raise_rkvFlag : (raise e b s).rkvFlag = s.rkvFlag := by
  rw [State.rkvFlag, raise_status, statusError_getLsbD]
  rfl
@[simp] theorem raise_rkcFlag : (raise e b s).rkcFlag = s.rkcFlag := by
  rw [State.rkcFlag, raise_status, statusError_getLsbD]
  rfl

@[simp] theorem succeed_okFlag : (succeed s).okFlag = true := by
  rw [State.okFlag, succeed_status, statusSuccess_getLsbD]
  rfl
@[simp] theorem succeed_errFlag : (succeed s).errFlag = false := by
  rw [State.errFlag, succeed_status, statusSuccess_getLsbD]
  rfl
@[simp] theorem succeed_rkvFlag : (succeed s).rkvFlag = s.rkvFlag := by
  rw [State.rkvFlag, succeed_status, statusSuccess_getLsbD]
  rfl
@[simp] theorem succeed_rkcFlag : (succeed s).rkcFlag = s.rkcFlag := by
  rw [State.rkcFlag, succeed_status, statusSuccess_getLsbD]
  rfl

@[simp] theorem storeSchedule_okFlag : (storeSchedule c K s).okFlag = s.okFlag := by
  rw [State.okFlag, storeSchedule_status, statusSchedule_getLsbD]
  rfl
@[simp] theorem storeSchedule_errFlag : (storeSchedule c K s).errFlag = s.errFlag := by
  rw [State.errFlag, storeSchedule_status, statusSchedule_getLsbD]
  rfl
@[simp] theorem storeSchedule_rkvFlag : (storeSchedule c K s).rkvFlag = true := by
  rw [State.rkvFlag, storeSchedule_status, statusSchedule_getLsbD]
  rfl
@[simp] theorem storeSchedule_rkcFlag : (storeSchedule c K s).rkcFlag = decide (c = .gost) := by
  rw [State.rkcFlag, storeSchedule_status, statusSchedule_getLsbD]
  rfl

variable (m : Mode) (l : List Byte)

@[simp] theorem storeChaining_rkvFlag : (storeChaining m l s).rkvFlag = s.rkvFlag := by simp [State.rkvFlag]

@[simp] theorem finishMessage_okFlag : (finishMessage l s).okFlag = true := succeed_okFlag _
@[simp] theorem finishMessage_errFlag : (finishMessage l s).errFlag = false := succeed_errFlag _
@[simp] theorem finishMessage_rkvFlag : (finishMessage l s).rkvFlag = s.rkvFlag := succeed_rkvFlag _

end Flags

end Sys2Proof.Machine
end

section
/-! No command reads `STATUS`, the round-key file, the bytes of `MSG` past the message, or the operands of another
cipher or mode (O57 to O60). -/

namespace Sys2Proof.Machine

/-- The registers and buffers that the engine writes in CLR only (R10). -/
structure HostRegisters where
  /-- `KLEN` -/
  klen : Byte
  /-- `IVLEN` -/
  ivlen : Byte
  /-- `MLEN` -/
  mlen : BitVec 16
  /-- `KEY` -/
  key : Vector Byte 32
  /-- `IV` -/
  iv : Vector Byte 8
  /-- `HB` -/
  hb : Vector Byte 4
  /-- `RKOP` -/
  rkop : Vector Byte 6
  /-- `MSG` -/
  msg : Memory

/-- These registers of a state. -/
def State.hostRegisters (s : State) : HostRegisters where
  klen := s.klen
  ivlen := s.ivlen
  mlen := s.mlen
  key := s.key
  iv := s.iv
  hb := s.hb
  rkop := s.rkop
  msg := s.msg

/-- A state with these registers replaced by values computed from them. -/
def State.mapHost (f : HostRegisters → HostRegisters) (s : State) : State :=
  { s with
    klen := (f s.hostRegisters).klen
    ivlen := (f s.hostRegisters).ivlen
    mlen := (f s.hostRegisters).mlen
    key := (f s.hostRegisters).key
    iv := (f s.hostRegisters).iv
    hb := (f s.hostRegisters).hb
    rkop := (f s.hostRegisters).rkop
    msg := (f s.hostRegisters).msg }

section Writes

variable {cfg : Config} {i : Instr} {w : State → State}

theorem CommandWrite.mapHost (h : CommandWrite cfg i w) (hi : i ≠ .clr) (f : HostRegisters → HostRegisters) (s : State) :
    w (s.mapHost f) = (w s).mapHost f := by
  cases h with
  | clear hc => exact absurd hc hi
  | message c m | badPadding c m => cases m <;> rfl
  | _ => rfl

/-- A write that goes on as before whatever these registers hold leaves them alone. -/
theorem CommandWrite.hostRegisters (h : CommandWrite cfg i w) (hi : i ≠ .clr) (s : State) :
    (w s).hostRegisters = s.hostRegisters := by
  have hsame : w s = (w s).mapHost fun _ => s.hostRegisters := h.mapHost hi (fun _ => s.hostRegisters) s
  rw [hsame]
  rfl

theorem CommandWrite.withStatus (h : CommandWrite cfg i w) (s : State) (x : Byte) :
    w { s with status := x } = { w s with status := (w { s with status := x }).status } := by
  cases h with
  | message c m | badPadding c m => cases m <;> rfl
  | _ => rfl

/-- A write either replaces the round-key file whole or leaves it alone (R25). -/
theorem CommandWrite.withRk (h : CommandWrite cfg i w) (s : State) (x : Vector (BitVec 48) 32) :
    w { s with rk := x } = w s ∨ ((w s).rk = s.rk ∧ w { s with rk := x } = { w s with rk := x }) := by
  cases h with
  | clear | schedule | block => exact .inl rfl
  | message c m | badPadding c m => exact .inl (by cases m <;> rfl)
  | nothing | badKey | round | invalid => exact .inr ⟨rfl, rfl⟩

end Writes

/-- Host registers that agree on the inputs of a command give the same result but for themselves. -/
theorem exec_mapHost {i : Instr} {s : State} (hi : i ≠ .clr) (f : HostRegisters → HostRegisters)
    (hsame : SameInputs i s (s.mapHost f)) :
    ∃ t, exec i s = .next t ∧ exec i (s.mapHost f) = .next (t.mapHost f) := by
  obtain ⟨w, hw, h⟩ := exec_writesByInputs i s
  exact ⟨w s, h s (.refl i s), by rw [h _ hsame, hw.mapHost hi]⟩

/-- Settles O57: `STATUS` is among no command's inputs. -/
theorem statusIsNoInputOfACommand : Obligations.StatusIsNoInputOfACommand := by
  intro i s x
  obtain ⟨w, hw, h⟩ := exec_writesByInputs i s
  have hsame : SameInputs i s { s with status := x } := { SameInputs.refl i s with }
  exact ⟨_, _, h s (.refl i s), h _ hsame, hw.withStatus s x⟩

/-- Settles O58: the round-key file is among no command's inputs. -/
theorem staleScheduleIsNeverUsed : Obligations.StaleScheduleIsNeverUsed := by
  intro i s x
  obtain ⟨w, hw, h⟩ := exec_writesByInputs i s
  have hsame : SameInputs i s { s with rk := x } := { SameInputs.refl i s with }
  exact ⟨_, _, h s (.refl i s), h _ hsame, hw.withRk s x⟩

/-- `MESSAGE` is the bytes of `MSG` below `MLEN` (R26). -/
theorem message_withMsg {s : State} {x : Memory} (h : ∀ off, off < s.mlen.toNat → x.read off = s.msg.read off) :
    message { s with msg := x } = message s :=
  List.map_congr_left fun off hoff => h off (List.mem_range.1 hoff)

/-- Settles O59: of `MSG` a command reads the message only. -/
theorem bytesPastTheMessageAreIgnored : Obligations.BytesPastTheMessageAreIgnored := by
  intro i s x hi hx
  have hsame : SameInputs i s { s with msg := x } := { SameInputs.refl i s with message := message_withMsg hx }
  exact exec_mapHost hi (fun r => { r with msg := x }) hsame

/-- Two buffers that agree below `k` have the same first `k` bytes. -/
theorem vector_take_congr {n k : Nat} {x y : Vector Byte n} (h : ∀ j : Fin n, j.val < k → x[j] = y[j]) :
    x.toList.take k = y.toList.take k := by
  apply List.ext_getElem
  · simp
  · intro j hj _
    simp only [List.length_take, vector_toList_length, lt_min_iff] at hj
    simpa using h ⟨j, hj.2⟩ hj.1

/-- Settles O60: the operand of a cipher is the first bytes of its buffer, and ECB reads neither `IV` nor `IVLEN`. -/
theorem ignoredOperandsInfluenceNothing : Obligations.IgnoredOperandsInfluenceNothing := by
  refine ⟨fun i s x hi hx => ?_, fun s x hx => ?_, fun i s x n hi => ?_⟩
  · have hkey : ∀ c, i.cipher = some c → keyOperand c { s with key := x } = keyOperand c s := by
      intro c hc
      cases hi.symm.trans hc
      exact vector_take_congr hx
    have hsame : SameInputs i s { s with key := x } := { SameInputs.refl i s with key := hkey }
    exact exec_mapHost (by rintro rfl; cases hi) (fun r => { r with key := x }) hsame
  · have hrkop : ∀ c, Instr.frndGost = frndInstr c →
        roundKeyOperand c { s with rkop := x } = roundKeyOperand c s := by
      rintro (_ | _) hc
      · cases hc
      · exact congrArg bytesToBits (vector_take_congr hx)
    have hsame : SameInputs .frndGost s { s with rkop := x } := { SameInputs.refl _ s with rkop := hrkop }
    exact exec_mapHost (by decide) (fun r => { r with rkop := x }) hsame
  · have hiv : ∀ m, i.mode = some m → ivLengthBad m { s with iv := x, ivlen := n } = ivLengthBad m s := by
      intro m hm
      cases hi.symm.trans hm
      rfl
    have hcv : ∀ m, i.mode = some m → startChaining m { s with iv := x, ivlen := n } = startChaining m s := by
      intro m hm
      cases hi.symm.trans hm
      rfl
    have hsame : SameInputs i s { s with iv := x, ivlen := n } :=
      { SameInputs.refl i s with ivLength := hiv, chaining := hcv }
    exact exec_mapHost (by rintro rfl; cases hi) (fun r => { r with iv := x, ivlen := n }) hsame

end Sys2Proof.Machine
end

section
/-! Each register is written only where R10 says (O55), and every command but NOP and CLR reports one outcome (O56). -/

namespace Sys2Proof.Machine

section Writes

variable {cfg : Config} {i : Instr} {w : State → State}

/-- The parameters and the host's side of the port are no command's to write. -/
theorem CommandWrite.port (h : CommandWrite cfg i w) (s : State) :
    (w s).cfg = s.cfg ∧ (w s).pending = s.pending ∧ (w s).returned = s.returned := by
  cases h <;> simp

/-- Where R10 lets the engine write the registers it does write. -/
theorem CommandWrite.engineRegisters (h : CommandWrite cfg i w) (hi : i ≠ .clr) (s : State) :
    ((w s).out ≠ s.out → i.op = .menc ∨ i.op = .mdec) ∧
      ((w s).cv ≠ s.cv → (i.op = .menc ∨ i.op = .mdec) ∧ i.mode ≠ some .ecb) ∧
      ((w s).blk ≠ s.blk → i.op = .benc ∨ i.op = .bdec) ∧ ((w s).fo ≠ s.fo → i.op = .frnd) ∧
      ((w s).rk ≠ s.rk → i.op = .kexp ∨ i.op = .benc ∨ i.op = .bdec ∨ i.op = .menc ∨ i.op = .mdec) := by
  cases h with
  | nothing | badKey => simp
  | clear hc => exact absurd hc hi
  | schedule c K hop => simp [hop]
  | round o hop => simp [hop]
  | block c K o hop => rcases hop with hop | hop <;> simp [hop]
  | invalid e hop => simp [hop]
  | message c m K cv o hop hm => rcases hop with hop | hop <;> cases m <;> simp [hop, hm, chained]
  | badPadding c m K cv hop hm => cases m <;> simp [hop, hm, chained]

theorem errorCode_ne_zero (e : CipherError) : errorCode e ≠ 0 := by cases e <;> decide

/-- What a command reports (R12, R13): success, or an error it can raise. -/
theorem CommandWrite.outcome (h : CommandWrite cfg i w) (hn : i ≠ .nop) (hc : i ≠ .clr) (s : State) :
    ((w s).err = 0 ∧ (w s).okFlag = true ∧ (w s).errFlag = false) ∨
      ∃ e, Raises i e ∧ (w s).err = errorCode e ∧ (w s).okFlag = false ∧ (w s).errFlag = true := by
  cases h with
  | nothing hi => exact absurd hi hn
  | clear hi => exact absurd hi hc
  | schedule | round | block | message => exact .inl (by simp)
  | badKey hop => exact .inr ⟨_, .keyLength (by tauto), by simp⟩
  | invalid e hop he => exact .inr ⟨e, he, by simp⟩
  | badPadding c m K cv hop => exact .inr ⟨_, .padding hop, by simp⟩

/-- `RKV` stays set until CLR (R12). -/
theorem CommandWrite.rkvFlag (h : CommandWrite cfg i w) (hc : i ≠ .clr) (s : State) (hs : s.rkvFlag = true) :
    (w s).rkvFlag = true := by
  cases h with
  | clear hi => exact absurd hi hc
  | nothing | badKey | invalid => simpa
  | round o => exact (succeed_rkvFlag { s with fo := o }).trans hs
  | schedule | message | badPadding => simp
  | block c K o => exact (succeed_rkvFlag _).trans (storeSchedule_rkvFlag c K s)

end Writes

/-- Settles O55: a command makes one of its writes, and each leaves the other registers alone. -/
theorem commandsWriteOnlyTheirRegisters : Obligations.CommandsWriteOnlyTheirRegisters := by
  intro i s
  obtain ⟨w, hw, ht⟩ := exec_commandWrite i s
  obtain ⟨hcfg, hpending, hreturned⟩ := hw.port s
  refine ⟨w s, ht, hcfg, hpending, hreturned, ?_, fun hi => ?_⟩
  · rintro h rfl
    have hws : s = w s := by injection ht
    simp [← hws] at h
  · have hhost := hw.hostRegisters hi s
    simp only [State.hostRegisters, HostRegisters.mk.injEq] at hhost
    obtain ⟨hklen, hivlen, hmlen, hkey, hiv, hhb, hrkop, hmsg⟩ := hhost
    exact ⟨hklen, hivlen, hmlen, hkey, hiv, hhb, hrkop, hmsg, hw.engineRegisters hi s⟩

/-- Settles O56: every write of a command but NOP and CLR ends in success or in an error the command can raise. -/
theorem commandsReportExactlyOneOutcome : Obligations.CommandsReportExactlyOneOutcome := by
  intro i s hn hc
  obtain ⟨w, hw, ht⟩ := exec_commandWrite i s
  refine ⟨w s, ht, ?_⟩
  rcases hw.outcome hn hc s with ⟨herr, hok, herrf⟩ | ⟨e, he, herr, hok, herrf⟩
  · exact ⟨by rw [hok, herrf]; rfl, by simp [herr, herrf], hw.rkvFlag hc s, .inl herr⟩
  · refine ⟨by rw [hok, herrf]; rfl, iff_of_true herrf (herr ▸ errorCode_ne_zero e), hw.rkvFlag hc s, .inr ?_⟩
    rw [herr]
    cases he with
    | keyLength hop => exact .inl ⟨rfl, by intro hf; simp [hf] at hop⟩
    | ivLength hop hm => exact .inr (.inl ⟨rfl, hop, hm⟩)
    | tooLong hop => exact .inr (.inr (.inl ⟨rfl, hop⟩))
    | blockWidth hop => exact .inr (.inr (.inr ⟨.inl rfl, hop⟩))
    | padding hop => exact .inr (.inr (.inr ⟨.inr rfl, hop⟩))

end Sys2Proof.Machine
end

section
/-! Every step keeps the invariant (O54): each write of a command does, and so do the host's events. -/

namespace Sys2Proof.Machine

/-- Zero bits after a sequence multiply its number by a power of 2 (R76). -/
theorem uint_append_zeros (k : BitSeq) (n : Nat) : uint (k ++ List.replicate n false) = uint k * 2 ^ n := by
  induction n with
  | zero => simp
  | succ n ih =>
    rw [List.replicate_succ', ← List.append_assoc, uint, List.foldl_append]
    show 2 * uint (k ++ List.replicate n false) + 0 = _
    rw [ih, Nat.pow_succ]
    ring

/-- Above `N(c)` a stored schedule is zero (R25). -/
theorem scheduleEntry_above {c : Cipher} {i : Nat} (h : rounds c < i) (K : List BitSeq) : scheduleEntry c K i = 0 :=
  if_neg (by omega)

/-- The last 16 bits of a stored GOST-like round key are zero (R25). -/
theorem scheduleEntry_gost_tail {K : List BitSeq} (hK : ScheduleShape .gost K) {i : Nat} (h1 : 1 ≤ i) (h2 : i ≤ 32) :
    (scheduleEntry .gost K i).extractLsb' 0 16 = 0 := by
  have hlen : i - 1 < K.length := by rw [hK.1, rounds]; omega
  have hk : (roundKeyAt K i).length = 32 := by
    rw [roundKeyAt, List.getD_eq_getElem _ _ hlen]
    exact hK.2 _ (List.getElem_mem hlen)
  apply BitVec.eq_of_toNat_eq
  rw [scheduleEntry, if_pos (by rwa [rounds]), hk, uint_append_zeros]
  simp

/-! ### The operations on the state -/

section Operations

variable {s : State}

/-- An update of registers the invariant does not mention keeps it. -/
theorem State.Inv.congr {t : State} (h : s.Inv) (hcfg : t.cfg = s.cfg) (hmsg : t.msg = s.msg) (hout : t.out = s.out)
    (hstatus : t.status = s.status) (herr : t.err = s.err) (hrk : t.rk = s.rk) (hdst : t.dst = s.dst)
    (hmst : t.mst = s.mst) : t.Inv := by
  cases t
  cases hcfg; cases hmsg; cases hout; cases hstatus; cases herr; cases hrk; cases hdst; cases hmst
  exact { h with }

theorem State.Inv.raise (h : s.Inv) {e : CipherError} (he : errorCode e ∈ reachableCodes) (message : Bool) :
    (raise e message s).Inv where
  cfgLegal := by simpa using h.cfgLegal
  msgCanonical := by simpa using h.msgCanonical
  msgInside := by simpa using h.msgInside
  outInside := by cases message <;> simp [h.outInside]
  statusReserved := byte_lt_16_of_eq_above h.statusReserved fun j hj => by
    rw [raise_status, statusError_getLsbD, if_neg (by omega), if_neg (by omega)]
  errfAgrees := iff_of_true (by simp) (by rw [raise_err]; exact errorCode_ne_zero e)
  okExclusive := by simp
  errReachable := by rwa [raise_err]
  noSchedule := by simpa using h.noSchedule
  desTail := by simpa using h.desTail
  gostTail := by simpa using h.gostTail
  driverIdle := by simp [h.driverIdle]
  controllerIdle := by simp [h.controllerIdle]

theorem State.Inv.succeed (h : s.Inv) : (succeed s).Inv where
  cfgLegal := h.cfgLegal
  msgCanonical := h.msgCanonical
  msgInside := h.msgInside
  outInside := h.outInside
  statusReserved := byte_lt_16_of_eq_above h.statusReserved fun j hj => by
    rw [succeed_status, statusSuccess_getLsbD, if_neg (by omega), if_neg (by omega)]
  errfAgrees := by simp
  okExclusive := by simp
  errReachable := by simp [reachableCodes]
  noSchedule := by simpa using h.noSchedule
  desTail := by simpa using h.desTail
  gostTail := by simpa using h.gostTail
  driverIdle := h.driverIdle
  controllerIdle := h.controllerIdle

theorem State.Inv.storeSchedule (h : s.Inv) {c : Cipher} {K : List BitSeq} (hK : ScheduleShape c K) :
    (storeSchedule c K s).Inv where
  cfgLegal := h.cfgLegal
  msgCanonical := h.msgCanonical
  msgInside := h.msgInside
  outInside := h.outInside
  statusReserved := byte_lt_16_of_eq_above h.statusReserved fun j hj => by
    rw [storeSchedule_status, statusSchedule_getLsbD, if_neg (by omega), if_neg (by omega)]
  errfAgrees := by simpa using h.errfAgrees
  okExclusive := by simpa using h.okExclusive
  errReachable := h.errReachable
  noSchedule := by simp
  desTail := by
    intro _ hc i hi
    cases c with
    | des => simpa using scheduleEntry_above (c := .des) (i := i.val + 1) (by rw [rounds]; omega) K
    | gost => simp at hc
  gostTail := by
    intro hc i
    cases c with
    | des => simp at hc
    | gost => simpa using scheduleEntry_gost_tail hK (i := i.val + 1) (by omega) (by omega)
  driverIdle := h.driverIdle
  controllerIdle := h.controllerIdle

theorem State.Inv.storeChaining (h : s.Inv) (m : Mode) (cv : List Byte) : (storeChaining m cv s).Inv := by
  apply h.congr <;> simp

theorem State.Inv.finishMessage (h : s.Inv) {o : List Byte} (ho : o.length ≤ s.cfg.bufMax) :
    (finishMessage o s).Inv :=
  { h.succeed with outInside := ho, driverIdle := rfl, controllerIdle := rfl }

/-- The reset state for legal parameters meets the invariant, whatever waits at the host port (R196). -/
theorem resetWith_inv {cfg : Config} (h : cfg.legal = true) : (State.resetWith cfg).Inv where
  cfgLegal := h
  msgCanonical := rfl
  msgInside := by simp
  outInside := by simp
  statusReserved := by simp
  errfAgrees := by simp [State.errFlag]
  okExclusive := by simp [State.errFlag]
  errReachable := by simp [reachableCodes]
  noSchedule := by simp [State.rkcFlag]
  desTail := by simp [State.rkvFlag]
  gostTail := by simp [State.rkcFlag]
  driverIdle := rfl
  controllerIdle := rfl

theorem State.Inv.clearState (h : s.Inv) : (clearState s).Inv :=
  (resetWith_inv h.cfgLegal).congr rfl rfl rfl rfl rfl rfl rfl rfl

theorem State.Inv.storeByte (h : s.Inv) (r : Region) (off : Nat) (v : Byte) : (storeByte s r off v).Inv := by
  cases r with
  | msg =>
    simp only [Machine.storeByte]
    split
    · rename_i hoff
      refine { h with msgCanonical := memory_write_wf h.msgCanonical off v, msgInside := fun x hx => ?_ }
      rcases memory_mem_write hx with hx | rfl
      · exact h.msgInside x hx
      · exact hoff
    · exact h
  | _ => exact { h with }

theorem State.Inv.hostStore (h : s.Inv) (a : Nat) (v : Byte) : (hostStore s a v).Inv := by
  unfold Machine.hostStore
  split
  · exact h.storeByte _ _ v
  · exact h

end Operations

/-! ### The steps -/

/-- `IndexOutOfRange` and `InvalidLength` are raised by no command (R176, R180). -/
theorem Raises.code_reachable {i : Instr} {e : CipherError} (h : Raises i e) : errorCode e ∈ reachableCodes := by
  cases h <;> decide

theorem CommandWrite.inv {i : Instr} {w : State → State} {s : State} (hw : CommandWrite s.cfg i w) (h : s.Inv) :
    (w s).Inv := by
  cases hw with
  | nothing => exact h
  | clear => exact h.clearState
  | badKey => exact h.raise (by decide) false
  | schedule c K _ hK => exact (h.storeSchedule hK).succeed
  | round o => exact State.Inv.succeed (s := { s with fo := o }) { h with }
  | block c K o _ hK =>
    have hs : State.Inv { Machine.storeSchedule c K s with blk := o, dst := .idle } :=
      { h.storeSchedule hK with driverIdle := rfl }
    exact hs.succeed
  | invalid e _ he => exact h.raise he.code_reachable true
  | message c m K cv o _ _ hK ho =>
    exact ((h.storeSchedule hK).storeChaining m cv).finishMessage (by simpa using ho)
  | badPadding c m K cv _ _ hK => exact ((h.storeSchedule hK).storeChaining m cv).raise (by decide) true

/-- Settles O54: by the cases of a step; a command keeps the invariant because each of its writes does. -/
theorem everyStepKeepsTheInvariant : Obligations.EveryStepKeepsTheInvariant := by
  intro s t h ht
  rcases step_cases ht with ⟨-, rfl⟩ | ⟨e, rest, -, hstep⟩
  · exact h
  have hrest : State.Inv { s with pending := rest } := { h with }
  rcases hstep with ⟨a, -, rfl⟩ | ⟨a, v, i, -, -, -, hi⟩ | ⟨a, v, x, -, -, -, rfl⟩ | ⟨a, v, -, -, rfl⟩ | ⟨-, rfl⟩
  · exact { h with }
  · obtain ⟨w, hw, hx⟩ := exec_commandWrite i { s with pending := rest }
    rw [hx] at hi
    cases hi
    exact hw.inv hrest
  · exact hrest.raise (by decide) false
  · exact hrest.hostStore a v
  · exact hrest.clearState

end Sys2Proof.Machine
end

section
/-! Where the rows of the address map stand and what a host read of each returns (20_memory.md R35 to R39, R49), and the
host events that are not writes (O5, O7). -/

namespace Sys2Proof.Machine

/-! ### One step, event by event -/

section Events

variable {s : State} {rest : List HostEvent} {a : Nat} {v : Byte}

theorem step_of_no_event (h : s.pending = []) : step s = .next s := by
  rw [step, performNext, h]

theorem step_of_event {e : HostEvent} (h : s.pending = e :: rest) :
    step s = performEvent e { s with pending := rest } := by
  rw [step, performNext, h]

/-- A write to an address other than `CMD` is a store (R38). -/
theorem step_of_store (h : s.pending = .write a v :: rest) (ha : a % 2 ^ 18 ≠ 0) :
    step s = .next (hostStore { s with pending := rest } a v) := by
  rw [step_of_event h, performEvent, if_neg (mt locate_cmd.1 ha)]

end Events

/-! ### A read goes by row and offset -/

/-- Every row lies in the address space (R35, R36). -/
theorem regionEnd_le (r : Region) : regionBase r + regionSize r ≤ 2 ^ 18 := by cases r <;> decide

theorem regionSize_pos (r : Region) : 0 < regionSize r := by cases r <;> decide

theorem locate_row {r : Region} {off : Nat} (h : off < regionSize r) : locate (regionBase r + off) = some (r, off) := by
  have := regionEnd_le r
  exact locate_eq_some.2 ⟨Nat.mod_eq_of_lt (by omega), h⟩

theorem locate_mod (a : Nat) : locate (a % 2 ^ 18) = locate a := by
  simp only [locate, hostAddress, Nat.mod_mod]

section Read

variable {a off : Nat} {r : Region}

theorem hostRead_located (s : State) (h : locate a = some (r, off)) : hostRead s a = regionByte s r off := by
  rw [hostRead, h]

theorem hostRead_reserved (s : State) (h : locate a = none) : hostRead s a = 0 := by
  rw [hostRead, h]

theorem hostRead_row (s : State) (h : off < regionSize r) : hostRead s (regionBase r + off) = regionByte s r off :=
  hostRead_located s (locate_row h)

/-- The register of a row of one byte. -/
theorem hostRead_base (s : State) (r : Region) : hostRead s (regionBase r) = regionByte s r 0 :=
  hostRead_row s (regionSize_pos r)

/-- A read does not depend on what waits at the host port. -/
theorem hostRead_withPending (s : State) (l : List HostEvent) (a : Nat) :
    hostRead { s with pending := l } a = hostRead s a := by
  cases h : locate a with
  | none => rw [hostRead_reserved _ h, hostRead_reserved _ h]
  | some x =>
    obtain ⟨r, off⟩ := x
    rw [hostRead_located _ h, hostRead_located _ h]
    cases r <;> rfl

end Read

/-- The reserved addresses, between and after the rows of R36 (R39). -/
theorem locate_gap {a : Nat}
    (h : (0x9 ≤ a ∧ a ≤ 0xF) ∨ (0x56 ≤ a ∧ a ≤ 0xFF) ∨ (0x200 ≤ a ∧ a ≤ 0xFFFF) ∨ (0x30000 ≤ a ∧ a ≤ 0x3FFFF)) :
    locate a = none := by
  refine locate_eq_none.2 fun r => Bool.eq_false_iff.2 fun hin => ?_
  rw [inRegion_iff, hostAddress, Nat.mod_eq_of_lt (by omega)] at hin
  cases r <;> simp only [regionBase, regionSize] at hin <;> omega

/-! ### The bytes a row shows -/

theorem byteAt_fin {n : Nat} (v : Vector Byte n) (i : Fin n) : byteAt v i.val = v[i] := by
  simp [byteAt]

/-- A 16-bit register is read high byte first (R41). -/
theorem highByte_toNat (x : BitVec 16) : (x.extractLsb' 8 8).toNat = x.toNat / 256 := by
  have := x.isLt
  rw [BitVec.extractLsb'_toNat, Nat.shiftRight_eq_div_pow]
  omega

theorem lowByte_toNat (x : BitVec 16) : (x.extractLsb' 0 8).toNat = x.toNat % 256 := by
  rw [BitVec.extractLsb'_toNat, Nat.shiftRight_zero]

theorem olen_toNat {s : State} (h : s.out.length < 2 ^ 16) : s.olen.toNat = s.out.length := by
  rw [State.olen, BitVec.toNat_ofNat, Nat.mod_eq_of_lt h]

/-- Byte `k` of entry `i + 1` of the round-key file stands at offset `8 * i + k` of its window (R49). -/
theorem hostRead_roundKey (s : State) (i : Fin 32) {k : Nat} (hk : k < 8) :
    hostRead s (0x100 + 8 * i.val + k) = if k < 6 then (s.rk[i]).extractLsb' (40 - 8 * k) 8 else 0 := by
  have hrow : hostRead s (0x100 + (8 * i.val + k)) = roundKeyWindow s (8 * i.val + k) :=
    hostRead_row (r := .rk) s (by simp only [regionSize]; omega)
  have hmod : (8 * i.val + k) % 8 = k := by omega
  have hdiv : (8 * i.val + k) / 8 = i.val := by omega
  rw [Nat.add_assoc, hrow, roundKeyWindow, hmod, hdiv]
  simp

/-- Settles O5: by the kind of the oldest waiting event. -/
theorem eventsOtherThanWritesChangeOnlyWhatTheySay : Obligations.EventsOtherThanWritesChangeOnlyWhatTheySay := by
  intro s
  refine ⟨step_of_no_event, fun a rest h => ?_, fun rest h => ?_⟩
  · rw [step_of_event h, performEvent, hostRead_withPending]
  · rw [step_of_event h, performEvent]
    rfl

/-- Settles O7: each row is read at its base and offset, and the gaps between the rows are in none. -/
theorem hostReadFollowsTheMap : Obligations.HostReadFollowsTheMap := by
  intro s
  refine ⟨fun a => by rw [hostRead, hostRead, locate_mod], hostRead_base s .cmd, hostRead_base s .status,
    hostRead_base s .err, hostRead_base s .klen, hostRead_base s .ivlen, ?mlenH, ?mlenL, ?olen, ?eight, ?key, ?four,
    ?rkop, fun i k hk => hostRead_roundKey s i hk, ?msg, ?out, fun a ha => hostRead_reserved s (locate_gap ha)⟩
  case mlenH => exact (congrArg BitVec.toNat (hostRead_base s .mlenH)).trans (highByte_toNat s.mlen)
  case mlenL => exact (congrArg BitVec.toNat (hostRead_base s .mlenL)).trans (lowByte_toNat s.mlen)
  case olen =>
    intro h
    rw [← olen_toNat h]
    exact ⟨(congrArg BitVec.toNat (hostRead_base s .olenH)).trans (highByte_toNat s.olen),
      (congrArg BitVec.toNat (hostRead_base s .olenL)).trans (lowByte_toNat s.olen)⟩
  case eight =>
    exact fun i => ⟨(hostRead_row (r := .iv) s i.isLt).trans (byteAt_fin s.iv i),
      (hostRead_row (r := .cv) s i.isLt).trans (byteAt_fin s.cv i),
      (hostRead_row (r := .blk) s i.isLt).trans (byteAt_fin s.blk i)⟩
  case key => exact fun i => (hostRead_row (r := .key) s i.isLt).trans (byteAt_fin s.key i)
  case four =>
    exact fun i => ⟨(hostRead_row (r := .hb) s i.isLt).trans (byteAt_fin s.hb i),
      (hostRead_row (r := .fo) s i.isLt).trans (byteAt_fin s.fo i)⟩
  case rkop => exact fun i => (hostRead_row (r := .rkop) s i.isLt).trans (byteAt_fin s.rkop i)
  case msg => exact fun off h => hostRead_row (r := .msg) s h
  case out =>
    intro off h
    have hrow : hostRead s (0x20000 + off) = s.out.getD off 0 := hostRead_row (r := .out) s h
    rw [hrow, List.getD_eq_getElem?_getD, List.getD_getElem?]

end Sys2Proof.Machine
end

section
/-! The round-key window in the terms of R49: the bits of an entry eight at a time (O8). -/

namespace Sys2Proof.Machine

/-- The last position of a sequence is the least significant (R76). -/
theorem uint_concat (k : BitSeq) (b : Bool) : uint (k ++ [b]) = 2 * uint k + b.toNat := by
  simp [uint]

/-- `bits_n` puts the lowest bit last (R77). -/
theorem bitsN_succ (n v : Nat) : bitsN (n + 1) v = bitsN n (v / 2) ++ [v.testBit 0] := by
  rw [bitsN, bitsN, List.range_succ, List.map_append]
  congr 1
  · refine List.map_congr_left fun i hi => ?_
    have hi := List.mem_range.1 hi
    rw [← Nat.testBit_succ]
    congr 1
    omega
  · simp

/-- `uint` inverts `bits_n` on the low `n` bits (R77). -/
theorem uint_bitsN (n v : Nat) : uint (bitsN n v) = v % 2 ^ n := by
  induction n generalizing v with
  | zero => simp [bitsN, uint, Nat.mod_one]
  | succ n ih =>
    rw [bitsN_succ, uint_concat, ih, Nat.toNat_testBit, pow_succ', Nat.mod_mul, pow_zero, Nat.div_one, add_comm]

/-- Positions `a + 1` to `a + m` of a number's bits are the bits of that number less the positions after them. -/
theorem slice_bitsN {n m a : Nat} (h : a + m ≤ n) (v : Nat) :
    slice (bitsN n v) (a + 1) (a + m) = bitsN m (v >>> (n - (a + m))) := by
  have hlen : (slice (bitsN n v) (a + 1) (a + m)).length = m := by
    rw [slice_length _ _ _ (by simpa using h) (by omega)]; omega
  refine List.ext_getElem (by rw [hlen, bitsN_length]) fun i hi _ => ?_
  rw [hlen] at hi
  simp only [slice, bitsN, List.getElem_take, List.getElem_drop, List.getElem_map, List.getElem_range,
    Nat.testBit_shiftRight]
  congr 1
  omega

/-- Bytes 4 and 5 of an entry are its last 16 bits. -/
theorem extractLsb'_zero_of_tail {x : BitVec 48} (h : x.extractLsb' 0 16 = 0) {k : Nat} (h4 : 4 ≤ k) (h6 : k < 6) :
    x.extractLsb' (40 - 8 * k) 8 = 0 := by
  have hpart : x.extractLsb' (40 - 8 * k) 8 = (x.extractLsb' 0 16).extractLsb' (40 - 8 * k) 8 := by
    rw [BitVec.extractLsb'_extractLsb'_of_le (by omega)]
  rw [hpart, h]
  simp

/-- Settles O8: byte `k` of the window is a slice of the entry's bits read as a number. -/
theorem roundKeyWindowShowsTheFile : Obligations.RoundKeyWindowShowsTheFile := by
  intro s i k hk
  rw [hostRead_roundKey s i hk]
  refine ⟨fun h6 => ?_, fun h6 => if_neg (by omega), fun htail h4 => ?_⟩
  · rw [if_pos h6, slice_bitsN (by omega), uint_bitsN, BitVec.extractLsb'_toNat]
    congr 2
    omega
  · split
    · exact extractLsb'_zero_of_tail htail h4 ‹_›
    · rfl

end Sys2Proof.Machine
end

section
/-! What a host write to an address other than `CMD` changes (20_memory.md R38, R39; O9, O10). -/

namespace Sys2Proof.Machine

/-- A host write at this offset of a row stores its byte (R38): the row is marked W, and `MSG` ends at `BUF_MAX`. -/
def Accepts (s : State) (r : Region) (off : Nat) : Prop :=
  regionStores r = true ∧ (r = .msg → off < s.cfg.bufMax)

/-- What no store reaches: `OUT`, the parameters, the sequencer, and the two lists of the host port. -/
def StoreFrame (s t : State) : Prop :=
  t.out = s.out ∧ t.cfg = s.cfg ∧ t.dst = s.dst ∧ t.mst = s.mst ∧ t.pending = s.pending ∧ t.returned = s.returned

theorem StoreFrame.refl (s : State) : StoreFrame s s := ⟨rfl, rfl, rfl, rfl, rfl, rfl⟩

/-! ### The writable addresses -/

section Writable

variable {s : State} {a : Nat}

theorem hostWritable_located {r : Region} {off : Nat} (h : locate a = some (r, off)) :
    hostWritable s a ↔ Accepts s r off := by
  obtain ⟨haddr, hoff⟩ := locate_eq_some.1 h
  rw [hostAddress] at haddr
  rw [hostWritable, Accepts, haddr]
  cases r <;> simp [regionBase, regionSize, regionStores] at hoff ⊢ <;> omega

/-- The ranges of writable addresses are covered by the rows marked W (R36). -/
theorem hostWritable_not_reserved (h : hostWritable s a) : locate a ≠ none := by
  intro hnone
  have hout (r : Region) : ¬(regionBase r ≤ a % 2 ^ 18 ∧ a % 2 ^ 18 < regionBase r + regionSize r) := fun hin =>
    Bool.eq_false_iff.1 (locate_eq_none.1 hnone r) ((inRegion_iff _ r).2 hin)
  rcases h with hregs | hiv | hbuf | hrkop | hmsg
  · have hrows := And.intro (And.intro (hout .klen) (hout .ivlen)) (And.intro (hout .mlenH) (hout .mlenL))
    simp only [regionBase, regionSize] at hrows
    omega
  · exact hout .iv (by simp only [regionBase, regionSize]; omega)
  · have hrows := And.intro (hout .key) (And.intro (hout .blk) (hout .hb))
    simp only [regionBase, regionSize] at hrows
    omega
  · exact hout .rkop (by simp only [regionBase, regionSize]; omega)
  · exact hout .msg (by simp only [regionBase, regionSize]; omega)

theorem hostWritable_iff : hostWritable s a ↔ ∃ r off, locate a = some (r, off) ∧ Accepts s r off := by
  constructor
  · intro h
    obtain ⟨⟨r, off⟩, hloc⟩ := Option.ne_none_iff_exists'.1 (hostWritable_not_reserved h)
    exact ⟨r, off, hloc, (hostWritable_located hloc).1 h⟩
  · rintro ⟨r, off, hloc, hacc⟩
    exact (hostWritable_located hloc).2 hacc

/-- `CMD` is not among the addresses that store their byte (R38). -/
theorem hostWritable_not_cmd (h : hostWritable s a) : a % 2 ^ 18 ≠ 0 := by
  intro hcmd
  have hacc := (hostWritable_located (locate_cmd.2 hcmd)).1 h
  cases hacc.1

/-- Two addresses in the same place are the same modulo 2^18 (R35). -/
theorem locate_injective {b : Nat} {x : Region × Nat} (ha : locate a = some x) (hb : locate b = some x) :
    a % 2 ^ 18 = b % 2 ^ 18 :=
  (locate_eq_some.1 ha).1.trans (locate_eq_some.1 hb).1.symm

end Writable

/-! ### A byte stored in a row -/

theorem byteAt_set_same {n i : Nat} (v : Vector Byte n) (h : i < n) (x : Byte) :
    byteAt (v.setIfInBounds i x) i = x := by
  simp [byteAt, h]

theorem byteAt_set_other {n i j : Nat} (v : Vector Byte n) (h : j ≠ i) (x : Byte) :
    byteAt (v.setIfInBounds i x) j = byteAt v j := by
  simp [byteAt, List.getD_eq_getElem?_getD, List.getElem?_set_ne h.symm]

section Store

variable {s : State} {r : Region} {off : Nat} {v : Byte}

theorem storeByte_frame (s : State) (r : Region) (off : Nat) (v : Byte) : StoreFrame s (storeByte s r off v) := by
  cases r with
  | msg =>
    simp only [storeByte]
    split
    · exact ⟨rfl, rfl, rfl, rfl, rfl, rfl⟩
    · exact .refl s
  | _ => exact ⟨rfl, rfl, rfl, rfl, rfl, rfl⟩

theorem storeByte_not_accepted (h : ¬Accepts s r off) : storeByte s r off v = s := by
  cases hr : regionStores r with
  | false => exact storeByte_ignored hr s off v
  | true =>
    simp only [Accepts, hr, true_and, Classical.not_imp] at h
    obtain ⟨rfl, hoff⟩ := h
    exact if_neg hoff

theorem regionByte_storeByte_same (hwf : s.msg.wf = true) (h : Accepts s r off) (hoff : off < regionSize r) :
    regionByte (storeByte s r off v) r off = v := by
  obtain ⟨hstores, hmsg⟩ := h
  cases r with
  | klen | ivlen => rfl
  | mlenH => exact BitVec.extractLsb'_append_eq_left
  | mlenL => exact BitVec.extractLsb'_append_eq_right
  | iv | key | blk | hb | rkop => exact byteAt_set_same _ hoff v
  | msg => simp [storeByte, regionByte, hmsg rfl, memory_read_write hwf]
  | cmd | status | err | olenH | olenL | cv | fo | rk | out => cases hstores

/-- The other bytes of the row stay. -/
theorem regionByte_storeByte_offset (hwf : s.msg.wf = true) (hoff : off < regionSize r) {x : Nat}
    (hx : x < regionSize r) (hne : x ≠ off) : regionByte (storeByte s r off v) r x = regionByte s r x := by
  cases r with
  | klen | ivlen | mlenH | mlenL => simp only [regionSize] at hoff hx; omega
  | iv | key | blk | hb | rkop => exact byteAt_set_other _ hne v
  | msg =>
    simp only [storeByte]
    split
    · simp [regionByte, memory_read_write hwf, hne]
    · rfl
  | cmd | status | err | olenH | olenL | cv | fo | rk | out => rfl

/-- The other rows stay, the other half of `MLEN` among them. -/
theorem regionByte_storeByte_row {q : Region} (hq : q ≠ r) (x : Nat) :
    regionByte (storeByte s r off v) q x = regionByte s q x := by
  have hhigh : (s.mlen.extractLsb' 8 8 ++ v).extractLsb' 8 8 = s.mlen.extractLsb' 8 8 :=
    BitVec.extractLsb'_append_eq_left
  have hlow : (v ++ s.mlen.extractLsb' 0 8).extractLsb' 0 8 = s.mlen.extractLsb' 0 8 :=
    BitVec.extractLsb'_append_eq_right
  cases r with
  | msg =>
    simp only [storeByte]
    split
    · cases q <;> first | rfl | exact absurd rfl hq
    · rfl
  | mlenH =>
    cases q with
    | mlenH => exact absurd rfl hq
    | mlenL => exact hlow
    | _ => rfl
  | mlenL =>
    cases q with
    | mlenL => exact absurd rfl hq
    | mlenH => exact hhigh
    | _ => rfl
  | _ => cases q <;> first | rfl | exact absurd rfl hq

end Store

/-! ### A byte stored at an address -/

theorem hostStore_located (s : State) {a off : Nat} {r : Region} (v : Byte) (h : locate a = some (r, off)) :
    hostStore s a v = storeByte s r off v := by
  rw [hostStore, h]

theorem hostStore_frame (s : State) (a : Nat) (v : Byte) : StoreFrame s (hostStore s a v) := by
  unfold hostStore
  split
  · exact storeByte_frame s _ _ v
  · exact .refl s

theorem hostStore_ignored {s : State} {a : Nat} (v : Byte) (h : ¬hostWritable s a) : hostStore s a v = s := by
  cases hloc : locate a with
  | none => rw [hostStore, hloc]
  | some x => rw [hostStore_located s v hloc, storeByte_not_accepted (mt (hostWritable_located hloc).2 h)]

/-- A read after a write to a writable address: the byte written there, the old byte at every other address. -/
theorem hostRead_hostStore {s : State} {a : Nat} (hwf : s.msg.wf = true) (h : hostWritable s a) (v : Byte) (b : Nat) :
    hostRead (hostStore s a v) b = if b % 2 ^ 18 = a % 2 ^ 18 then v else hostRead s b := by
  obtain ⟨r, off, hloc, hacc⟩ := hostWritable_iff.1 h
  have hoff := locate_offset_lt hloc
  rw [hostStore_located s v hloc]
  split
  · rename_i hab
    have hb : locate b = some (r, off) := by rw [← locate_mod, hab, locate_mod, hloc]
    rw [hostRead_located _ hb, regionByte_storeByte_same hwf hacc hoff]
  · rename_i hab
    cases hb : locate b with
    | none => rw [hostRead_reserved _ hb, hostRead_reserved _ hb]
    | some y =>
      obtain ⟨q, x⟩ := y
      rw [hostRead_located _ hb, hostRead_located _ hb]
      by_cases hq : q = r
      · subst hq
        exact regionByte_storeByte_offset hwf hoff (locate_offset_lt hb) fun hx =>
          hab (locate_injective hb (hx ▸ hloc))
      · exact regionByte_storeByte_row hq x

/-- Settles O9: the step is a store, and a store shows at its own address only. -/
theorem hostWriteStoresOneByte : Obligations.HostWriteStoresOneByte := by
  intro s a v rest hwf hp hw
  have hread := hostRead_hostStore (s := { s with pending := rest }) hwf hw v
  refine ⟨_, step_of_store hp (hostWritable_not_cmd hw), ?_, fun b hb => ?_, hostStore_frame _ a v⟩
  · rw [hread, if_pos rfl]
  · rw [hread, if_neg hb, hostRead_withPending]

/-- Settles O10: the step is a store that no row accepts. -/
theorem hostWriteElsewhereIsIgnored : Obligations.HostWriteElsewhereIsIgnored := by
  intro s a v rest hp hcmd hw
  rw [step_of_store hp hcmd]
  exact congrArg _ (hostStore_ignored (s := { s with pending := rest }) v hw)

end Sys2Proof.Machine
end

section
/-! The decoder and the encoder (30_encoding.md R55 to R61) undo each other, on the fields and on the byte, and an illegal
byte only reports its error (O1, O2, O3). -/

namespace Sys2Proof

/-! ### The byte and its fields -/

theorem joinCommand_splitCommand (w : Byte) : joinCommand (splitCommand w) = w := by
  have hhigh : w.extractLsb' 7 1 ++ w.extractLsb' 5 2 = w.extractLsb' 5 3 :=
    BitVec.extractLsb'_append_extractLsb'_eq_extractLsb' rfl
  have hupper : w.extractLsb' 5 3 ++ w.extractLsb' 4 1 = w.extractLsb' 4 4 :=
    BitVec.extractLsb'_append_extractLsb'_eq_extractLsb' rfl
  have hall : w.extractLsb' 4 4 ++ w.extractLsb' 0 4 = w.extractLsb' 0 8 :=
    BitVec.extractLsb'_append_extractLsb'_eq_extractLsb' rfl
  simp only [joinCommand, splitCommand]
  rw [hhigh, hupper, hall, BitVec.extractLsb'_eq_self]

theorem splitCommand_joinCommand (f : CommandFields) : splitCommand (joinCommand f) = f := by
  obtain ⟨rsv, mode, cipher, op⟩ := f
  simp only [splitCommand, joinCommand, CommandFields.mk.injEq]
  refine ⟨?_, ?_, ?_, BitVec.extractLsb'_append_eq_right⟩
  · rw [BitVec.extractLsb'_append_eq_of_le (by decide), BitVec.extractLsb'_append_eq_of_le (by decide)]
    exact BitVec.extractLsb'_append_eq_left
  · rw [BitVec.extractLsb'_append_eq_of_le (by decide), BitVec.extractLsb'_append_eq_of_le (by decide)]
    exact BitVec.extractLsb'_append_eq_right
  · rw [BitVec.extractLsb'_append_eq_of_le (by decide)]
    exact BitVec.extractLsb'_append_eq_right

section Fields

variable (w : Byte)

theorem splitCommand_rsv_eq_zero : (splitCommand w).rsv = 0 ↔ w.getLsbD 7 = false := by
  simp [splitCommand, BitVec.eq_of_getLsbD_eq_iff]

theorem splitCommand_op_toNat : (splitCommand w).op.toNat = w.toNat % 16 := by
  simp [splitCommand]

theorem splitCommand_mode_eq_zero : (splitCommand w).mode = 0 ↔ w.toNat / 32 % 4 = 0 := by
  simp [splitCommand, BitVec.toNat_eq, Nat.shiftRight_eq_div_pow]

theorem splitCommand_cipher_eq_zero : (splitCommand w).cipher = 0 ↔ w.toNat / 16 % 2 = 0 := by
  simp [splitCommand, BitVec.toNat_eq, Nat.shiftRight_eq_div_pow]

end Fields

/-! ### Fields to a command and back -/

theorem encodeCipher_decodeCipher (b : BitVec 1) : encodeCipher (some (decodeCipher b)) = b := by
  revert b; decide

theorem encodeMode_decodeMode (b : BitVec 2) : encodeMode (some (decodeMode b)) = b := by
  revert b; decide

/-! The fields of the families with a cipher (R56). -/

theorem encodeFields_kexpInstr (c : Cipher) : encodeFields (kexpInstr c) = ⟨0, 0, encodeCipher (some c), 2⟩ := by
  cases c <;> rfl
theorem encodeFields_frndInstr (c : Cipher) : encodeFields (frndInstr c) = ⟨0, 0, encodeCipher (some c), 3⟩ := by
  cases c <;> rfl
theorem encodeFields_bencInstr (c : Cipher) : encodeFields (bencInstr c) = ⟨0, 0, encodeCipher (some c), 4⟩ := by
  cases c <;> rfl
theorem encodeFields_bdecInstr (c : Cipher) : encodeFields (bdecInstr c) = ⟨0, 0, encodeCipher (some c), 5⟩ := by
  cases c <;> rfl
theorem encodeFields_mencInstr (c : Cipher) (m : Mode) :
    encodeFields (mencInstr c m) = ⟨0, encodeMode (some m), encodeCipher (some c), 6⟩ := by
  cases c <;> cases m <;> rfl
theorem encodeFields_mdecInstr (c : Cipher) (m : Mode) :
    encodeFields (mdecInstr c m) = ⟨0, encodeMode (some m), encodeCipher (some c), 7⟩ := by
  cases c <;> cases m <;> rfl

/-- The table of R61 inverts R56 to R58 on every command. -/
theorem decodeFields_encodeFields (i : Instr) : decodeFields (encodeFields i) = .ok i := by
  cases i using Instr.byFamily with
  | nop | clr => rfl
  | kexp c | frnd c | benc c | bdec c => cases c <;> rfl
  | menc c m | mdec c m => cases c <;> cases m <;> rfl

theorem fields_eq {f : CommandFields} {m : BitVec 2} {c : BitVec 1} {k : BitVec 4} (hrsv : f.rsv = 0)
    (hmode : f.mode = m) (hcipher : f.cipher = c) (hop : f.op.toNat = k.toNat) : ⟨0, m, c, k⟩ = f := by
  rw [← hrsv, ← hmode, ← hcipher, ← BitVec.eq_of_toNat_eq hop]

/-- The fields of the command that `decodeFields` answers are the fields it read. -/
theorem encodeFields_of_decodeFields {f : CommandFields} {i : Instr} (h : decodeFields f = .ok i) :
    encodeFields i = f := by
  unfold decodeFields at h
  split at h
  case isTrue => cases h
  case isFalse hrsv =>
    have hrsv := not_not.1 hrsv
    split at h
    case h_1 hop | h_2 hop =>
      split at h <;> cases h
      rename_i hclear
      obtain ⟨hcipher, hmode⟩ := not_or.1 hclear
      exact fields_eq hrsv (not_not.1 hmode) (not_not.1 hcipher) hop
    case h_3 hop | h_4 hop | h_5 hop | h_6 hop =>
      split at h <;> cases h
      rename_i hmode
      simp only [encodeFields_kexpInstr, encodeFields_frndInstr, encodeFields_bencInstr, encodeFields_bdecInstr]
      exact fields_eq hrsv (not_not.1 hmode) (encodeCipher_decodeCipher _).symm hop
    case h_7 hop | h_8 hop =>
      cases h
      simp only [encodeFields_mencInstr, encodeFields_mdecInstr]
      exact fields_eq hrsv (encodeMode_decodeMode _).symm (encodeCipher_decodeCipher _).symm hop
    case h_9 => cases h

theorem decodeFields_eq_ok_iff {f : CommandFields} {i : Instr} : decodeFields f = .ok i ↔ encodeFields i = f :=
  ⟨encodeFields_of_decodeFields, fun h => h ▸ decodeFields_encodeFields i⟩

theorem exists_error_iff {P : Prop} [Decidable P] (r : IllegalReason) (i : Instr) :
    (∃ x, (if P then .error r else .ok i : Except IllegalReason Instr) = .error x) ↔ P := by
  split <;> simp [*]

/-- The four cases of R59, on the fields of a byte. -/
theorem decodeFields_eq_error_iff (f : CommandFields) :
    (∃ x, decodeFields f = .error x) ↔ f.rsv ≠ 0 ∨ 8 ≤ f.op.toNat ∨
      (f.op.toNat ≤ 1 ∧ (f.cipher ≠ 0 ∨ f.mode ≠ 0)) ∨ (2 ≤ f.op.toNat ∧ f.op.toNat ≤ 5 ∧ f.mode ≠ 0) := by
  unfold decodeFields
  split
  case isTrue hrsv => exact ⟨fun _ => .inl hrsv, fun _ => ⟨_, rfl⟩⟩
  case isFalse hrsv =>
    rw [or_iff_right hrsv]
    split
    case h_1 hop | h_2 hop | h_3 hop | h_4 hop | h_5 hop | h_6 hop =>
      rw [exists_error_iff, hop]
      simp
    case h_7 hop | h_8 hop => simp [hop]
    case h_9 =>
      have hop : 8 ≤ f.op.toNat := by
        simp only [imp_false] at *
        omega
      simp [hop]

/-! ### The byte of a command -/

theorem decode_eq_ok_iff {w : Byte} {i : Instr} : decode w = .ok i ↔ encode i = w := by
  rw [decode, decodeFields_eq_ok_iff, encode]
  constructor
  · intro h
    rw [h, joinCommand_splitCommand]
  · intro h
    rw [← h, splitCommand_joinCommand]

theorem decode_encode (i : Instr) : decode (encode i) = .ok i := decode_eq_ok_iff.2 rfl

theorem encode_injective : Function.Injective encode := fun i j h => by
  have hi := decode_encode i
  rw [h, decode_encode] at hi
  cases hi
  rfl

/-- Settles O1: `decode` answers a command exactly on the byte of that command. -/
theorem decodeEncodeAgree : Obligations.DecodeEncodeAgree :=
  ⟨decode_encode, fun _ _ => decode_eq_ok_iff.1⟩

/-- Settles O3: each byte of the map is the one its command encodes to. -/
theorem opcodeMapDecodes : Obligations.OpcodeMapDecodes := by
  simp only [Obligations.OpcodeMapDecodes, decode_eq_ok_iff]
  decide

/-! ### The illegal bytes -/

/-- The four cases of R59, on the byte. -/
theorem decode_eq_error_iff (w : Byte) :
    (∃ x, decode w = .error x) ↔
      (w.getLsbD 7 = true ∨ 8 ≤ w.toNat % 16 ∨ (w.toNat % 16 ≤ 1 ∧ w.toNat / 16 % 8 ≠ 0) ∨
        (2 ≤ w.toNat % 16 ∧ w.toNat % 16 ≤ 5 ∧ w.toNat / 32 % 4 ≠ 0)) := by
  have hsystem : w.toNat / 16 % 8 ≠ 0 ↔ w.toNat / 16 % 2 ≠ 0 ∨ w.toNat / 32 % 4 ≠ 0 := by omega
  rw [decode, decodeFields_eq_error_iff, hsystem, splitCommand_op_toNat, Ne, splitCommand_rsv_eq_zero, Ne,
    splitCommand_cipher_eq_zero, Ne, splitCommand_mode_eq_zero, Bool.not_eq_false]

theorem mem_allInstrs (i : Instr) : i ∈ allInstrs := by cases i <;> decide

theorem allInstrs_nodup : allInstrs.Nodup := by decide

/-- A byte is legal exactly when it is the byte of a command. -/
theorem decode_isSome_iff (w : Byte) : (decode w).toOption.isSome = true ↔ ∃ i, encode i = w := by
  constructor
  · intro h
    cases hw : decode w with
    | ok i => exact ⟨i, decode_eq_ok_iff.1 hw⟩
    | error x => rw [hw] at h; cases h
  · rintro ⟨i, rfl⟩
    rw [decode_encode]
    rfl

/-- The legal bytes, as numbers, are those of the commands. -/
theorem legalBytes_perm :
    ((List.range 256).filter fun n => (decode (BitVec.ofNat 8 n)).toOption.isSome).Perm
      (allInstrs.map fun i => (encode i).toNat) := by
  have hinj : Function.Injective fun i => (encode i).toNat := fun _ _ h => encode_injective (BitVec.eq_of_toNat_eq h)
  refine (List.perm_ext_iff_of_nodup (List.nodup_range.filter _) (allInstrs_nodup.map hinj)).2 fun n => ?_
  simp only [List.mem_filter, List.mem_range, decode_isSome_iff, List.mem_map, mem_allInstrs, true_and]
  constructor
  · rintro ⟨hn, i, hi⟩
    exact ⟨i, by rw [hi, BitVec.toNat_ofNat, Nat.mod_eq_of_lt hn]⟩
  · rintro ⟨i, rfl⟩
    exact ⟨(encode i).isLt, i, by simp⟩

/-- Of the 256 bytes 26 are those of the commands. -/
theorem illegalBytes_length :
    ((List.range 256).filter fun n => (decode (BitVec.ofNat 8 n)).toOption.isNone).length = 230 := by
  have hlegal := legalBytes_perm.length_eq
  have hsplit := List.length_eq_countP_add_countP (fun n => (decode (BitVec.ofNat 8 n)).toOption.isSome)
    (l := List.range 256)
  have hcommands : allInstrs.length = 26 := rfl
  simp only [List.countP_eq_length_filter, List.length_range, Bool.not_eq_true, Option.isSome_eq_false_iff,
    Bool.decide_eq_true, List.length_map] at hsplit hlegal
  omega

end Sys2Proof

namespace Sys2Proof.Machine

theorem outcomeFlags_statusError (v : Byte) : OutcomeFlags v (statusError v) false := by
  refine ⟨?_, ?_, fun i hi => ?_⟩
  · rw [statusError_getLsbD]; rfl
  · rw [statusError_getLsbD]; rfl
  · rw [statusError_getLsbD, if_neg (by omega), if_neg (by omega)]

theorem executeByte_of_ok {w : Byte} {i : Instr} (h : decode w = .ok i) (s : State) : executeByte w s = exec i s := by
  rw [executeByte, h]

/-- R59, R178: an illegal byte raises `IllegalCommand` and changes nothing else. -/
theorem executeByte_of_error {w : Byte} {x : IllegalReason} (h : decode w = .error x) (s : State) :
    ∃ t, executeByte w s = .next t ∧ t = { s with status := t.status, err := 6 } ∧
      OutcomeFlags s.status t.status false := by
  refine ⟨raise .illegalCommand false s, ?_, rfl, outcomeFlags_statusError s.status⟩
  rw [executeByte, h]

/-- Settles O2: the cases are those of the decoder's fields, and the legal bytes are counted by the commands. -/
theorem illegalBytesAreThoseListed : Obligations.IllegalBytesAreThoseListed :=
  ⟨decode_eq_error_iff, illegalBytes_length, fun _ _ s h => executeByte_of_error h s⟩

end Sys2Proof.Machine
end

section
/-! A host write to `CMD` runs the command its byte decodes to (30_encoding.md R59, R61; O4). -/

namespace Sys2Proof.Machine

theorem step_of_command {s : State} {a : Nat} {w : Byte} {rest : List HostEvent}
    (h : s.pending = .write a w :: rest) (ha : a % 2 ^ 18 = 0) :
    step s = executeByte w { s with pending := rest } := by
  rw [step_of_event h, performEvent, if_pos (locate_cmd.2 ha)]

theorem step_withFetchWord_encode (s : State) (i : Instr) : step (s.withFetchWord 8 (encode i).toNat) = exec i s := by
  have hbyte : BitVec.ofNat 8 ((encode i).toNat % 2 ^ 8) = encode i := by
    rw [Nat.mod_eq_of_lt (encode i).isLt, BitVec.ofNat_toNat, BitVec.setWidth_eq]
  have hp : (s.withFetchWord 8 (encode i).toNat).pending = .write 0 (encode i) :: s.pending := by
    rw [State.withFetchWord, hbyte, queueCommand]
  rw [step_of_command hp rfl, executeByte_of_ok (decode_encode i)]
  rfl

/-- Settles O4: the step is the execution of the byte. -/
theorem stepRunsTheDecodedCommand : Obligations.StepRunsTheDecodedCommand := by
  refine ⟨fun s a w rest hp ha => ?_, step_withFetchWord_encode⟩
  rw [step_of_command hp ha]
  exact ⟨fun i hi => executeByte_of_ok hi _, fun x hx => executeByte_of_error hx _⟩

end Sys2Proof.Machine
end

section
/-! Host writes in a row: a line of the host script that only stores bytes is performed store by store
(20_memory.md R38, R45; 30_encoding.md R63). -/

namespace Sys2Proof.Machine

/-! ### A list of stores -/

/-- The event is a host write to an address other than `CMD`. -/
def IsStore : HostEvent → Prop
  | .write a _ => a % 2 ^ 18 ≠ 0
  | _ => False

theorem isStore_write {a : Nat} {v : Byte} (h : a % 2 ^ 18 ≠ 0) : IsStore (.write a v) := h

/-- What a store does to the state (R38). -/
def storeEvent (s : State) : HostEvent → State
  | .write a v => hostStore s a v
  | _ => s

/-- A store does not touch what waits at the host port, and does not depend on it. -/
theorem hostStore_withPending (s : State) (l : List HostEvent) (a : Nat) (v : Byte) :
    hostStore { s with pending := l } a v = { hostStore s a v with pending := l } := by
  cases h : locate a with
  | none => rw [hostStore, hostStore, h]
  | some x =>
    obtain ⟨r, off⟩ := x
    rw [hostStore_located _ v h, hostStore_located _ v h]
    cases r with
    | msg =>
      simp only [storeByte]
      split <;> rfl
    | _ => rfl

theorem run_zero (s : State) : Host.Core.run Sys2Proof.core 0 s = .next s := rfl

theorem run_succ {s t : State} (h : step s = .next t) (k : Nat) :
    Host.Core.run Sys2Proof.core (k + 1) s = Host.Core.run Sys2Proof.core k t := by
  have hcore : Sys2Proof.core.step s = .next t := h
  simp only [Host.Core.run, hcore]

/-- A waiting list of stores is performed one per step (R45). -/
theorem run_stores {es rest : List HostEvent} (hes : ∀ e ∈ es, IsStore e) {s : State} (hp : s.pending = es ++ rest) :
    Host.Core.run Sys2Proof.core es.length s = .next (es.foldl storeEvent { s with pending := rest }) := by
  induction es generalizing s with
  | nil =>
    have hs : s = { s with pending := rest } := by rw [← hp.trans (List.nil_append rest)]
    exact (run_zero s).trans (congrArg _ hs)
  | cons e es ih =>
    obtain ⟨he, htail⟩ := List.forall_mem_cons.1 hes
    cases e with
    | write a v =>
      have hpending : (hostStore { s with pending := es ++ rest } a v).pending = es ++ rest := by
        rw [hostStore_withPending]
      have hcommute : { hostStore { s with pending := es ++ rest } a v with pending := rest } =
          storeEvent { s with pending := rest } (.write a v) := by
        rw [storeEvent, hostStore_withPending s rest, hostStore_withPending s (es ++ rest)]
      exact (run_succ (step_of_store hp he) es.length).trans
        ((ih htail hpending).trans (congrArg (fun t => Host.Outcome.next (es.foldl storeEvent t)) hcommute))
    | read a | reset => exact he.elim

/-! ### Consecutive addresses -/

/-- Bytes at consecutive addresses short of the end of the address space miss `CMD`. -/
theorem writeBytes_isStore {a : Nat} {h : List Byte} (ha : 0 < a) (hend : a + h.length ≤ 2 ^ 18) :
    ∀ e ∈ writeBytes a h, IsStore e := by
  induction h generalizing a with
  | nil => simp [writeBytes]
  | cons v h ih =>
    rw [List.length_cons] at hend
    rw [writeBytes, List.forall_mem_cons]
    refine ⟨isStore_write ?_, ih (by omega) (by omega)⟩
    rw [Nat.mod_eq_of_lt (by omega)]
    omega

theorem storeEvent_row (s : State) {r : Region} {off : Nat} (v : Byte) (h : off < regionSize r) :
    storeEvent s (.write (regionBase r + off) v) = storeByte s r off v :=
  hostStore_located s v (locate_row h)

/-! ### The rows a line writes -/

/-- `v` with the bytes of `h` from index `off` on; what would pass the end is dropped. -/
def setFrom {n : Nat} (v : Vector Byte n) : Nat → List Byte → Vector Byte n
  | _, [] => v
  | off, x :: h => setFrom (v.setIfInBounds off x) (off + 1) h

/-- `m` with the bytes of `h` from offset `off` on. -/
def writeFrom (m : Memory) : Nat → List Byte → Memory
  | _, [] => m
  | off, x :: h => writeFrom (m.write off x) (off + 1) h

theorem setFrom_getElem {n : Nat} (v : Vector Byte n) (off : Nat) (h : List Byte) (i : Nat) (hi : i < n) :
    (setFrom v off h)[i] = if off ≤ i then h.getD (i - off) v[i] else v[i] := by
  induction h generalizing v off with
  | nil => simp [setFrom]
  | cons x h ih =>
    rw [setFrom, ih, Vector.getElem_setIfInBounds hi]
    rcases lt_trichotomy off i with hlt | rfl | hgt
    · rw [if_pos (by omega), if_neg (by omega), if_pos (by omega), ← List.getD_cons_succ (x := x)]
      congr 1
      omega
    · simp
    · rw [if_neg (by omega), if_neg (by omega), if_neg (by omega)]

theorem writeFrom_read {m : Memory} (hm : m.wf = true) (off : Nat) (h : List Byte) (b : Nat) :
    (writeFrom m off h).read b = if off ≤ b then h.getD (b - off) (m.read b) else m.read b := by
  induction h generalizing m off with
  | nil => simp [writeFrom]
  | cons x h ih =>
    rw [writeFrom, ih (memory_write_wf hm off x), memory_read_write hm]
    rcases lt_trichotomy off b with hlt | rfl | hgt
    · rw [if_pos (by omega), if_neg (by omega), if_pos (by omega), ← List.getD_cons_succ (x := x)]
      congr 1
      omega
    · simp
    · rw [if_neg (by omega), if_neg (by omega), if_neg (by omega)]

/-- Bytes written to the `KEY` row go to `KEY` (R38). -/
theorem storeEvents_key (s : State) {off : Nat} {h : List Byte} (hend : off + h.length ≤ 32) :
    (writeBytes (regionBase .key + off) h).foldl storeEvent s = { s with key := setFrom s.key off h } := by
  induction h generalizing s off with
  | nil => rfl
  | cons x h ih =>
    rw [List.length_cons] at hend
    rw [writeBytes, List.foldl_cons, storeEvent_row s x (by simp only [regionSize]; omega), Nat.add_assoc,
      ih _ (by omega)]
    rfl

/-- Bytes written to the `MSG` row below `BUF_MAX` go to `MSG` (R38). -/
theorem storeEvents_msg (s : State) {off : Nat} {h : List Byte} (hfit : off + h.length ≤ s.cfg.bufMax)
    (hend : off + h.length ≤ 0x10000) :
    (writeBytes (regionBase .msg + off) h).foldl storeEvent s = { s with msg := writeFrom s.msg off h } := by
  induction h generalizing s off with
  | nil => rfl
  | cons x h ih =>
    rw [List.length_cons] at hfit hend
    have hstore : storeByte s .msg off x = { s with msg := s.msg.write off x } := if_pos (by omega)
    rw [writeBytes, List.foldl_cons, storeEvent_row s x (by simp only [regionSize]; omega), Nat.add_assoc, hstore]
    exact ih { s with msg := s.msg.write off x } (by simp only; omega) (by omega)

/-- The two bytes of `MLEN`, the high one first (R41). -/
theorem highByte_append_lowByte (n : Nat) :
    BitVec.ofNat 8 (n / 256) ++ BitVec.ofNat 8 n = BitVec.ofNat 16 n := by
  apply BitVec.eq_of_getLsbD_eq
  intro i hi
  rw [BitVec.getLsbD_append, BitVec.getLsbD_ofNat, BitVec.getLsbD_ofNat, BitVec.getLsbD_ofNat]
  split
  · simp [*]
  · rw [show 256 = 2 ^ 8 from rfl, Nat.testBit_div_two_pow, Nat.sub_add_cancel (by omega)]
    simp [show i - 8 < 8 by omega, hi]

theorem storeEvents_mlenLine (s : State) (n : Nat) :
    (mlenLine n).foldl storeEvent s = { s with mlen := BitVec.ofNat 16 n } := by
  have hhigh (s : State) (v : Byte) : storeEvent s (.write 0x5 v) = { s with mlen := v ++ s.mlen.extractLsb' 0 8 } :=
    storeEvent_row s v (regionSize_pos .mlenH)
  have hlow (s : State) (v : Byte) : storeEvent s (.write 0x6 v) = { s with mlen := s.mlen.extractLsb' 8 8 ++ v } :=
    storeEvent_row s v (regionSize_pos .mlenL)
  rw [mlenLine, List.foldl_cons, List.foldl_cons, List.foldl_nil, hhigh, hlow, BitVec.extractLsb'_append_eq_left,
    highByte_append_lowByte]

/-! ### The line `key` -/

theorem keyLine_isStore (h : List Byte) : ∀ e ∈ keyLine h, IsStore e := by
  have hlen : (h.take 32).length ≤ 32 := List.length_take_le 32 h
  rw [keyLine, List.forall_mem_append, List.forall_mem_singleton]
  exact ⟨writeBytes_isStore (by decide) (by omega), isStore_write (by decide)⟩

theorem storeEvents_keyLine (s : State) (h : List Byte) :
    (keyLine h).foldl storeEvent s =
      { s with key := setFrom s.key 0 (h.take 32), klen := BitVec.ofNat 8 h.length } := by
  have hkey : (writeBytes 0x00020 (h.take 32)).foldl storeEvent s = { s with key := setFrom s.key 0 (h.take 32) } :=
    storeEvents_key s (off := 0) (by simp)
  rw [keyLine, List.foldl_append, hkey]
  exact storeEvent_row _ _ (regionSize_pos .klen)

/-- Settles O11: the line is a list of stores, those of the key bytes and that of their number. -/
theorem keyLineLoadsTheKey : Obligations.KeyLineLoadsTheKey := by
  intro s h rest _ hp
  refine ⟨_, (run_stores (keyLine_isStore h) hp).trans (congrArg _ (storeEvents_keyLine _ h)), rfl, fun i => ?_⟩
  have hbyte := setFrom_getElem s.key 0 (h.take 32) i.val i.isLt
  simpa [List.getD_eq_getElem?_getD, List.getElem?_take, i.isLt] using hbyte

/-! ### The line `msg` -/

theorem bufMax_le_of_legal {cfg : Config} (h : cfg.legal = true) : cfg.bufMax ≤ 65528 := by
  simp only [Config.legal, Bool.and_eq_true, decide_eq_true_eq] at h
  exact h.2

theorem msgLine_isStore {h : List Byte} (hlen : h.length ≤ 0x10000) : ∀ e ∈ msgLine h, IsStore e := by
  rw [msgLine, List.forall_mem_append]
  refine ⟨writeBytes_isStore (by decide) (by omega), ?_⟩
  rw [mlenLine, List.forall_mem_cons, List.forall_mem_singleton]
  exact ⟨isStore_write (by decide), isStore_write (by decide)⟩

theorem storeEvents_msgLine (s : State) {h : List Byte} (hfit : h.length ≤ s.cfg.bufMax) (hlen : h.length ≤ 0x10000) :
    (msgLine h).foldl storeEvent s =
      { s with msg := writeFrom s.msg 0 h, mlen := BitVec.ofNat 16 h.length } := by
  have hmsg : (writeBytes 0x10000 h).foldl storeEvent s = { s with msg := writeFrom s.msg 0 h } :=
    storeEvents_msg s (off := 0) (by omega) (by omega)
  rw [msgLine, List.foldl_append, hmsg, storeEvents_mlenLine]

theorem message_of_writeFrom {t : State} {m : Memory} {h : List Byte} (hm : m.wf = true)
    (hmsg : t.msg = writeFrom m 0 h) (hmlen : t.mlen.toNat = h.length) : message t = h := by
  apply List.ext_getElem
  · simp [message, hmlen]
  · intro i _ hi
    simp [message, hmsg, writeFrom_read hm, hi]

/-- Settles O12: the line is a list of stores, those of the message bytes and those of the two bytes of their number. -/
theorem msgLineLoadsTheMessage : Obligations.MsgLineLoadsTheMessage := by
  intro s h rest hlegal hwf hfit hp
  have hlen : h.length ≤ 65528 := hfit.trans (bufMax_le_of_legal hlegal)
  have hmlen : (BitVec.ofNat 16 h.length).toNat = h.length := by
    rw [BitVec.toNat_ofNat, Nat.mod_eq_of_lt (by omega)]
  have hfold := storeEvents_msgLine { s with pending := rest } hfit (hlen.trans (by decide))
  refine ⟨_, (run_stores (msgLine_isStore (hlen.trans (by decide))) hp).trans (congrArg _ hfold), rfl,
    message_of_writeFrom hwf rfl hmlen, fun off hoff => ?_⟩
  simp [writeFrom_read hwf, hoff]

end Sys2Proof.Machine
end

section
/-! A bit sequence and the number it denotes determine each other (40_bit_utilities.md R76, R77), and the arithmetic of
`add32` is that of its numbers (R78). -/

namespace Sys2Proof.Machine

/-- `bits_n` inverts `uint`, position after position from the right (R77). -/
theorem bitsN_uint (s : BitSeq) : bitsN s.length (uint s) = s := by
  induction s using List.reverseRecOn with
  | nil => rfl
  | append_singleton s b ih =>
    have hhigh : (2 * uint s + b.toNat) / 2 = uint s := by have := b.toNat_lt; omega
    have hlow : (2 * uint s + b.toNat).testBit 0 = b := by cases b <;> simp [Nat.testBit_zero]
    rw [List.length_append, List.length_singleton, uint_concat, bitsN_succ, hhigh, hlow, ih]

theorem uint_lt (s : BitSeq) : uint s < 2 ^ s.length := by
  have hmod : uint s = uint s % 2 ^ s.length := by rw [← uint_bitsN, bitsN_uint]
  rw [hmod]
  exact Nat.mod_lt _ (by positivity)

/-- Settles O20, from the two directions of the inverse and the positions of `bits_n`. -/
theorem uintAndBitsAreInverse : Obligations.UintAndBitsAreInverse := by
  refine ⟨fun n v hv => ⟨bitsN_length n v, ?_, fun i hpos hi => ?_⟩, fun s => ⟨uint_lt s, bitsN_uint s⟩⟩
  · rw [uint_bitsN, Nat.mod_eq_of_lt hv]
  · rw [bitsN_getD (by omega)]
    congr 1
    omega

theorem uint_zeros (n : Nat) : uint (List.replicate n false) = 0 := by
  simpa [uint] using uint_append_zeros [] n

/-- The sum of the numbers, its carry out of the top bit discarded (R78). -/
theorem uint_add32 (a b : BitSeq) : uint (add32 a b) = (uint a + uint b) % 2 ^ 32 := by
  rw [add32, uint_bitsN, Nat.mod_mod]

theorem add32_comm (a b : BitSeq) : add32 a b = add32 b a := by
  rw [add32, add32, Nat.add_comm]

theorem add32_zeros {a : BitSeq} (h : a.length = 32) : add32 a (List.replicate 32 false) = a := by
  have hlt : uint a < 2 ^ 32 := h ▸ uint_lt a
  calc add32 a (List.replicate 32 false) = bitsN 32 (uint a) := by
        rw [add32, uint_zeros, Nat.add_zero, Nat.mod_eq_of_lt hlt]
    _ = bitsN a.length (uint a) := by rw [h]
    _ = a := bitsN_uint a

/-- Settles O21; the corner case of R78 is one evaluation. -/
theorem addThirtyTwoWraps : Obligations.AddThirtyTwoWraps :=
  ⟨fun a b ha _ => ⟨add32_length a b, uint_add32 a b, add32_comm a b, add32_zeros ha⟩, by decide⟩

end Sys2Proof.Machine
end

section
/-! Bytes and their bits: each byte is eight positions, the most significant bit first, and packing undoes unpacking
(40_bit_utilities.md R70, R71). -/

namespace Sys2Proof.Machine

theorem byteBits_eq_bitsN (b : Byte) : byteBits b = bitsN 8 b.toNat := rfl

/-- Position `i + 1` of a byte's bits is bit `7 - i` (R70). -/
theorem byteBits_getD (b : Byte) {i : Nat} (h : i < 8) : (byteBits b).getD i false = b.getLsbD (7 - i) := by
  rw [byteBits_eq_bitsN, bitsN_getD h, BitVec.testBit_toNat]

/-- R70, past the end of the buffer as well: there both sides are zero. -/
theorem bytesToBits_getD (B : List Byte) (k : Nat) {i : Nat} (hi : i < 8) :
    (bytesToBits B).getD (8 * k + i) false = (B.getD k 0).getLsbD (7 - i) := by
  induction B generalizing k with
  | nil => simp
  | cons b B ih =>
    rw [bytesToBits_cons]
    cases k with
    | zero =>
      rw [Nat.mul_zero, Nat.zero_add, List.getD_append _ _ _ _ (by simpa using hi), byteBits_getD b hi,
        List.getD_cons_zero]
    | succ k =>
      rw [List.getD_append_right _ _ _ _ (by simp; omega), byteBits_length, List.getD_cons_succ, ← ih]
      congr 1
      omega

/-- Settles O16, by induction on the buffer. -/
theorem bytesToBitsPlacesEveryBit : Obligations.BytesToBitsPlacesEveryBit := by
  refine fun B => ⟨bytesToBits_length B, fun k j _ hpos hj => ?_⟩
  have hposition : 8 * k + j - 1 = 8 * k + (j - 1) := by omega
  have hbit : 8 - j = 7 - (j - 1) := by omega
  rw [hposition, hbit, bytesToBits_getD B k (by omega)]

theorem ofNat_uint_byteBits (b : Byte) : BitVec.ofNat 8 (uint (byteBits b)) = b := by
  rw [byteBits_eq_bitsN, uint_bitsN, Nat.mod_eq_of_lt b.isLt, BitVec.ofNat_toNat, BitVec.setWidth_eq]

theorem byteBits_ofNat_uint {s : BitSeq} (h : s.length = 8) : byteBits (BitVec.ofNat 8 (uint s)) = s := by
  have hlt : uint s < 2 ^ 8 := h ▸ uint_lt s
  have hinverse := bitsN_uint s
  rw [h] at hinverse
  rw [byteBits_eq_bitsN, BitVec.toNat_ofNat, Nat.mod_eq_of_lt hlt, hinverse]

theorem packBytes_bytesToBits (B : List Byte) : packBytes B.length (bytesToBits B) = B := by
  induction B with
  | nil => rfl
  | cons b B ih =>
    rw [bytesToBits_cons, List.length_cons, packBytes, List.take_left' (byteBits_length b),
      List.drop_left' (byteBits_length b), ih, ofNat_uint_byteBits]

theorem bytesToBits_packBytes {n : Nat} {s : BitSeq} (h : s.length = 8 * n) : bytesToBits (packBytes n s) = s := by
  induction n generalizing s with
  | zero => exact (List.length_eq_zero_iff.1 h).symm
  | succ n ih =>
    rw [packBytes, bytesToBits_cons, byteBits_ofNat_uint (by simp; omega), ih (by simp; omega), List.take_append_drop]

/-- Positions counted from 1 after a prefix that is dropped. -/
theorem slice_drop (s : BitSeq) (m a b : Nat) : slice (s.drop m) (a + 1) b = slice s (m + a + 1) (m + b) := by
  have hwidth : m + b + 1 - (m + a + 1) = b + 1 - (a + 1) := by omega
  rw [slice, slice, List.drop_drop, hwidth, Nat.add_sub_cancel, Nat.add_sub_cancel]

/-- Byte `k` of a packed sequence is the group of eight positions from `8k + 1` on (R71). -/
theorem packBytes_getD {n k : Nat} (hk : k < n) (s : BitSeq) :
    (packBytes n s).getD k 0 = BitVec.ofNat 8 (uint (slice s (8 * k + 1) (8 * k + 8))) := by
  obtain ⟨n, rfl⟩ : ∃ m, n = m + 1 := ⟨n - 1, by omega⟩
  induction k generalizing n s with
  | zero => rfl
  | succ k ih =>
    obtain ⟨n, rfl⟩ : ∃ m, n = m + 1 := ⟨n - 1, by omega⟩
    have hfirst : 8 + 8 * k = 8 * (k + 1) := by omega
    have hlast : 8 + (8 * k + 8) = 8 * (k + 1) + 8 := by omega
    rw [packBytes, List.getD_cons_succ, ih _ _ (by omega), slice_drop, hfirst, hlast]

theorem packBytes_getD_toNat {n k : Nat} (hk : k < n) {s : BitSeq} (h : s.length = 8 * n) :
    ((packBytes n s).getD k 0).toNat = uint (slice s (8 * k + 1) (8 * k + 8)) := by
  have hlen : (slice s (8 * k + 1) (8 * k + 8)).length = 8 := by
    rw [slice_length _ _ _ (by omega) (by omega)]
    omega
  have hlt := uint_lt (slice s (8 * k + 1) (8 * k + 8))
  rw [hlen] at hlt
  rw [packBytes_getD hk, BitVec.toNat_ofNat, Nat.mod_eq_of_lt hlt]

/-- Settles O17: the packed bytes are the inverse wherever packing answers. -/
theorem packAndUnpackAreInverse : Obligations.PackAndUnpackAreInverse := by
  refine ⟨fun B => ?_, fun s hs => ?_, fun s hs => if_neg hs⟩
  · rw [bitsToBytes_eq_ok (bytesToBits_length B), packBytes_bytesToBits]
  · obtain ⟨n, hn⟩ := Nat.dvd_of_mod_eq_zero hs
    refine ⟨packBytes n s, bitsToBytes_eq_ok hn, bytesToBits_packBytes hn, by rw [packBytes_length, hn], fun k hk => ?_⟩
    exact packBytes_getD_toNat (by simpa using hk) hn

end Sys2Proof.Machine
end

section
/-! The rotations are those of Mathlib's lists (40_bit_utilities.md R73, R74). -/

namespace Sys2Proof.Machine

theorem rotateLeft_eq_rotate (s : BitSeq) (n : Nat) : rotateLeft s n = s.rotate n :=
  List.rotate_eq_drop_append_take_mod.symm

theorem rotateRight_eq_rotate (s : BitSeq) (n : Nat) : rotateRight s n = s.rotate (s.length - n % s.length) :=
  (List.rotate_eq_drop_append_take (Nat.sub_le _ _)).symm

theorem rotateLeft_getD {s : BitSeq} {i : Nat} (h : i < s.length) (n : Nat) :
    (rotateLeft s n).getD i false = s.getD ((i + n) % s.length) false := by
  rw [rotateLeft_eq_rotate, List.getD_eq_getElem?_getD, List.getElem?_rotate h, List.getD_eq_getElem?_getD]

/-- The two rotations together are one by the whole length. -/
theorem rotateRight_rotateLeft (s : BitSeq) (n : Nat) : rotateRight (rotateLeft s n) n = s := by
  rcases Nat.eq_zero_or_pos s.length with hempty | hpos
  · simp [rotateRight_eq_rotate, rotateLeft_eq_rotate, List.length_eq_zero_iff.1 hempty]
  · have hsum : n % s.length + (s.length - n % s.length) = s.length := Nat.add_sub_of_le (Nat.mod_lt n hpos).le
    calc rotateRight (rotateLeft s n) n = (s.rotate n).rotate (s.length - n % s.length) := by
          rw [rotateRight_eq_rotate, rotateLeft_length, rotateLeft_eq_rotate]
      _ = s.rotate (n % s.length + (s.length - n % s.length)) := by rw [← List.rotate_mod s n, List.rotate_rotate]
      _ = s := by rw [hsum, List.rotate_length]

/-- Settles O18, through the rotation of lists. -/
theorem rotationsMoveEveryPosition : Obligations.RotationsMoveEveryPosition := by
  refine ⟨fun s n i hpos hi => ?_, rotateRight_rotateLeft, fun s n _ => ?_⟩
  · rw [rotateLeft_getD (by omega), Nat.add_mod_mod]
  · rw [rotateRight_eq_rotate, rotateLeft_eq_rotate]

end Sys2Proof.Machine
end

section
/-! The laws of `xor`, and its agreement on bytes and on bits (40_bit_utilities.md R75). -/

namespace Sys2Proof.Machine

theorem xorBits_cons (x y : Bool) (a b : BitSeq) : xorBits (x :: a) (y :: b) = Bool.xor x y :: xorBits a b := rfl

theorem xorBits_self (a : BitSeq) : xorBits a a = List.replicate a.length false := by
  induction a with
  | nil => rfl
  | cons x a ih => rw [xorBits_cons, Bool.xor_self, ih, List.length_cons, List.replicate_succ]

theorem xorBits_zeros (a : BitSeq) : xorBits a (List.replicate a.length false) = a := by
  induction a with
  | nil => rfl
  | cons x a ih => rw [List.length_cons, List.replicate_succ, xorBits_cons, Bool.xor_false, ih]

theorem xorBits_assoc (a b c : BitSeq) : xorBits (xorBits a b) c = xorBits a (xorBits b c) := by
  induction a generalizing b c with
  | nil => rfl
  | cons x a ih =>
    cases b with
    | nil => rfl
    | cons y b =>
      cases c with
      | nil => rfl
      | cons z c => simp only [xorBits_cons, Bool.xor_assoc, ih]

/-- The second operand cancels itself. -/
theorem xorBits_cancel_right {a b : BitSeq} (h : a.length = b.length) : xorBits (xorBits a b) b = a := by
  rw [xorBits_assoc, xorBits_self, ← h, xorBits_zeros]

theorem xorBits_append {a b : BitSeq} (h : a.length = b.length) (a' b' : BitSeq) :
    xorBits (a ++ a') (b ++ b') = xorBits a b ++ xorBits a' b' := List.zipWith_append h

theorem byteBits_xor (x y : Byte) : byteBits (x ^^^ y) = xorBits (byteBits x) (byteBits y) := by
  rw [xorBits, byteBits, byteBits, byteBits, List.zipWith_map, List.zipWith_self]
  exact List.map_congr_left fun j _ => BitVec.getLsbD_xor

/-- The byte form and the bit form of `xor` agree, byte after byte. -/
theorem bytesToBits_xorBytes (A B : List Byte) :
    bytesToBits (xorBytes A B) = xorBits (bytesToBits A) (bytesToBits B) := by
  induction A generalizing B with
  | nil => rfl
  | cons x A ih =>
    cases B with
    | nil => exact List.zipWith_nil_right.symm
    | cons y B =>
      have hcons : xorBytes (x :: A) (y :: B) = (x ^^^ y) :: xorBytes A B := rfl
      rw [hcons, bytesToBits_cons, bytesToBits_cons, bytesToBits_cons, byteBits_xor, ih, xorBits_append (by simp)]

/-- Settles O19, law by law. -/
theorem xorLaws : Obligations.XorLaws :=
  ⟨fun a => ⟨xorBits_self a, xorBits_zeros a⟩, fun _ _ => xorBits_cancel_right, fun A B _ => bytesToBits_xorBytes A B⟩

end Sys2Proof.Machine
end

section
/-! The driver's initial and final permutations undo each other (41_parameter_tables.md R81, R82, R89). -/

namespace Sys2Proof.Machine

/-- The entry of the initial table at row `i / 8`, column `i % 8`: R81's columns fall by 8 along a row, the even ones in
the upper half and the odd ones in the lower; R89 names each position itself. -/
def initialEntry : Cipher → Nat → Nat
  | .des, i => if i < 32 then 58 + 2 * (i / 8) - 8 * (i % 8) else 57 + 2 * (i / 8 - 4) - 8 * (i % 8)
  | .gost, i => i + 1

theorem initialTable_getD (c : Cipher) : ∀ i < 64, (initialTable c).getD i 0 = initialEntry c i := by
  cases c <;> decide

/-- Looking each entry of the final table up in the initial one counts the positions in order. -/
theorem initialTable_at_finalTable (c : Cipher) :
    ((finalTable c).map fun p => (initialTable c).getD (p - 1) 0) = List.range' 1 64 := by
  cases c <;> decide

/-- Looking each entry of the initial table up in the final one counts the positions in order. -/
theorem finalTable_at_initialTable (c : Cipher) :
    ((initialTable c).map fun p => (finalTable c).getD (p - 1) 0) = List.range' 1 64 := by
  cases c <;> decide

/-- A table that selects every position in order selects the sequence itself. -/
theorem select_range' (s : BitSeq) : ((List.range' 1 s.length).map fun p => s.getD (p - 1) false) = s := by
  refine List.ext_getElem (by simp) fun i _ hi => ?_
  rw [List.getElem_map, List.getElem_range', Nat.one_mul, Nat.add_sub_cancel_left, List.getD_eq_getElem _ _ hi]

/-- A table `U` whose entries, looked up in `T`, count the positions in order undoes the permutation by `T`. -/
theorem permute_undo {s t : BitSeq} {T U : List Nat} (hlen : T.length = s.length)
    (hU : ∀ p ∈ U, 1 ≤ p ∧ p ≤ T.length) (hTU : (U.map fun p => T.getD (p - 1) 0) = List.range' 1 s.length)
    (h : permute s T = .ok t) : permute t U = .ok s := by
  have htlen : t.length = T.length := by rw [(permute_spec h).2, List.length_map]
  have hlookup : ∀ p ∈ U, t.getD (p - 1) false = s.getD (T.getD (p - 1) 0 - 1) false := fun p hp =>
    permute_getD h (by have := hU p hp; omega)
  have hselect : (U.map fun p => t.getD (p - 1) false) = s :=
    calc (U.map fun p => t.getD (p - 1) false)
        = (U.map fun p => T.getD (p - 1) 0).map fun p => s.getD (p - 1) false := by
          rw [List.map_map]
          exact List.map_congr_left hlookup
      _ = s := by rw [hTU, select_range']
  rw [permute_eq_ok (htlen ▸ hU), hselect]

/-- Position `i + 1` of the initially permuted block is the position of the block that `initialEntry` names. -/
theorem permute_initialTable_getD {c : Cipher} {b t : BitSeq} (h : permute b (initialTable c) = .ok t) {i : Nat}
    (hi : i < 64) : t.getD i false = b.getD (initialEntry c i - 1) false := by
  rw [permute_getD h (by rwa [initialTable_length]), initialTable_getD c i hi]

/-- Settles O22: each table looked up in the other counts the positions, and the entries of the initial one are the
formula's. -/
theorem permutationsOfTheDriverAreInverse : Obligations.PermutationsOfTheDriverAreInverse := by
  intro c b hb
  obtain ⟨t, ht, -⟩ := permute_ok hb (initialTable_range c)
  obtain ⟨u, hu, -⟩ := permute_ok hb (finalTable_range c)
  have hinit : (initialTable c).length = b.length := by rw [initialTable_length, hb]
  have hfinal : (finalTable c).length = b.length := by rw [finalTable_length, hb]
  refine ⟨⟨t, ht, ?_, fun i hi => ?_⟩, u, hu, ?_⟩
  · exact permute_undo hinit (by simpa only [initialTable_length] using finalTable_range c)
      (by rw [hb, initialTable_at_finalTable]) ht
  · rw [permute_initialTable_getD ht hi]
    cases c <;> rfl
  · exact permute_undo hfinal (by simpa only [finalTable_length] using initialTable_range c)
      (by rw [hb, finalTable_at_initialTable]) hu

end Sys2Proof.Machine
end

section
/-! The DES-like schedule (42_key_schedule.md R100): the round keys one by one, and the key position each of their bits
comes from. -/

namespace Sys2Proof.Machine

theorem desPC1_range : ∀ t ∈ desPC1, 1 ≤ t ∧ t ≤ 64 := tables_in_range.2.2.2.2.1

theorem desPC2_range : ∀ t ∈ desPC2, 1 ≤ t ∧ t ≤ 56 := tables_in_range.2.2.2.2.2.1

theorem rotateLeft_rotateLeft (s : BitSeq) (m n : Nat) : rotateLeft (rotateLeft s m) n = rotateLeft s (m + n) := by
  rw [rotateLeft_eq_rotate, rotateLeft_eq_rotate, rotateLeft_eq_rotate, List.rotate_rotate]

/-- One turn of the loop of R100. -/
theorem desRounds_cons_inv {n : Nat} {ns : List Nat} {C D : BitSeq} {Ks : List BitSeq}
    (h : desRounds (n :: ns) C D = .ok Ks) :
    ∃ K Ks', permute (rotateLeft C n ++ rotateLeft D n) desPC2 = .ok K ∧
      desRounds ns (rotateLeft C n) (rotateLeft D n) = .ok Ks' ∧ Ks = K :: Ks' := by
  rw [desRounds] at h
  cases hK : permute (rotateLeft C n ++ rotateLeft D n) desPC2 with
  | error e => rw [hK] at h; cases h
  | ok K =>
    cases hKs : desRounds ns (rotateLeft C n) (rotateLeft D n) with
    | error e => rw [hK, hKs] at h; cases h
    | ok Ks' =>
      rw [hK, hKs] at h
      injection h with h
      exact ⟨K, Ks', rfl, rfl, h.symm⟩

/-- The rotations of the rounds before add up. -/
theorem permute_rotated_of_desRounds {ns : List Nat} {C D : BitSeq} {Ks : List BitSeq} (h : desRounds ns C D = .ok Ks)
    {i : Nat} (hi : i < ns.length) :
    permute (rotateLeft C (ns.take (i + 1)).sum ++ rotateLeft D (ns.take (i + 1)).sum) desPC2 = .ok (Ks.getD i []) := by
  induction ns generalizing C D Ks i with
  | nil => cases hi
  | cons n ns ih =>
    obtain ⟨K, Ks', hK, hKs', rfl⟩ := desRounds_cons_inv h
    cases i with
    | zero => simpa using hK
    | succ i =>
      have hrest := ih hKs' (Nat.lt_of_succ_lt_succ hi)
      rwa [rotateLeft_rotateLeft, rotateLeft_rotateLeft, ← List.sum_cons, ← List.take_succ_cons,
        ← List.getD_cons_succ (x := K)] at hrest

/-- A 64-bit key splits into two 28-bit halves, from which the loop of R100 makes a schedule. -/
theorem deriveDes_spec {k : BitSeq} (h : k.length = 64) :
    ∃ C D K, C.length = 28 ∧ D.length = 28 ∧ permute k desPC1 = .ok (C ++ D) ∧ desRounds desShifts C D = .ok K ∧
      deriveDes k = .ok K ∧ ScheduleShape .des K := by
  obtain ⟨cd, hcd, hlen⟩ := permute_ok h desPC1_range
  replace hlen : cd.length = 56 := hlen
  obtain ⟨K, hK, hshape⟩ := deriveRoundKeys_ok .des k h
  have hC : slice cd 1 28 = cd.take 28 := rfl
  have hD : slice cd 29 56 = cd.drop 28 := List.take_of_length_le (by simp [hlen])
  have hloop : deriveDes k = desRounds desShifts (cd.take 28) (cd.drop 28) := by
    rw [deriveDes, if_pos h, hcd, ← hC, ← hD]
    rfl
  exact ⟨cd.take 28, cd.drop 28, K, by simp [hlen], by simp [hlen], by rwa [List.take_append_drop], hloop ▸ hK, hK,
    hshape⟩

/-- Settles O23: the loop of R100 keeps the sum of the shifts so far. -/
theorem desRoundKeysAreRotatedSelections : Obligations.DesRoundKeysAreRotatedSelections := by
  refine ⟨fun k hk => ?_, fun k hk => if_neg hk, rfl, rfl, rfl⟩
  obtain ⟨C, D, K, hC, hD, hCD, hloop, hK, hshape⟩ := deriveDes_spec hk
  refine ⟨C, D, K, hC, hD, hCD, hK, hshape, fun i hpos hi => ?_⟩
  obtain ⟨i, rfl⟩ : ∃ j, i = j + 1 := ⟨i - 1, by omega⟩
  exact permute_rotated_of_desRounds hloop hi

/-- `permute` reads the positions its table names and no other. -/
theorem permute_congr {s s' : BitSeq} {T : List Nat} (hlen : s.length = s'.length)
    (h : ∀ t ∈ T, 1 ≤ t → t ≤ s.length → s.getD (t - 1) false = s'.getD (t - 1) false) : permute s T = permute s' T := by
  by_cases hT : ∀ t ∈ T, 1 ≤ t ∧ t ≤ s.length
  · rw [permute_eq_ok hT, permute_eq_ok (hlen ▸ hT)]
    exact congrArg _ (List.map_congr_left fun t ht => h t ht (hT t ht).1 (hT t ht).2)
  · rw [permute, permute, if_neg hT, if_neg (hlen ▸ hT)]

/-- PC-1 selects no parity bit (R86). -/
theorem desPC1_skips_parity : ∀ t ∈ desPC1, t % 8 ≠ 0 := by decide

/-- Settles O25: the key is read through PC-1 alone. -/
theorem desParityBitsInfluenceNothing : Obligations.DesParityBitsInfluenceNothing := by
  intro k k' hk hk' hagree
  have hselected : permute k desPC1 = permute k' desPC1 :=
    permute_congr (hk.trans hk'.symm) fun t ht hpos ht' => hagree t hpos (hk ▸ ht') (desPC1_skips_parity t ht)
  rw [deriveDes, deriveDes, if_pos hk, if_pos hk', hselected]

/-- The entry of PC-1 that position `q` of the two 28-bit halves holds after each is rotated left by `n`: the position of
the key it shows. -/
def rotatedPC1 (n q : Nat) : Nat :=
  desPC1.getD (if q ≤ 28 then (q - 1 + n) % 28 else 28 + (q - 29 + n) % 28) 0

theorem desPC1_length : desPC1.length = 56 := rfl

/-- Position `q` of the rotated halves shows the key position `rotatedPC1 n q`. -/
theorem rotated_halves_getD {k C D : BitSeq} (hC : C.length = 28) (hD : D.length = 28)
    (h : permute k desPC1 = .ok (C ++ D)) (n : Nat) {q : Nat} (hpos : 1 ≤ q) (hq : q ≤ 56) :
    (rotateLeft C n ++ rotateLeft D n).getD (q - 1) false = k.getD (rotatedPC1 n q - 1) false := by
  have hmod (x : Nat) : x % 28 < 28 := Nat.mod_lt x (by decide)
  rw [rotatedPC1]
  split
  · rw [← permute_getD h (by rw [desPC1_length]; have := hmod (q - 1 + n); omega),
      List.getD_append _ _ _ _ (by rw [rotateLeft_length]; omega), rotateLeft_getD (by omega), hC,
      List.getD_append _ _ _ _ (by rw [hC]; exact hmod _)]
  · have hsub : q - 1 - 28 = q - 29 := by omega
    rw [← permute_getD h (by rw [desPC1_length]; have := hmod (q - 29 + n); omega),
      List.getD_append_right _ _ _ _ (by rw [rotateLeft_length]; omega), rotateLeft_length, hC, hsub,
      rotateLeft_getD (by omega), hD, List.getD_append_right _ _ _ _ (by omega), hC, Nat.add_sub_cancel_left]

/-- Bit `m + 1` of round key `i + 1` is the key bit that PC-2, the shifts so far and PC-1 lead back to. -/
theorem deriveDes_bit {k : BitSeq} {K : List BitSeq} (hk : k.length = 64) (h : deriveDes k = .ok K) {i m : Nat}
    (hi : i < 16) (hm : m < 48) :
    (K.getD i []).getD m false = k.getD (rotatedPC1 (desShifts.take (i + 1)).sum (desPC2.getD m 0) - 1) false := by
  obtain ⟨C, D, K', hC, hD, hCD, hloop, hK', -⟩ := deriveDes_spec hk
  obtain rfl : K = K' := Except.ok.inj (h.symm.trans hK')
  have hmem : desPC2.getD m 0 ∈ desPC2 := by
    rw [List.getD_eq_getElem _ _ hm]
    exact List.getElem_mem _
  obtain ⟨hentry, hentry'⟩ := desPC2_range _ hmem
  rw [permute_getD (permute_rotated_of_desRounds hloop hi) hm, rotated_halves_getD hC hD hCD _ hentry hentry']

/-- The eight positions PC-2 leaves out of the first round key are in the second: the two together show every key bit
that is no parity bit. -/
theorem first_two_round_keys_show_every_bit :
    ∀ p < 65, 1 ≤ p → p % 8 ≠ 0 → p ∈ desPC2.map (rotatedPC1 1) ∨ p ∈ desPC2.map (rotatedPC1 2) := by
  decide

/-- Equal schedules agree at each key position that round key `i + 1` shows. -/
theorem deriveDes_determines_shown_bit {k k' : BitSeq} (hk : k.length = 64) (hk' : k'.length = 64)
    (h : deriveDes k = deriveDes k') {i p : Nat} (hi : i < 16)
    (hp : p ∈ desPC2.map (rotatedPC1 (desShifts.take (i + 1)).sum)) : k.getD (p - 1) false = k'.getD (p - 1) false := by
  obtain ⟨q, hq, rfl⟩ := List.mem_map.1 hp
  obtain ⟨m, hm, rfl⟩ := List.mem_iff_getElem.1 hq
  obtain ⟨-, -, K, -, -, -, -, hK, -⟩ := deriveDes_spec hk
  rw [← List.getD_eq_getElem _ 0 hm, ← deriveDes_bit hk hK hi hm, ← deriveDes_bit hk' (h ▸ hK) hi hm]

/-- The schedule determines the key up to its parity bits (R105 item 3). -/
theorem deriveDes_determines_bit {k k' : BitSeq} (hk : k.length = 64) (hk' : k'.length = 64)
    (h : deriveDes k = deriveDes k') {p : Nat} (hpos : 1 ≤ p) (hp : p ≤ 64) (hparity : p % 8 ≠ 0) :
    k.getD (p - 1) false = k'.getD (p - 1) false := by
  rcases first_two_round_keys_show_every_bit p (by omega) hpos hparity with hfirst | hsecond
  · exact deriveDes_determines_shown_bit hk hk' h (i := 0) (by decide) hfirst
  · exact deriveDes_determines_shown_bit hk hk' h (i := 1) (by decide) hsecond

end Sys2Proof.Machine
end

section
/-! The GOST-like schedule (42_key_schedule.md R101, R102): eight sub-keys that make up the whole key. -/

namespace Sys2Proof.Machine

/-- The sub-key numbers of R102 in the order of the rounds. -/
theorem gostIndex_eq_getD : ∀ i < 32, gostIndex (i + 1) =
    [1, 2, 3, 4, 5, 6, 7, 8, 1, 2, 3, 4, 5, 6, 7, 8, 1, 2, 3, 4, 5, 6, 7, 8, 8, 7, 6, 5, 4, 3, 2, 1].getD i 0 := by
  decide

theorem deriveGost_getD {k : BitSeq} {K : List BitSeq} (h : deriveGost k = .ok K) {i : Nat} (hi : i < 32) :
    K.getD i [] = gostSubKey k (gostIndex (i + 1)) := by
  rw [deriveGost] at h
  split at h
  · injection h with h
    rw [← h, List.getD_eq_getElem _ _ (by simpa using hi), List.getElem_map, List.getElem_range', Nat.one_mul,
      Nat.add_comm 1 i]
  · cases h

/-- Settles O24: the numbers of R102 are those listed. -/
theorem gostRoundKeysAreSubKeys : Obligations.GostRoundKeysAreSubKeys := by
  refine ⟨fun k hk => ?_, fun k hk => if_neg hk⟩
  obtain ⟨K, hK, hshape⟩ := deriveRoundKeys_ok .gost k hk
  refine ⟨K, hK, hshape, fun i hi => ?_⟩
  rw [deriveGost_getD hK hi, gostIndex_eq_getD i hi, gostSubKey]

/-- Key position `32 i + r + 1` is bit `r + 1` of sub-key `i + 1`, which is the key of round `i + 1`. -/
theorem deriveGost_bit {k : BitSeq} {K : List BitSeq} (h : deriveGost k = .ok K) {i r : Nat} (hi : i < 8) (hr : r < 32) :
    (K.getD i []).getD r false = k.getD (32 * i + r) false := by
  have hindex : gostIndex (i + 1) = i + 1 := by rw [gostIndex]; split <;> omega
  have hstart : 32 * (i + 1) - 31 - 1 = 32 * i := by omega
  rw [deriveGost_getD h (by omega), hindex, gostSubKey, slice_getD _ (by omega), hstart]

/-- The schedule determines the key (R105 item 3). -/
theorem deriveGost_injective {k k' : BitSeq} (hk : k.length = 256) (hk' : k'.length = 256)
    (h : deriveGost k = deriveGost k') : k = k' := by
  obtain ⟨K, hK, -⟩ := deriveRoundKeys_ok .gost k hk
  refine List.ext_getElem (hk.trans hk'.symm) fun p hp hp' => ?_
  have hsplit : 32 * (p / 32) + p % 32 = p := Nat.div_add_mod p 32
  have hbit : k.getD p false = k'.getD p false := by
    rw [← hsplit, ← deriveGost_bit hK (by omega) (by omega), ← deriveGost_bit (h.symm.trans hK) (by omega) (by omega)]
  rwa [List.getD_eq_getElem _ _ hp, List.getD_eq_getElem _ _ hp'] at hbit

/-- Settles O26: every bit that is no parity bit stands in some round key. -/
theorem keyBitsChangeTheSchedule : Obligations.KeyBitsChangeTheSchedule := by
  refine ⟨fun k k' hk hk' hdiffer heq => ?_, fun k k' hk hk' hne heq => hne (deriveGost_injective hk hk' heq)⟩
  obtain ⟨p, hpos, hp, hparity, hne⟩ := hdiffer
  exact hne (deriveDes_determines_bit hk hk' heq hpos hp hparity)

end Sys2Proof.Machine
end

section
/-! KEXP stores the schedule of its key, or reports the key's length (42_key_schedule.md R103 to R105). -/

namespace Sys2Proof.Machine

/-- The bits of a stored round key: the key, then zero bits up to 48 (R105). -/
theorem bitsN_scheduleEntry {c : Cipher} {K : List BitSeq} (hK : ScheduleShape c K) {i : Nat} (hi : i < rounds c) :
    bitsN 48 (scheduleEntry c K (i + 1)).toNat = K.getD i [] ++ List.replicate (48 - rkBits c) false := by
  obtain ⟨hcount, hwidth⟩ := hK
  have hkey : (K.getD i []).length = rkBits c := by
    rw [List.getD_eq_getElem _ _ (by omega)]
    exact hwidth _ (List.getElem_mem _)
  have hentry : (K.getD i [] ++ List.replicate (48 - rkBits c) false).length = 48 := by
    have : rkBits c ≤ 48 := by cases c <;> decide
    simp only [List.length_append, List.length_replicate, hkey]
    omega
  have hlt := uint_lt (K.getD i [] ++ List.replicate (48 - rkBits c) false)
  have hinverse := bitsN_uint (K.getD i [] ++ List.replicate (48 - rkBits c) false)
  rw [hentry] at hlt hinverse
  rw [scheduleEntry, if_pos (by omega), roundKeyAt, Nat.add_sub_cancel, hkey, BitVec.toNat_ofNat, Nat.mod_eq_of_lt hlt,
    hinverse]

theorem storeSchedule_holdsSchedule {c : Cipher} {K : List BitSeq} (hK : ScheduleShape c K) (s : State) :
    HoldsSchedule c K (storeSchedule c K s) := by
  intro i
  rw [storeSchedule_rk, Fin.getElem_fin, Vector.getElem_ofFn]
  split
  next hi => exact bitsN_scheduleEntry hK hi
  next hi =>
    rw [scheduleEntry_above (by simp only; omega)]
    decide

theorem succeed_holdsSchedule {c : Cipher} {K : List BitSeq} {s : State} (h : HoldsSchedule c K s) :
    HoldsSchedule c K (succeed s) := h

theorem statusError_outcomeFlags (v : Byte) : OutcomeFlags v (statusError v) false := by
  refine ⟨statusError_getLsbD v 0, statusError_getLsbD v 1, fun i hi => ?_⟩
  rw [statusError_getLsbD, if_neg (by omega), if_neg (by omega)]

theorem statusSuccess_scheduleFlags (c : Cipher) (v : Byte) :
    ScheduleFlags c v (statusSuccess (statusSchedule c v)) true := by
  have hbit (j : Nat) : (statusSuccess (statusSchedule c v)).getLsbD j =
      if j = 1 then false else if j = 0 then true else if j = 3 then decide (c = .gost) else if j = 2 then true
      else v.getLsbD j := by
    rw [statusSuccess_getLsbD, statusSchedule_getLsbD]
  refine ⟨hbit 0, hbit 1, hbit 2, hbit 3, fun i hi => ?_⟩
  rw [hbit, if_neg (by omega), if_neg (by omega), if_neg (by omega), if_neg (by omega)]

/-- KEXP with the right key length (R103, R104). -/
theorem exec_kexpInstr_stores {c : Cipher} {s : State} (h : s.klen.toNat = keyBytes c) :
    ∃ K t, deriveRoundKeys c (keyBits c s) = .ok K ∧ exec (kexpInstr c) s = .next t ∧
      t = { s with rk := t.rk, status := t.status, err := 0 } ∧ HoldsSchedule c K t ∧
      ScheduleFlags c s.status t.status true := by
  rcases expandKey_cases c s with ⟨hbad, -⟩ | ⟨-, K, hK, hshape, hrun⟩
  · exact absurd h hbad
  · exact ⟨K, succeed (storeSchedule c K s), hK, by rw [exec_kexpInstr, hrun], rfl,
      succeed_holdsSchedule (storeSchedule_holdsSchedule hshape s), statusSuccess_scheduleFlags c s.status⟩

/-- KEXP with another key length (R103, R104, R173). -/
theorem exec_kexpInstr_raises {c : Cipher} {s : State} (h : s.klen.toNat ≠ keyBytes c) :
    ∃ t, exec (kexpInstr c) s = .next t ∧ t = { s with status := t.status, err := 1 } ∧
      OutcomeFlags s.status t.status false := by
  rcases expandKey_cases c s with ⟨-, hrun⟩ | ⟨hgood, -⟩
  · exact ⟨raise .invalidKeyLength false s, by rw [exec_kexpInstr, hrun], rfl, statusError_outcomeFlags s.status⟩
  · exact absurd hgood h

/-- Settles O27, KEXP at the DES-like variant. -/
theorem kexpDesStoresTheSchedule : Obligations.KexpDesStoresTheSchedule := fun _ =>
  ⟨fun h => exec_kexpInstr_stores (c := .des) (congrArg BitVec.toNat h),
    fun h => exec_kexpInstr_raises (c := .des) fun h' => h (BitVec.eq_of_toNat_eq h')⟩

/-- Settles O28, KEXP at the GOST-like variant. -/
theorem kexpGostStoresTheSchedule : Obligations.KexpGostStoresTheSchedule := fun _ =>
  ⟨fun h => exec_kexpInstr_stores (c := .gost) (congrArg BitVec.toNat h),
    fun h => exec_kexpInstr_raises (c := .gost) fun h' => h (BitVec.eq_of_toNat_eq h')⟩

end Sys2Proof.Machine
end

section
/-! The contract of F (43_round_function.md R112), and FRND, which runs F alone (R113, R114). -/

namespace Sys2Proof.Machine

/-- The width failure of F (R112). -/
theorem roundFunction_bad_width (cfg : Config) {c : Cipher} {h k : BitSeq}
    (hwidth : ¬(h.length = 32 ∧ k.length = rkBits c)) : roundFunction cfg c h k = .error .invalidBlockWidth := by
  cases c
  case des => exact if_neg hwidth
  case gost => exact if_neg hwidth

/-- Settles O29: each variant has its two widths. -/
theorem roundFunctionKeepsTheWidth : Obligations.RoundFunctionKeepsTheWidth := fun cfg c h k =>
  ⟨fun ⟨hh, hk⟩ => roundFunction_ok cfg c h k hh hk, roundFunction_bad_width cfg⟩

theorem statusSuccess_outcomeFlags (v : Byte) : OutcomeFlags v (statusSuccess v) true := by
  refine ⟨statusSuccess_getLsbD v 0, statusSuccess_getLsbD v 1, fun i hi => ?_⟩
  rw [statusSuccess_getLsbD, if_neg (by omega), if_neg (by omega)]

/-- FRND computes F of its two operands into `FO` (R113, R114). -/
theorem exec_frndInstr_computes (c : Cipher) (s : State) :
    ∃ f t, roundFunction s.cfg c (halfBlockOperand s) (roundKeyOperand c s) = .ok f ∧
      exec (frndInstr c) s = .next t ∧ bitsToBytes f = .ok t.fo.toList ∧
      t = { s with fo := t.fo, status := t.status, err := 0 } ∧ OutcomeFlags s.status t.status true := by
  obtain ⟨f, hf, -, hbytes, hrun⟩ := applyRound_cases c s
  refine ⟨f, succeed { s with fo := bufferOf 4 (packBytes 4 f) }, hf, by rw [exec_frndInstr, hrun], ?_, rfl,
    statusSuccess_outcomeFlags s.status⟩
  rw [succeed_fo, bufferOf_toList (packBytes_length 4 f), hbytes]

/-- The DES-like variant reads the whole of `RKOP` (R23). -/
theorem roundKeyOperand_des (s : State) : roundKeyOperand .des s = bytesToBits s.rkop.toList :=
  congrArg bytesToBits (List.take_of_length_le (Vector.length_toList).le)

/-- Settles O31, FRND at the DES-like variant. -/
theorem frndDesComputesTheRoundFunction : Obligations.FrndDesComputesTheRoundFunction := fun s =>
  roundKeyOperand_des s ▸ exec_frndInstr_computes .des s

/-- Settles O32, FRND at the GOST-like variant. -/
theorem frndGostComputesTheRoundFunction : Obligations.FrndGostComputesTheRoundFunction := fun s =>
  exec_frndInstr_computes .gost s

end Sys2Proof.Machine
end

section
/-! F_des position by position (43_round_function.md R110), and its symmetry under complement. -/

namespace Sys2Proof.Machine

/-- The rows of `DES_E` overlap cyclically: row `j` starts one position before `4j` (R83). -/
theorem desE_getD : ∀ j < 8, ∀ m < 6, desE.getD (6 * j + m) 0 - 1 = (4 * j + m + 31) % 32 := by decide

/-- The S-boxes hold the digits R85 prints. -/
theorem desSBox_eq_digit : ∀ j < 8, ∀ row < 4, ∀ col < 16,
    desSBox (j + 1) row col = desSBoxDigits.getD j 0 / 16 ^ (63 - (16 * row + col)) % 16 := by
  decide

theorem desP_entry {i : Nat} (hi : i < 32) : 1 ≤ desP.getD i 0 ∧ desP.getD i 0 ≤ 32 := by
  refine tables_in_range.2.2.2.1 _ ?_
  rw [List.getD_eq_getElem _ _ hi]
  exact List.getElem_mem _

/-- On the right widths F_des is the S-boxes on the mixed expansion, permuted (R110). -/
theorem fDes_eq {h k e : BitSeq} (hh : h.length = 32) (hk : k.length = 48) (he : permute h desE = .ok e) :
    fDes h k = permute (desSubstitute (xorBits e k)) desP := by
  rw [fDes, if_pos ⟨hh, hk⟩, he]
  rfl

/-- The number of four positions (R76). -/
theorem uint_of_length_four {s : BitSeq} (h : s.length = 4) :
    uint s = 8 * (s.getD 0 false).toNat + 4 * (s.getD 1 false).toNat + 2 * (s.getD 2 false).toNat +
      (s.getD 3 false).toNat := by
  match s, h with
  | [a, b, c, d], _ =>
    simp only [uint, List.foldl_cons, List.foldl_nil, List.getD_cons_zero, List.getD_cons_succ]
    omega

/-- Group `j + 1` of the expansion mixed with the round key (R110). -/
theorem xorBits_expansion_getD {h k e : BitSeq} (hk : k.length = 48) (he : permute h desE = .ok e) {j m : Nat}
    (hj : j < 8) (hm : m < 6) : (xorBits e k).getD (6 * j + m) false = desGroupBit h k j m := by
  have hposition : 6 * j + m < 48 := by omega
  have hlen : e.length = k.length := by rw [(permute_spec he).2, List.length_map, hk]; rfl
  rw [xorBits_getD hlen, permute_getD he hposition, desE_getD j hj m hm, desGroupBit]

/-- An S-box answers the entry that its group selects (R110). -/
theorem desLookup_slice {h k x : BitSeq} {j : Nat} (hj : j < 8) (hx : x.length = 48)
    (hgroup : ∀ m < 6, x.getD (6 * j + m) false = desGroupBit h k j m) :
    desLookup (j + 1) (slice x (6 * j + 1) (6 * j + 6)) = bitsN 4 (desGroupValue h k j) := by
  have hbit (m : Nat) (hm : m < 6) : (slice x (6 * j + 1) (6 * j + 6)).getD m false = desGroupBit h k j m := by
    rw [slice_getD _ (by omega), Nat.add_sub_cancel, hgroup m hm]
  have hinner (m : Nat) (hm : m < 4) :
      (slice (slice x (6 * j + 1) (6 * j + 6)) 2 5).getD m false = desGroupBit h k j (1 + m) := by
    rw [slice_getD _ (by omega), hbit _ (by omega)]
  have hlen : (slice (slice x (6 * j + 1) (6 * j + 6)) 2 5).length = 4 :=
    slice_length _ 2 5 (by rw [slice_length _ _ _ (by omega) (by omega)]; omega) (by decide)
  have hcol : uint (slice (slice x (6 * j + 1) (6 * j + 6)) 2 5) < 2 ^ 4 := hlen ▸ uint_lt _
  have hrow : 2 * (desGroupBit h k j 0).toNat + (desGroupBit h k j 5).toNat < 4 := by
    have := (desGroupBit h k j 0).toNat_lt
    have := (desGroupBit h k j 5).toNat_lt
    omega
  rw [desLookup, hbit 0 (by decide), hbit 5 (by decide), desSBox_eq_digit j hj _ hrow _ hcol, desGroupValue,
    uint_of_length_four hlen, hinner 0 (by decide), hinner 1 (by decide), hinner 2 (by decide), hinner 3 (by decide)]

/-- Position `i + 1` of F_des is the bit of the S-boxes' answer that `DES_P` names (R110, R84). -/
theorem fDes_getD {h k f : BitSeq} (hh : h.length = 32) (hk : k.length = 48) (hf : fDes h k = .ok f) {i : Nat}
    (hi : i < 32) :
    f.getD i false = (desGroupValue h k ((desP.getD i 0 - 1) / 4)).testBit (3 - (desP.getD i 0 - 1) % 4) := by
  obtain ⟨e, he, hlen⟩ := permute_ok hh tables_in_range.2.2.1
  replace hlen : e.length = 48 := hlen
  obtain ⟨-, hentry⟩ := desP_entry hi
  have hgroup : (desP.getD i 0 - 1) / 4 < 8 := by omega
  rw [fDes_eq hh hk he] at hf
  rw [permute_getD hf hi, desSubstitute_getD _ (by omega),
    desLookup_slice hgroup (by rw [xorBits_length, hlen, hk]; rfl) fun m => xorBits_expansion_getD hk he hgroup,
    bitsN_getD (Nat.mod_lt _ (by decide))]

theorem getD_map_not {s : BitSeq} {i : Nat} (h : i < s.length) : (s.map not).getD i false = !s.getD i false := by
  rw [List.getD_eq_getElem _ _ (by rwa [List.length_map]), List.getElem_map, List.getD_eq_getElem _ _ h]

/-- Selecting positions commutes with complement. -/
theorem permute_map_not {s o : BitSeq} {T : List Nat} (h : permute s T = .ok o) :
    permute (s.map not) T = .ok (o.map not) := by
  obtain ⟨hT, rfl⟩ := permute_spec h
  rw [permute_eq_ok (by rwa [List.length_map]), List.map_map]
  refine congrArg _ (List.map_congr_left fun t ht => getD_map_not ?_)
  have := hT t ht
  omega

theorem xorBits_map_not (a b : BitSeq) : xorBits (a.map not) (b.map not) = xorBits a b := by
  simp only [xorBits, List.zipWith_map, Bool.not_xor_not]

/-- The complement disappears where the expansion and the round key are mixed (R110, corner cases). -/
theorem fDes_map_not (h k : BitSeq) : fDes (h.map not) (k.map not) = fDes h k := by
  by_cases hwidth : h.length = 32 ∧ k.length = 48
  · obtain ⟨hh, hk⟩ := hwidth
    obtain ⟨e, he, -⟩ := permute_ok hh tables_in_range.2.2.1
    rw [fDes_eq hh hk he, fDes_eq (by rwa [List.length_map]) (by rwa [List.length_map]) (permute_map_not he),
      xorBits_map_not]
  · rw [fDes, fDes, List.length_map, List.length_map, if_neg hwidth, if_neg hwidth]

end Sys2Proof.Machine
end

section
/-! F_gost position by position (43_round_function.md R111), its symmetry, and the default tables (R91). -/

namespace Sys2Proof.Machine

theorem fGost_eq (cfg : Config) {h k : BitSeq} (hh : h.length = 32) (hk : k.length = 32) :
    fGost cfg h k = .ok (rotateLeft (gostSubstitute cfg (add32 h k)) 11) := if_pos ⟨hh, hk⟩

/-- Table `j + 1` of an instance, looked up inside its range (R90). -/
theorem gostSBox_eq (cfg : Config) (j : Fin 8) (v : Fin 16) :
    gostSBox cfg (j.val + 1) v.val = ((cfg.gostSbox[j])[v]).toNat := by
  simp [gostSBox, List.getD_eq_getElem?_getD]

/-- Nibble `j + 1` of 32 positions is a hexadecimal digit of their number (R76). -/
theorem uint_slice_nibble {a : BitSeq} (h : a.length = 32) {j : Nat} (hj : j < 8) :
    uint (slice a (4 * j + 1) (4 * j + 4)) = uint a / 16 ^ (7 - j) % 16 := by
  have hinverse : bitsN 32 (uint a) = a := h ▸ bitsN_uint a
  have hweight : 2 ^ (32 - (4 * j + 4)) = 16 ^ (7 - j) := by
    rw [show (16 : Nat) = 2 ^ 4 from rfl, ← pow_mul]
    congr 1
    omega
  calc uint (slice a (4 * j + 1) (4 * j + 4)) = uint (bitsN 4 (uint a >>> (32 - (4 * j + 4)))) := by
        rw [← slice_bitsN (by omega), hinverse]
    _ = uint a / 2 ^ (32 - (4 * j + 4)) % 2 ^ 4 := by rw [uint_bitsN, Nat.shiftRight_eq_div_pow]
    _ = uint a / 16 ^ (7 - j) % 16 := congrArg (uint a / · % 16) hweight

/-- The nibbles of the sum select the entries of R111. -/
theorem gostSBox_add32_nibble (cfg : Config) (h k : BitSeq) (j : Fin 8) :
    gostSBox cfg (j.val + 1) (uint (slice (add32 h k) (4 * j.val + 1) (4 * j.val + 4))) =
      (gostNibbleValue cfg h k j).toNat := by
  rw [uint_slice_nibble (add32_length h k) j.isLt, uint_add32, gostNibbleValue]
  exact gostSBox_eq cfg j ⟨_, Nat.mod_lt _ (by decide)⟩

/-- Position `i + 1` of F_gost is the substituted position eleven places on, counted cyclically (R111). -/
theorem fGost_rotated_getD (cfg : Config) (h k : BitSeq) {i : Nat} (hi : i < 32) :
    (rotateLeft (gostSubstitute cfg (add32 h k)) 11).getD i false =
      (gostNibbleValue cfg h k ⟨(i + 11) / 4 % 8, Nat.mod_lt _ (by decide)⟩).getLsbD (3 - (i + 11) % 4) := by
  have hgroup : (i + 11) % 32 / 4 = (i + 11) / 4 % 8 := by omega
  have hplace : (i + 11) % 32 % 4 = (i + 11) % 4 := by omega
  rw [rotateLeft_getD (by rwa [gostSubstitute_length]), gostSubstitute_length,
    gostSubstitute_getD _ _ (Nat.mod_lt _ (by decide)), hgroup, hplace, BitVec.getLsbD,
    ← gostSBox_add32_nibble]

theorem fGost_comm (cfg : Config) (h k : BitSeq) : fGost cfg h k = fGost cfg k h := by
  simp only [fGost, add32_comm h k, and_comm]

/-- The sum of the corner case wraps to zero (R111, corner cases). -/
theorem fGost_wraps (cfg : Config) :
    fGost cfg (List.replicate 32 true) (List.replicate 31 false ++ [true]) =
      fGost cfg (List.replicate 32 false) (List.replicate 32 false) := by
  obtain ⟨-, hwrap⟩ := addThirtyTwoWraps
  rw [fGost_eq cfg (by simp) (by simp), fGost_eq cfg (by simp) (by simp), hwrap, add32_zeros (by simp)]

/-- The default instance holds the digits R91 prints. -/
theorem gostZ_eq_digit : ∀ (j : Fin 8) (v : Fin 16),
    ((gostZ[j])[v]).toNat = gostZDigits.getD j.val 0 / 16 ^ (15 - v.val) % 16 := by
  decide

/-- Settles O30, from the positions and the symmetries of each variant. -/
theorem roundFunctionsBitByBit : Obligations.RoundFunctionsBitByBit := by
  refine ⟨fun h k hh hk => ?_, fDes_map_not, fun cfg h k hh hk => ?_,
    fun cfg => ⟨fGost_comm cfg, fGost_wraps cfg⟩, gostZ_eq_digit⟩
  · obtain ⟨f, hf, hlen⟩ := roundFunction_ok defaultConfig .des h k hh hk
    exact ⟨f, hf, hlen, fun i hi => fDes_getD hh hk hf hi⟩
  · exact ⟨_, fGost_eq cfg hh hk, by simp, fun i hi => fGost_rotated_getD cfg h k hi⟩

end Sys2Proof.Machine
end

section
/-! Decryption undoes encryption and encryption decryption (44_block_driver.md R127): a run with the keys in reverse
order takes the rounds back one by one, on exchanged halves. -/

namespace Sys2Proof.Machine

/-! ### The single-block function by its stages -/

/-- Step `Initial` cuts the permuted block in two (R121). -/
theorem initialHalves_eq {c : Cipher} {b t : BitSeq} (ht : permute b (initialTable c) = .ok t) :
    initialHalves c b = .ok (slice t 1 32, slice t 33 64) := by
  rw [initialHalves, ht]
  rfl

/-- Step `Initial` answers two half blocks on a block of the right width. -/
theorem initialHalves_ok (c : Cipher) {b : BitSeq} (hb : b.length = 64) :
    ∃ h, initialHalves c b = .ok h ∧ h.1.length = 32 ∧ h.2.length = 32 := by
  obtain ⟨t, ht, htlen⟩ := permute_ok hb (initialTable_range c)
  rw [initialTable_length] at htlen
  exact ⟨_, initialHalves_eq ht, slice_length t 1 32 (by omega) (by omega),
    slice_length t 33 64 (by omega) (by omega)⟩

theorem feistelRounds_cons (cfg : Config) (c : Cipher) (k : BitSeq) (ks : List BitSeq) (h : BitSeq × BitSeq) :
    feistelRounds cfg c (k :: ks) h = (feistelRound cfg c k h >>= feistelRounds cfg c ks) := rfl

/-- A run is its stages one after another (R126). -/
theorem crypt_eq {cfg : Config} {c : Cipher} {K : List BitSeq} {b : BitSeq} {dir : Direction} {h h' : BitSeq × BitSeq}
    (hb : b.length = 64) (hinit : initialHalves c b = .ok h)
    (hrounds : feistelRounds cfg c (keySequence c K dir) h = .ok h') :
    crypt cfg c K b dir = finalBlock c h' := by
  rw [crypt, if_pos hb, hinit]
  show (feistelRounds cfg c (keySequence c K dir) h >>= finalBlock c) = _
  rw [hrounds]
  rfl

/-! ### The permutations around the rounds -/

theorem slice_halves {t : BitSeq} (ht : t.length = 64) : slice t 1 32 ++ slice t 33 64 = t := by
  rw [slice, slice, List.drop_zero, List.take_of_length_le (l := t.drop 32) (by simp [ht]), List.take_append_drop]

/-- The final permutation undoes the initial one when no round lies between them (R82, R89). -/
theorem finalBlock_initialHalves {c : Cipher} {b : BitSeq} {h : BitSeq × BitSeq} (hb : b.length = 64)
    (hinit : initialHalves c b = .ok h) : finalBlock c h.swap = .ok b := by
  obtain ⟨⟨t, ht, hback, -⟩, -⟩ := permutationsOfTheDriverAreInverse c b hb
  have htlen : t.length = 64 := by rw [(permute_spec ht).2, List.length_map, initialTable_length]
  rw [initialHalves_eq ht] at hinit
  cases hinit
  rw [finalBlock, Prod.fst_swap, Prod.snd_swap, slice_halves htlen, hback]

/-- A run on an output block starts with the halves, exchanged, with which the run that made it ended. -/
theorem initialHalves_finalBlock {c : Cipher} {h : BitSeq × BitSeq} {o : BitSeq} (h1 : h.1.length = 32)
    (h2 : h.2.length = 32) (ho : finalBlock c h = .ok o) : initialHalves c o = .ok h.swap := by
  obtain ⟨-, u, hu, hback⟩ := permutationsOfTheDriverAreInverse c (h.2 ++ h.1) (by simp [h1, h2])
  rw [finalBlock, hu] at ho
  cases ho
  have hleft : slice (h.2 ++ h.1) 1 32 = h.2 := List.take_left' h2
  have hright : slice (h.2 ++ h.1) 33 64 = h.1 := by
    rw [slice, List.drop_left' h2, List.take_of_length_le h1.le]
  rw [initialHalves_eq hback, hleft, hright]
  rfl

/-! ### Taking the rounds back -/

/-- Decryption uses the keys of encryption in reverse order (R123). -/
theorem keySequence_dec (c : Cipher) (K : List BitSeq) : keySequence c K .dec = (keySequence c K .enc).reverse := by
  refine List.ext_getElem (by simp [keySequence]) fun i hi _ => ?_
  simp only [keySequence, List.length_map, List.length_range'] at hi
  simp only [keySequence, List.getElem_reverse, List.getElem_map, List.getElem_range', List.length_map,
    List.length_range', roundKey]
  congr 1
  omega

theorem feistelRounds_append (cfg : Config) (c : Cipher) (ks ks' : List BitSeq) (h : BitSeq × BitSeq) :
    feistelRounds cfg c (ks ++ ks') h = (feistelRounds cfg c ks h >>= feistelRounds cfg c ks') := by
  induction ks generalizing h with
  | nil => rfl
  | cons k ks ih =>
    rw [List.cons_append, feistelRounds_cons, feistelRounds_cons]
    cases feistelRound cfg c k h with
    | error e => rfl
    | ok h' => exact ih h'

/-- One more round after the rounds of a list of keys. -/
theorem feistelRounds_concat {cfg : Config} {c : Cipher} {ks : List BitSeq} {k : BitSeq} {h h' : BitSeq × BitSeq}
    (hrounds : feistelRounds cfg c ks h = .ok h') :
    feistelRounds cfg c (ks ++ [k]) h = feistelRound cfg c k h' := by
  rw [feistelRounds_append, hrounds]
  show (feistelRound cfg c k h' >>= feistelRounds cfg c []) = _
  cases feistelRound cfg c k h' <;> rfl

/-- The same round on the exchanged result gives the exchanged start: both apply F to the same half, and `xor` cancels
its value, whatever F is (R127). -/
theorem feistelRound_swap {cfg : Config} {c : Cipher} {k : BitSeq} {h h' : BitSeq × BitSeq} (hk : k.length = rkBits c)
    (h1 : h.1.length = 32) (h2 : h.2.length = 32) (hround : feistelRound cfg c k h = .ok h') :
    feistelRound cfg c k h'.swap = .ok h.swap := by
  obtain ⟨f, hf, hflen, hround', -⟩ := feistelRound_ok cfg c k h hk h1 h2
  rw [hround'] at hround
  cases hround
  have hcancel : xorBits (xorBits h.1 f) f = h.1 := xorBits_cancel_right (h1.trans hflen.symm)
  simp only [feistelRound, Prod.swap, hf]
  show Except.ok (h.2, xorBits (xorBits h.1 f) f) = _
  rw [hcancel]

/-- The rounds with the keys in reverse order take the rounds back. -/
theorem feistelRounds_reverse {cfg : Config} {c : Cipher} {ks : List BitSeq} {h h' : BitSeq × BitSeq}
    (hk : ∀ k ∈ ks, k.length = rkBits c) (h1 : h.1.length = 32) (h2 : h.2.length = 32)
    (hrounds : feistelRounds cfg c ks h = .ok h') : feistelRounds cfg c ks.reverse h'.swap = .ok h.swap := by
  induction ks generalizing h with
  | nil =>
    cases hrounds
    rfl
  | cons k ks ih =>
    have hkey : k.length = rkBits c := hk k List.mem_cons_self
    obtain ⟨f, -, -, hround, hlen⟩ := feistelRound_ok cfg c k h hkey h1 h2
    rw [feistelRounds_cons, hround] at hrounds
    have hback := ih (fun q hq => hk q (List.mem_cons_of_mem k hq)) h2 hlen hrounds
    rw [List.reverse_cons, feistelRounds_concat hback, feistelRound_swap hkey h1 h2 hround]

/-- A run with the round keys of another run in reverse order undoes it. -/
theorem crypt_undo (cfg : Config) {c : Cipher} {K : List BitSeq} {b : BitSeq} {dir dir' : Direction}
    (hK : ScheduleShape c K) (hb : b.length = 64) (hkeys : keySequence c K dir' = (keySequence c K dir).reverse) :
    ∃ o, crypt cfg c K b dir = .ok o ∧ crypt cfg c K o dir' = .ok b := by
  obtain ⟨o, ho, holen⟩ := crypt_ok cfg hK dir hb
  obtain ⟨h, hinit, h1, h2⟩ := initialHalves_ok c hb
  obtain ⟨h', hrounds, h1', h2'⟩ := feistelRounds_ok cfg c _ h (keySequence_width hK dir) h1 h2
  have hfinal : finalBlock c h' = .ok o := by rw [← crypt_eq hb hinit hrounds, ho]
  have hback : feistelRounds cfg c (keySequence c K dir') h'.swap = .ok h.swap := by
    rw [hkeys, feistelRounds_reverse (keySequence_width hK dir) h1 h2 hrounds]
  refine ⟨o, ho, ?_⟩
  rw [crypt_eq holen (initialHalves_finalBlock h1' h2' hfinal) hback, finalBlock_initialHalves hb hinit]

/-- Settles O33: each direction uses the other's keys in reverse order. -/
theorem singleBlockIsInvertible : Obligations.SingleBlockIsInvertible := fun cfg c K _ hK hb =>
  ⟨crypt_undo cfg hK hb (keySequence_dec c K),
    crypt_undo cfg hK hb (by rw [keySequence_dec, List.reverse_reverse])⟩

end Sys2Proof.Machine
end

section
/-! The driver's state machine, step by step (44_block_driver.md R120 to R125), computes `crypt` (R126). -/

namespace Sys2Proof.Machine

/-- The driver in `Round(i)` on halves `h`, as R121 and R122 leave it. -/
def driverInRound (b : BitSeq) (i : Nat) (h : BitSeq × BitSeq) : Driver where
  dst := .round
  rnd := i
  l := h.1
  r := h.2
  block := b

/-! ### Each step -/

section Steps

variable {cfg : Config} {c : Cipher} {K : List BitSeq} {dir : Direction} {b : BitSeq} {h h' : BitSeq × BitSeq}

/-- Step `Initial` (R121). -/
theorem driverStep_start (hinit : initialHalves c b = .ok h) :
    driverStep cfg c K dir (driverStart b) = .ok (driverInRound b 1 h) := by
  simp only [driverStep, driverStart, hinit]
  rfl

/-- Step `Round(i)` before the last round (R122). -/
theorem driverStep_round {i : Nat} (hi : i < rounds c) (hround : feistelRound cfg c (roundKey c K dir i) h = .ok h') :
    driverStep cfg c K dir (driverInRound b i h) = .ok (driverInRound b (i + 1) h') := by
  simp only [driverStep, driverInRound, hround]
  exact if_pos hi

/-- Step `Round(N)` (R122). -/
theorem driverStep_lastRound (hround : feistelRound cfg c (roundKey c K dir (rounds c)) h = .ok h') :
    driverStep cfg c K dir (driverInRound b (rounds c) h) =
      .ok { driverInRound b (rounds c) h' with dst := .swapped } := by
  simp only [driverStep, driverInRound, hround]
  exact if_neg (lt_irrefl _)

/-- Step `Final` (R125). -/
theorem driverStep_final {d : Driver} {o : BitSeq} (hd : d.dst = .final)
    (ho : permute d.block (finalTable c) = .ok o) :
    driverStep cfg c K dir d = .ok { d with block := o, dst := .idle } := by
  simp only [driverStep, hd, ho]
  rfl

/-- One more step at the end of a run. -/
theorem driverSteps_succ {n : Nat} {d d' : Driver} (hrun : driverSteps cfg c K dir n d = .ok d') :
    driverSteps cfg c K dir (n + 1) d = driverStep cfg c K dir d' := by
  induction n generalizing d with
  | zero =>
    cases hrun
    show (driverStep cfg c K dir d' >>= fun x => .ok x) = _
    cases driverStep cfg c K dir d' <;> rfl
  | succ n ih =>
    rw [driverSteps] at hrun ⊢
    cases hstep : driverStep cfg c K dir d with
    | error e =>
      rw [hstep] at hrun
      cases hrun
    | ok x =>
      rw [hstep] at hrun
      exact ih hrun

end Steps

/-! ### The run -/

theorem roundKey_width {c : Cipher} {K : List BitSeq} (hK : ScheduleShape c K) (dir : Direction) {i : Nat}
    (hpos : 1 ≤ i) (hi : i ≤ rounds c) : (roundKey c K dir i).length = rkBits c :=
  keySequence_width hK dir _ (List.mem_map_of_mem (List.mem_range'_1.2 ⟨hpos, by omega⟩))

/-- The last of the first `j + 1` values, counted from 1. -/
theorem map_range'_succ {α : Type} (f : Nat → α) (j : Nat) :
    (List.range' 1 (j + 1)).map f = (List.range' 1 j).map f ++ [f (j + 1)] := by
  rw [List.range'_1_concat, List.map_append, List.map_singleton, Nat.add_comm 1]

/-- In `Round(j + 1)` the driver holds the halves that the first `j` rounds give. -/
theorem driverSteps_round (cfg : Config) {c : Cipher} {K : List BitSeq} (dir : Direction) {b : BitSeq}
    {h : BitSeq × BitSeq} (hK : ScheduleShape c K) (hinit : initialHalves c b = .ok h) (h1 : h.1.length = 32)
    (h2 : h.2.length = 32) {j : Nat} (hj : j < rounds c) :
    ∃ h', driverSteps cfg c K dir (j + 1) (driverStart b) = .ok (driverInRound b (j + 1) h') ∧
      feistelRounds cfg c ((List.range' 1 j).map (roundKey c K dir)) h = .ok h' ∧
      h'.1.length = 32 ∧ h'.2.length = 32 := by
  induction j with
  | zero => exact ⟨h, (driverSteps_succ rfl).trans (driverStep_start hinit), rfl, h1, h2⟩
  | succ j ih =>
    obtain ⟨h', hrun, hrounds, h1', h2'⟩ := ih (by omega)
    obtain ⟨f, -, -, hround, hlen⟩ :=
      feistelRound_ok cfg c (roundKey c K dir (j + 1)) h' (roundKey_width hK dir (by omega) (by omega)) h1' h2'
    refine ⟨(h'.2, xorBits h'.1 f), ?_, ?_, h2', hlen⟩
    · rw [driverSteps_succ hrun, driverStep_round hj hround]
    · rw [map_range'_succ, feistelRounds_concat hrounds, hround]

/-- After `Round(N)` the driver is in `Swapped` with the halves that all rounds give. -/
theorem driverSteps_swapped (cfg : Config) {c : Cipher} {K : List BitSeq} (dir : Direction) {b : BitSeq}
    {h : BitSeq × BitSeq} (hK : ScheduleShape c K) (hinit : initialHalves c b = .ok h) (h1 : h.1.length = 32)
    (h2 : h.2.length = 32) :
    ∃ h', driverSteps cfg c K dir (rounds c + 1) (driverStart b) =
        .ok { driverInRound b (rounds c) h' with dst := .swapped } ∧
      feistelRounds cfg c (keySequence c K dir) h = .ok h' := by
  obtain ⟨m, hm⟩ : ∃ m, rounds c = m + 1 := by cases c <;> exact ⟨_, rfl⟩
  obtain ⟨h', hrun, hrounds, h1', h2'⟩ := driverSteps_round cfg dir hK hinit h1 h2 (j := m) (by omega)
  rw [← hm] at hrun
  obtain ⟨f, -, -, hround, -⟩ :=
    feistelRound_ok cfg c (roundKey c K dir (rounds c)) h' (roundKey_width hK dir (by omega) le_rfl) h1' h2'
  refine ⟨(h'.2, xorBits h'.1 f), ?_, ?_⟩
  · rw [driverSteps_succ hrun, driverStep_lastRound hround]
  · rw [keySequence, hm, map_range'_succ, ← hm, feistelRounds_concat hrounds, hround]

/-- Settles O34: the rounds by induction, then the three last steps one by one. -/
theorem driverMachineComputesTheSingleBlockFunction : Obligations.DriverMachineComputesTheSingleBlockFunction := by
  intro cfg c K dir b hK hb
  obtain ⟨h, hinit, h1, h2⟩ := initialHalves_ok c hb
  obtain ⟨h', hswapped, hrounds⟩ := driverSteps_swapped cfg dir hK hinit h1 h2
  obtain ⟨o, ho, -⟩ := crypt_ok cfg hK dir hb
  have hpermute : permute (h'.2 ++ h'.1) (finalTable c) = .ok o := (crypt_eq hb hinit hrounds).symm.trans ho
  have hfinal : driverSteps cfg c K dir (rounds c + 2) (driverStart b) =
      .ok { driverInRound (h'.2 ++ h'.1) (rounds c) h' with dst := .final } := driverSteps_succ hswapped
  have hidle : driverRun cfg c K dir b = .ok { driverInRound o (rounds c) h' with dst := .idle } :=
    (driverSteps_succ hfinal).trans (driverStep_final rfl hpermute)
  refine ⟨fun j hpos hj => ?_, ⟨_, hswapped, rfl⟩, ⟨_, hfinal, rfl⟩, _, hidle, rfl, ho⟩
  obtain ⟨i, rfl⟩ : ∃ i, j = i + 1 := ⟨j - 1, by omega⟩
  obtain ⟨hi, hrun, -⟩ := driverSteps_round cfg dir hK hinit h1 h2 hj
  exact ⟨_, hrun, rfl, rfl⟩

end Sys2Proof.Machine
end

section
/-! BENC and BDEC, which share their meaning but for the direction (44_block_driver.md R128 to R131). -/

namespace Sys2Proof.Machine

/-- The single-block function on bytes is the one on bits, packed (R126). -/
theorem cryptBytes_spec {cfg : Config} {c : Cipher} {K : List BitSeq} {dir : Direction} {x B : List Byte}
    (h : cryptBytes cfg c K dir x = .ok B) :
    ∃ o, crypt cfg c K (bytesToBits x) dir = .ok o ∧ bitsToBytes o = .ok B := by
  rw [cryptBytes] at h
  cases ho : crypt cfg c K (bytesToBits x) dir with
  | error e =>
    rw [ho] at h
    cases h
  | ok o =>
    rw [ho] at h
    exact ⟨o, rfl, h⟩

section Commands

variable {i : Instr} {c : Cipher} {dir : Direction} {s : State}

/-- A block command with the right key length (R128 to R131): the block in place, the schedule in forward order. -/
theorem exec_transforms_block (hexec : exec i s = .next (cryptBlock c dir s)) (hlen : s.klen.toNat = keyBytes c) :
    ∃ K o t, deriveRoundKeys c (bytesToBits (s.key.toList.take (keyBytes c))) = .ok K ∧
      crypt s.cfg c K (bytesToBits s.blk.toList) dir = .ok o ∧ exec i s = .next t ∧
      bitsToBytes o = .ok t.blk.toList ∧
      t = { s with rk := t.rk, blk := t.blk, status := t.status, err := 0, dst := .idle } ∧
      HoldsSchedule c K t ∧ ScheduleFlags c s.status t.status true := by
  rcases cryptBlock_cases c dir s with ⟨hbad, -⟩ | ⟨-, K, B, hK, hshape, hbytes, hBlen, hrun⟩
  · exact absurd hlen hbad
  obtain ⟨o, ho, hpack⟩ := cryptBytes_spec hbytes
  refine ⟨K, o, _, hK, ho, hexec.trans (congrArg _ hrun), ?_, rfl, storeSchedule_holdsSchedule hshape s,
    statusSuccess_scheduleFlags c s.status⟩
  rw [succeed_blk, bufferOf_toList hBlen, hpack]

/-- A block command with another key length (R173). -/
theorem exec_block_raises (hexec : exec i s = .next (cryptBlock c dir s)) (hlen : s.klen.toNat ≠ keyBytes c) :
    ∃ t, exec i s = .next t ∧ t = { s with status := t.status, err := 1 } ∧
      OutcomeFlags s.status t.status false := by
  rcases cryptBlock_cases c dir s with ⟨-, hrun⟩ | ⟨hgood, -⟩
  · exact ⟨_, hexec.trans (congrArg _ hrun), rfl, statusError_outcomeFlags s.status⟩
  · exact absurd hgood hlen

end Commands

/-- Settles O35, the block commands at encryption. -/
theorem bencTransformsTheBlockInPlace : Obligations.BencTransformsTheBlockInPlace := fun c s =>
  ⟨exec_transforms_block (exec_bencInstr c s), exec_block_raises (exec_bencInstr c s)⟩

/-- Settles O36, the block commands at decryption. -/
theorem bdecTransformsTheBlockInPlace : Obligations.BdecTransformsTheBlockInPlace := fun c s =>
  ⟨exec_transforms_block (exec_bdecInstr c s), exec_block_raises (exec_bdecInstr c s)⟩

end Sys2Proof.Machine
end

section
/-! Padding and its removal (45_mode_layer.md R135, R136): `unpad` answers exactly on what `pad` can have made. -/

namespace Sys2Proof.Machine

theorem pad_paddedFrom (M : List Byte) : PaddedFrom (pad M) M :=
  ⟨padLength M.length, by unfold padLength; omega, Nat.sub_le _ _, rfl⟩

/-- Settles O37. -/
theorem padAddsOneToEightBytes : Obligations.PadAddsOneToEightBytes := fun M =>
  ⟨rfl, pad_paddedFrom M, pad_length M, by rw [pad_length]; omega, by rw [pad_length]; omega⟩

theorem paddingByte_toNat {p : Nat} (h8 : p ≤ 8) : (BitVec.ofNat 8 p).toNat = p := by
  rw [BitVec.toNat_ofNat, Nat.mod_eq_of_lt (by omega)]

/-- The last byte of a padded buffer is the padding length. -/
theorem lastByte_padded (M : List Byte) {p : Nat} (hpos : 1 ≤ p) (h8 : p ≤ 8) :
    lastByte (M ++ List.replicate p (BitVec.ofNat 8 p)) = p := by
  have hlast : M.length + p - 1 - M.length = p - 1 := by omega
  rw [lastByte, List.length_append, List.length_replicate, List.getD_append_right _ _ _ _ (by omega), hlast,
    List.getD_replicate _ (by omega), paddingByte_toNat h8]

/-- `unpad` on a padded buffer passes every check of R136 in turn. -/
theorem unpad_padded (M : List Byte) {p : Nat} (hpos : 1 ≤ p) (h8 : p ≤ 8) :
    unpad (M ++ List.replicate p (BitVec.ofNat 8 p)) = .ok M := by
  have hlength : (M ++ List.replicate p (BitVec.ofNat 8 p)).length = M.length + p := by simp
  have hbytes : ¬ (List.replicate p (BitVec.ofNat 8 p)).any (fun x => x.toNat ≠ p) = true := by
    simp only [List.any_replicate, paddingByte_toNat h8]
    simp
  rw [unpad, lastByte_padded M hpos h8, hlength, Nat.add_sub_cancel, List.drop_left, List.take_left,
    if_neg (by omega), if_neg (by omega), if_neg (by omega), if_neg hbytes]

/-- A buffer from which `unpad` removes bytes is what it keeps and that many bytes of their number. -/
theorem paddedFrom_of_unpad {B M : List Byte} (h : unpad B = .ok M) : PaddedFrom B M := by
  obtain ⟨hpos, h8, hle, rfl, hbytes⟩ := unpad_spec h
  refine ⟨lastByte B, hpos, h8, ?_⟩
  have hpadding : B.drop (B.length - lastByte B) = List.replicate (lastByte B) (BitVec.ofNat 8 (lastByte B)) := by
    refine List.eq_replicate_iff.2 ⟨by rw [List.length_drop]; omega, fun x hx => ?_⟩
    rw [← hbytes x hx, BitVec.ofNat_toNat, BitVec.setWidth_eq]
  rw [← hpadding, List.take_append_drop]

theorem unpad_eq_ok_iff {B M : List Byte} : unpad B = .ok M ↔ PaddedFrom B M := by
  refine ⟨paddedFrom_of_unpad, ?_⟩
  rintro ⟨p, hpos, h8, rfl⟩
  exact unpad_padded M hpos h8

theorem unpad_eq_error {B : List Byte} (h : ¬∃ M, PaddedFrom B M) : unpad B = .error .invalidPadding := by
  cases hB : unpad B with
  | error e => rw [unpad_error hB]
  | ok M => exact absurd ⟨M, paddedFrom_of_unpad hB⟩ h

theorem unpad_pad (M : List Byte) : unpad (pad M) = .ok M := unpad_eq_ok_iff.2 (pad_paddedFrom M)

/-- Settles O38. -/
theorem unpadRemovesExactlyValidPadding : Obligations.UnpadRemovesExactlyValidPadding :=
  ⟨fun _ _ => unpad_eq_ok_iff, fun _ => unpad_eq_error, unpad_pad⟩

end Sys2Proof.Machine
end

section
/-! The single-block function and `xor` on 8-byte buffers undo each other's work (44_block_driver.md R126, R127;
40_bit_utilities.md R75). -/

namespace Sys2Proof.Machine

/-- The single-block function on bytes is undone by the one in the other direction. -/
theorem cryptBytes_undo {cfg : Config} {c : Cipher} {K : List BitSeq} {dir dir' : Direction} {x B : List Byte}
    (hundo : ∃ o, crypt cfg c K (bytesToBits x) dir = .ok o ∧ crypt cfg c K o dir' = .ok (bytesToBits x))
    (h : cryptBytes cfg c K dir x = .ok B) : cryptBytes cfg c K dir' B = .ok x := by
  obtain ⟨o, ho, hpack⟩ := cryptBytes_spec h
  obtain ⟨o', ho', hback⟩ := hundo
  cases ho.symm.trans ho'
  have hbits : bytesToBits B = o := by
    obtain ⟨hlength, hB⟩ := bitsToBytes_spec hpack
    rw [hB, bytesToBits_packBytes (by omega)]
  rw [cryptBytes, hbits, hback]
  exact packAndUnpackAreInverse.1 x

section Inverse

variable {cfg : Config} {c : Cipher} {K : List BitSeq} {x y B : List Byte}

theorem cryptBytes_length {dir : Direction} (hK : ScheduleShape c K) (hx : x.length = 8)
    (h : cryptBytes cfg c K dir x = .ok B) : B.length = 8 := by
  obtain ⟨o, ho, hlength⟩ := cryptBytes_ok cfg hK dir hx
  cases h.symm.trans ho
  exact hlength

/-- Decryption undoes encryption on 8-byte buffers (R127). -/
theorem cryptBytes_dec_enc (hK : ScheduleShape c K) (hx : x.length = 8) (h : cryptBytes cfg c K .enc x = .ok B) :
    cryptBytes cfg c K .dec B = .ok x :=
  cryptBytes_undo (singleBlockIsInvertible cfg c K (bytesToBits x) hK (by simp [hx])).1 h

/-- Encryption is injective on 8-byte buffers. -/
theorem cryptBytes_enc_inj (hK : ScheduleShape c K) (hx : x.length = 8) (hy : y.length = 8)
    (h : cryptBytes cfg c K .enc x = .ok B) (h' : cryptBytes cfg c K .enc y = .ok B) : x = y :=
  Except.ok.inj ((cryptBytes_dec_enc hK hx h).symm.trans (cryptBytes_dec_enc hK hy h'))

/-- Two blocks encrypt alike exactly when they are equal. -/
theorem cryptBytes_enc_eq_iff {B' : List Byte} (hK : ScheduleShape c K) (hx : x.length = 8) (hy : y.length = 8)
    (h : cryptBytes cfg c K .enc x = .ok B) (h' : cryptBytes cfg c K .enc y = .ok B') : B = B' ↔ x = y := by
  constructor
  · rintro rfl
    exact cryptBytes_enc_inj hK hx hy h h'
  · rintro rfl
    exact Except.ok.inj (h.symm.trans h')

end Inverse

/-- The second operand of `xor` on bytes cancels itself, as on bits (R75). -/
theorem xorBytes_cancel_right {A B : List Byte} (h : A.length = B.length) : xorBytes (xorBytes A B) B = A := by
  have hbits : bytesToBits (xorBytes (xorBytes A B) B) = bytesToBits A := by
    rw [bytesToBits_xorBytes, bytesToBits_xorBytes, xorBits_cancel_right (by simp [h])]
  have hbytes := congrArg bitsToBytes hbits
  rw [packAndUnpackAreInverse.1, packAndUnpackAreInverse.1] at hbytes
  exact Except.ok.inj hbytes

theorem xorBytes_comm (A B : List Byte) : xorBytes A B = xorBytes B A :=
  List.zipWith_comm_of_comm BitVec.xor_comm

/-- With a common first operand, `xor` tells its second operands apart. -/
theorem xorBytes_right_inj {P A B : List Byte} (hA : A.length = P.length) (hB : B.length = P.length) :
    xorBytes P A = xorBytes P B ↔ A = B := by
  refine ⟨fun h => ?_, congrArg _⟩
  rw [← xorBytes_cancel_right hA, ← xorBytes_cancel_right hB, xorBytes_comm A, xorBytes_comm B, h]

end Sys2Proof.Machine
end

section
/-! The per-block steps of the four modes, both directions at once (45_mode_layer.md R140 to R147). -/

namespace Sys2Proof.Machine

/-- The step of a command: `enc_step` of MENC, `dec_step` of MDEC. -/
def modeStep (dir : Direction) (cfg : Config) (c : Cipher) (K : List BitSeq) (m : Mode) :
    List Byte → List Byte → Except CipherError (List Byte × List Byte) :=
  match dir with
  | .enc => encStep cfg c K m
  | .dec => decStep cfg c K m

section Steps

variable {dir : Direction} {cfg : Config} {c : Cipher} {K : List BitSeq} {m : Mode} {cv cv' B o z : List Byte}

theorem modeStep_ok (dir : Direction) (cfg : Config) (hK : ScheduleShape c K) (m : Mode) (hcv : cv.length = 8)
    (hB : B.length = 8) :
    ∃ o z, modeStep dir cfg c K m cv B = .ok (o, z) ∧ o.length = 8 ∧ z.length = 8 := by
  cases dir with
  | enc => exact encStep_ok cfg hK m hcv hB
  | dec => exact decStep_ok cfg hK m hcv hB

/-- What a step that calls the single-block function first can answer. -/
theorem except_bind_ok {α β : Type} {x : Except CipherError α} {f : α → β} {r : β}
    (h : (x >>= fun a => pure (f a)) = Except.ok r) : ∃ a, x = .ok a ∧ f a = r := by
  cases x with
  | error e => cases h
  | ok a => exact ⟨a, rfl, Except.ok.inj h⟩

/-- ECB (R140, R144): no chaining value is read or written. -/
theorem modeStep_ecb (h : modeStep dir cfg c K .ecb cv B = .ok (o, z)) :
    cryptBytes cfg c K dir B = .ok o ∧ z = cv := by
  cases dir <;>
  · obtain ⟨C, hC, hr⟩ := except_bind_ok h
    cases hr
    exact ⟨hC, rfl⟩

/-- CBC encryption (R141). -/
theorem modeStep_enc_cbc (h : modeStep .enc cfg c K .cbc cv B = .ok (o, z)) :
    cryptBytes cfg c K .enc (xorBytes B cv) = .ok o ∧ z = o := by
  obtain ⟨C, hC, hr⟩ := except_bind_ok h
  cases hr
  exact ⟨hC, rfl⟩

/-- CBC decryption (R145). -/
theorem modeStep_dec_cbc (h : modeStep .dec cfg c K .cbc cv B = .ok (o, z)) :
    ∃ D, cryptBytes cfg c K .dec B = .ok D ∧ o = xorBytes D cv ∧ z = B := by
  obtain ⟨D, hD, hr⟩ := except_bind_ok h
  cases hr
  exact ⟨D, hD, rfl, rfl⟩

/-- The ciphertext block of a step: its output when encrypting, its input when decrypting. -/
def cipherSide {α : Type} (dir : Direction) (input output : α) : α :=
  match dir with
  | .enc => output
  | .dec => input

/-- CFB (R142, R146): both directions encrypt the chaining value, and the next one is the ciphertext block. -/
theorem modeStep_cfb (h : modeStep dir cfg c K .cfb cv B = .ok (o, z)) :
    ∃ O, cryptBytes cfg c K .enc cv = .ok O ∧ o = xorBytes B O ∧ z = cipherSide dir B o := by
  cases dir <;>
  · obtain ⟨O, hO, hr⟩ := except_bind_ok h
    cases hr
    exact ⟨O, hO, rfl, rfl⟩

/-- OFB (R143, R147): the next chaining value is the encryption of this one, whatever the block. -/
theorem modeStep_ofb (h : modeStep dir cfg c K .ofb cv B = .ok (o, z)) :
    cryptBytes cfg c K .enc cv = .ok z ∧ o = xorBytes B z := by
  cases dir <;>
  · obtain ⟨O, hO, hr⟩ := except_bind_ok h
    cases hr
    exact ⟨hO, rfl⟩

/-- The decryption step on the output of the encryption step, from the same chaining value where the mode reads one,
gives back the block and goes on from the same chaining value (R156). -/
theorem modeStep_roundTrip {P P' C z' : List Byte} (hK : ScheduleShape c K) (hcv : cv.length = 8) (hP : P.length = 8)
    (hchain : chained m = true → cv' = cv) (henc : modeStep .enc cfg c K m cv P = .ok (C, z))
    (hdec : modeStep .dec cfg c K m cv' C = .ok (P', z')) : P' = P ∧ (chained m = true → z' = z) := by
  cases m with
  | ecb =>
    obtain ⟨hC, -⟩ := modeStep_ecb henc
    obtain ⟨hP', -⟩ := modeStep_ecb hdec
    exact ⟨Except.ok.inj (hP'.symm.trans (cryptBytes_dec_enc hK hP hC)), nofun⟩
  | cbc =>
    obtain rfl := hchain rfl
    obtain ⟨hC, rfl⟩ := modeStep_enc_cbc henc
    obtain ⟨D, hD, rfl, rfl⟩ := modeStep_dec_cbc hdec
    cases hD.symm.trans (cryptBytes_dec_enc hK (by simp [hP, hcv]) hC)
    exact ⟨xorBytes_cancel_right (hP.trans hcv.symm), fun _ => rfl⟩
  | cfb =>
    obtain rfl := hchain rfl
    obtain ⟨O, hO, rfl, rfl⟩ := modeStep_cfb henc
    obtain ⟨O', hO', rfl, rfl⟩ := modeStep_cfb hdec
    cases hO.symm.trans hO'
    exact ⟨xorBytes_cancel_right (hP.trans (cryptBytes_length hK hcv hO).symm), fun _ => rfl⟩
  | ofb =>
    obtain rfl := hchain rfl
    obtain ⟨hz, rfl⟩ := modeStep_ofb henc
    obtain ⟨hz', rfl⟩ := modeStep_ofb hdec
    cases hz.symm.trans hz'
    exact ⟨xorBytes_cancel_right (hP.trans (cryptBytes_length hK hcv hz).symm), fun _ => rfl⟩

/-- In a chained mode a block encrypts alike exactly from equal chaining values (R157). -/
theorem modeStep_enc_eq_iff {P o' z' : List Byte} (hK : ScheduleShape c K) (hm : m ≠ .ecb) (hcv : cv.length = 8)
    (hcv' : cv'.length = 8) (hP : P.length = 8) (h : modeStep .enc cfg c K m cv P = .ok (o, z))
    (h' : modeStep .enc cfg c K m cv' P = .ok (o', z')) : o = o' ↔ cv = cv' := by
  cases m with
  | ecb => exact absurd rfl hm
  | cbc =>
    obtain ⟨ho, -⟩ := modeStep_enc_cbc h
    obtain ⟨ho', -⟩ := modeStep_enc_cbc h'
    rw [cryptBytes_enc_eq_iff hK (by simp [hP, hcv]) (by simp [hP, hcv']) ho ho',
      xorBytes_right_inj (hcv.trans hP.symm) (hcv'.trans hP.symm)]
  | cfb =>
    obtain ⟨O, hO, rfl, -⟩ := modeStep_cfb h
    obtain ⟨O', hO', rfl, -⟩ := modeStep_cfb h'
    rw [xorBytes_right_inj ((cryptBytes_length hK hcv hO).trans hP.symm) ((cryptBytes_length hK hcv' hO').trans hP.symm),
      cryptBytes_enc_eq_iff hK hcv hcv' hO hO']
  | ofb =>
    obtain ⟨hz, rfl⟩ := modeStep_ofb h
    obtain ⟨hz', rfl⟩ := modeStep_ofb h'
    rw [xorBytes_right_inj ((cryptBytes_length hK hcv hz).trans hP.symm) ((cryptBytes_length hK hcv' hz').trans hP.symm),
      cryptBytes_enc_eq_iff hK hcv hcv' hz hz']

end Steps

end Sys2Proof.Machine
end

section
/-! The block loop of MENC and MDEC block by block: the input block, the output block and the chaining value at each
number (45_mode_layer.md R138, R139). -/

namespace Sys2Proof.Machine

/-! ### The blocks of a byte sequence (R44) -/

theorem blockAt_zero_append {o : List Byte} (ho : o.length = 8) (Y : List Byte) : blockAt (o ++ Y) 0 = o :=
  List.take_left' ho

theorem blockAt_succ_append {o : List Byte} (ho : o.length = 8) (Y : List Byte) (b : Nat) :
    blockAt (o ++ Y) (b + 1) = blockAt Y b := by
  have hskip : 8 * (b + 1) = o.length + 8 * b := by omega
  rw [blockAt, hskip, ← List.drop_drop, List.drop_left, blockAt]

theorem blockAt_drop (X : List Byte) (b : Nat) : blockAt (X.drop 8) b = blockAt X (b + 1) := by
  rw [blockAt, blockAt, List.drop_drop, Nat.mul_succ, Nat.add_comm]

theorem blocksOf_succ (n : Nat) (X : List Byte) : blocksOf (n + 1) X = blockAt X 0 :: blocksOf n (X.drop 8) := by
  rw [blocksOf, List.range_succ_eq_map, List.map_cons, List.map_map, blocksOf]
  exact congrArg _ (List.map_congr_left fun b _ => (blockAt_drop X b).symm)

/-- The first `b + 1` blocks are the first `b` and block `b`. -/
theorem take_succ_blocks (Y : List Byte) (b : Nat) : Y.take (8 * (b + 1)) = Y.take (8 * b) ++ blockAt Y b :=
  List.take_add

theorem blockAt_getElem? (X : List Byte) (i : Nat) : (blockAt X (i / 8))[i % 8]? = X[i]? := by
  rw [blockAt, List.getElem?_take_of_lt (by omega), List.getElem?_drop, Nat.div_add_mod]

/-- Sequences of whole blocks with the same blocks are equal. -/
theorem eq_of_blockAt_eq {X Y : List Byte} (hlength : Y.length = X.length) (h8 : X.length % 8 = 0)
    (h : ∀ b, b < X.length / 8 → blockAt X b = blockAt Y b) : X = Y := by
  refine List.ext_getElem? fun i => ?_
  rcases Nat.lt_or_ge i X.length with hi | hi
  · rw [← blockAt_getElem? X, ← blockAt_getElem? Y, h _ (by omega)]
  · rw [List.getElem?_eq_none hi, List.getElem?_eq_none (by omega)]

/-! ### The loop -/

/-- `Y` is `X` transformed block after block by `step` from chaining value `cv`; `Z` lists the chaining values, `Z[b]`
before block `b`, the last one after the last block. -/
structure ChainTrace (step : List Byte → List Byte → Except CipherError (List Byte × List Byte)) (cv X Y : List Byte)
    (Z : List (List Byte)) : Prop where
  /-- one output block per input block -/
  length : Y.length = 8 * (X.length / 8)
  /-- one chaining value more than blocks -/
  count : Z.length = X.length / 8 + 1
  /-- the first chaining value -/
  start : Z.getD 0 [] = cv
  /-- chaining values are blocks -/
  width : ∀ b, b ≤ X.length / 8 → (Z.getD b []).length = 8
  /-- the step of block `b` -/
  block : ∀ b, b < X.length / 8 → step (Z.getD b []) (blockAt X b) = .ok (blockAt Y b, Z.getD (b + 1) [])

/-- A step that answers two blocks on two blocks. -/
def BlockStep (step : List Byte → List Byte → Except CipherError (List Byte × List Byte)) : Prop :=
  ∀ cv B : List Byte, cv.length = 8 → B.length = 8 →
    ∃ o cv', step cv B = .ok (o, cv') ∧ o.length = 8 ∧ cv'.length = 8

section Trace

variable {step : List Byte → List Byte → Except CipherError (List Byte × List Byte)} {cv X Y o cv' : List Byte}
  {Z : List (List Byte)}

/-- One block, then the trace of the rest. -/
theorem ChainTrace.cons (hX : 8 ≤ X.length) (hcv : cv.length = 8) (hstep : step cv (blockAt X 0) = .ok (o, cv'))
    (ho : o.length = 8) (h : ChainTrace step cv' (X.drop 8) Y Z) : ChainTrace step cv X (o ++ Y) (cv :: Z) := by
  have hrest : X.length / 8 = (X.drop 8).length / 8 + 1 := by rw [List.length_drop]; omega
  refine ⟨?_, ?_, rfl, fun b hb => ?_, fun b hb => ?_⟩
  · rw [List.length_append, ho, h.length, hrest]
    omega
  · rw [List.length_cons, h.count, hrest]
  · cases b with
    | zero => exact hcv
    | succ b => exact h.width b (by omega)
  · cases b with
    | zero => rw [blockAt_zero_append ho, List.getD_cons_succ, h.start]; exact hstep
    | succ b =>
      rw [blockAt_succ_append ho, ← blockAt_drop]
      exact h.block b (by omega)

/-- The loop makes a trace and ends with its last chaining value. -/
theorem runBlocks_trace (hstep : BlockStep step) {n : Nat} (hn : X.length / 8 = n) (hcv : cv.length = 8) :
    ∃ Z, ChainTrace step cv X (runBlocks step cv (blocksOf n X)).out Z ∧
      Z.getD n [] = (runBlocks step cv (blocksOf n X)).cv := by
  induction n generalizing X cv with
  | zero =>
    refine ⟨[cv], ⟨by rw [hn]; rfl, by rw [hn]; rfl, rfl, fun b hb => ?_, fun b hb => ?_⟩, rfl⟩
    · obtain rfl : b = 0 := by omega
      exact hcv
    · omega
  | succ n ih =>
    obtain ⟨o, cv', hblock, ho, hcv'⟩ := hstep cv (blockAt X 0) hcv (blockAt_length (by omega))
    obtain ⟨Z, htrace, hlast⟩ := ih (X := X.drop 8) (by rw [List.length_drop]; omega) hcv'
    rw [blocksOf_succ]
    simp only [runBlocks, hblock]
    exact ⟨cv :: Z, htrace.cons (by omega) hcv hblock ho, hlast⟩

/-- Where every step passes on the ciphertext block, the chaining value is the block before (R141, R142, R145, R146). -/
theorem ChainTrace.chainBlock_eq {C : List Byte} (h : ChainTrace step cv X Y Z)
    (hC : ∀ b, b < X.length / 8 → Z.getD (b + 1) [] = blockAt C b) {b : Nat} (hb : b ≤ X.length / 8) :
    Z.getD b [] = chainBlock cv C b := by
  cases b with
  | zero => exact h.start
  | succ b => exact hC b hb

/-- Where no step changes the chaining value, it is the first one throughout (R140, R144). -/
theorem ChainTrace.constant (h : ChainTrace step cv X Y Z)
    (hC : ∀ b, b < X.length / 8 → Z.getD (b + 1) [] = Z.getD b []) {b : Nat} (hb : b ≤ X.length / 8) :
    Z.getD b [] = cv := by
  induction b with
  | zero => exact h.start
  | succ b ih => rw [hC b hb, ih (by omega)]

theorem ChainTrace.length_eq (h : ChainTrace step cv X Y Z) (h8 : X.length % 8 = 0) : Y.length = X.length := by
  rw [h.length]
  omega

end Trace

end Sys2Proof.Machine
end

section
/-! The trace of a command in each mode is the relation between input and output that R140 to R147 give. -/

namespace Sys2Proof.Machine

section Modes

variable {dir : Direction} {cfg : Config} {c : Cipher} {K : List BitSeq} {m : Mode} {cv X Y : List Byte}
  {Z : List (List Byte)}

theorem ChainTrace.ecbBlocks (h : ChainTrace (modeStep dir cfg c K .ecb) cv X Y Z) (h8 : X.length % 8 = 0) :
    EcbBlocks cfg c K dir X Y :=
  ⟨h.length_eq h8, fun b hb => (modeStep_ecb (h.block b hb)).1⟩

theorem ChainTrace.ecb_constant (h : ChainTrace (modeStep dir cfg c K .ecb) cv X Y Z) {b : Nat}
    (hb : b ≤ X.length / 8) : Z.getD b [] = cv :=
  h.constant (fun b hb => (modeStep_ecb (h.block b hb)).2) hb

/-- In CBC and CFB the chaining value after a block is its ciphertext block. -/
theorem ChainTrace.next_eq_cipher (h : ChainTrace (modeStep dir cfg c K m) cv X Y Z) (hecb : m ≠ .ecb) (hofb : m ≠ .ofb)
    (b : Nat) (hb : b < X.length / 8) : Z.getD (b + 1) [] = blockAt (cipherSide dir X Y) b := by
  cases m with
  | ecb => exact absurd rfl hecb
  | ofb => exact absurd rfl hofb
  | cbc =>
    cases dir with
    | enc => exact (modeStep_enc_cbc (h.block b hb)).2
    | dec =>
      obtain ⟨-, -, -, hz⟩ := modeStep_dec_cbc (h.block b hb)
      exact hz
  | cfb =>
    obtain ⟨-, -, -, hz⟩ := modeStep_cfb (h.block b hb)
    cases dir <;> exact hz

theorem ChainTrace.cbcCipherBlocks (h : ChainTrace (modeStep .enc cfg c K .cbc) cv X Y Z) (h8 : X.length % 8 = 0) :
    CbcCipherBlocks cfg c K cv X Y := by
  refine ⟨h.length_eq h8, fun b hb => ?_⟩
  rw [← h.chainBlock_eq (C := Y) (h.next_eq_cipher nofun nofun) hb.le]
  exact (modeStep_enc_cbc (h.block b hb)).1

theorem ChainTrace.cbcPlainBlocks (h : ChainTrace (modeStep .dec cfg c K .cbc) cv X Y Z) (h8 : X.length % 8 = 0) :
    CbcPlainBlocks cfg c K cv X Y := by
  refine ⟨h.length_eq h8, fun b hb => ?_⟩
  rw [← h.chainBlock_eq (C := X) (h.next_eq_cipher nofun nofun) hb.le]
  obtain ⟨D, hD, ho, -⟩ := modeStep_dec_cbc (h.block b hb)
  exact ⟨D, hD, ho⟩

theorem ChainTrace.cfbBlocks (h : ChainTrace (modeStep dir cfg c K .cfb) cv X Y Z) (h8 : X.length % 8 = 0) :
    CfbBlocks cfg c K cv (cipherSide dir X Y) X Y := by
  refine ⟨h.length_eq h8, fun b hb => ?_⟩
  rw [← h.chainBlock_eq (h.next_eq_cipher nofun nofun) hb.le]
  obtain ⟨O, hO, ho, -⟩ := modeStep_cfb (h.block b hb)
  exact ⟨O, hO, ho⟩

theorem ChainTrace.ofbBlocks (h : ChainTrace (modeStep dir cfg c K .ofb) cv X Y Z) (h8 : X.length % 8 = 0) :
    OfbBlocks cfg c K cv X Y (Z.getD (X.length / 8) []) :=
  ⟨h.length_eq h8, Z, h.count, h.start, rfl, fun b hb => modeStep_ofb (h.block b hb)⟩

/-- Decrypting the blocks of an encryption gives back its input (R156). -/
theorem ChainTrace.roundTrip {cv' P : List Byte} {Z' : List (List Byte)} (hK : ScheduleShape c K)
    (h8 : X.length % 8 = 0) (henc : ChainTrace (modeStep .enc cfg c K m) cv X Y Z)
    (hdec : ChainTrace (modeStep .dec cfg c K m) cv' Y P Z') (hstart : chained m = true → cv' = cv) : P = X := by
  have hY : Y.length = X.length := henc.length_eq h8
  have hblock (b : Nat) (hb : b < X.length / 8) (hchain : chained m = true → Z'.getD b [] = Z.getD b []) :=
    modeStep_roundTrip hK (henc.width b hb.le) (blockAt_length (by omega)) hchain (henc.block b hb)
      (hdec.block b (by rwa [hY]))
  have hchain (b : Nat) (hb : b ≤ X.length / 8) : chained m = true → Z'.getD b [] = Z.getD b [] := by
    induction b with
    | zero => rwa [henc.start, hdec.start]
    | succ b ih => exact (hblock b hb (ih (by omega))).2
  have hP : P.length = X.length := (hdec.length_eq (by rwa [hY])).trans hY
  exact eq_of_blockAt_eq hP.symm (by rwa [hP]) fun b hb => (hblock b (by rwa [← hP]) (hchain b (by omega))).1

end Modes

end Sys2Proof.Machine
end

section
/-! MENC and MDEC that pass `Validate` (45_mode_layer.md R138, R139): what both write, the block loop as a trace. -/

namespace Sys2Proof.Machine

/-! ### The validation -/

theorem ivLengthBad_eq_false {m : Mode} {s : State} :
    ivLengthBad m s = false ↔ (m ≠ .ecb → s.ivlen.toNat = 8) := by
  cases m <;> simp [ivLengthBad, chained]

theorem validateEnc_eq_none_iff {c : Cipher} {m : Mode} {s : State} : validateEnc c m s = none ↔ MencReady c m s := by
  rw [MencReady, ← keyLengthBad_eq_false, ← ivLengthBad_eq_false, validateEnc, ← Nat.not_lt]
  split_ifs with hlength hkey hiv <;> simp_all [paddedLength]

theorem validateDec_eq_none_iff {c : Cipher} {m : Mode} {s : State} : validateDec c m s = none ↔ MdecReady c m s := by
  rw [MdecReady, ← keyLengthBad_eq_false, ← ivLengthBad_eq_false, validateDec, ← Nat.not_lt]
  split_ifs with hlength hkey hiv hwidth <;> simp_all

/-! ### The input and the loop of both commands -/

/-- The data a command takes block by block: the padded message of MENC, the message of MDEC. -/
def blockInput (dir : Direction) (s : State) : List Byte :=
  match dir with
  | .enc => pad (message s)
  | .dec => message s

/-- The block loop of a command: `encRun` or `decRun`. -/
def messageLoop (dir : Direction) (c : Cipher) (m : Mode) (K : List BitSeq) (s : State) : BlockRun :=
  runBlocks (modeStep dir s.cfg c K m) (startChaining m s) (blocksOf (blockCount dir s) (blockInput dir s))

theorem messageLoop_enc (c : Cipher) (m : Mode) (K : List BitSeq) (s : State) :
    messageLoop .enc c m K s = encRun c m K s := rfl

theorem messageLoop_dec (c : Cipher) (m : Mode) (K : List BitSeq) (s : State) :
    messageLoop .dec c m K s = decRun c m K s := rfl

theorem padded_length (s : State) : (pad (message s)).length = s.mlen.toNat + 8 - s.mlen.toNat % 8 := by simp

theorem blockInput_length_div (dir : Direction) (s : State) : (blockInput dir s).length / 8 = blockCount dir s := by
  cases dir with
  | enc => exact congrArg (· / 8) (padded_length s)
  | dec => exact congrArg (· / 8) (message_length s)

theorem padded_length_mod (s : State) : (pad (message s)).length % 8 = 0 := by
  rw [padded_length]
  omega

/-- The block loop of a command makes a trace, whatever the state (R138, R139). -/
theorem messageLoop_trace (dir : Direction) (c : Cipher) (m : Mode) {K : List BitSeq} (hK : ScheduleShape c K)
    (s : State) :
    ∃ Z, ChainTrace (modeStep dir s.cfg c K m) (startChaining m s) (blockInput dir s) (messageLoop dir c m K s).out Z ∧
      Z.getD (blockCount dir s) [] = (messageLoop dir c m K s).cv :=
  runBlocks_trace (fun _ _ => modeStep_ok dir s.cfg hK m) (blockInput_length_div dir s) (startChaining_length m s)

/-! ### What both commands write -/

theorem chained_of_ne_ecb {m : Mode} (h : m ≠ .ecb) : chained m = true := by
  cases m with
  | ecb => exact absurd rfl h
  | cbc | cfb | ofb => rfl

theorem startChaining_chained {m : Mode} (h : chained m = true) (s : State) : startChaining m s = s.iv.toList :=
  if_pos h

theorem finishMessage_messageFrame (c : Cipher) (K : List BitSeq) (m : Mode) (cv o : List Byte) (s : State) :
    MessageFrame s (finishMessage o (storeChaining m cv (storeSchedule c K s))) := by
  cases m <;> rfl

theorem raise_messageFrame (c : Cipher) (K : List BitSeq) (m : Mode) (cv : List Byte) (e : CipherError) (s : State) :
    MessageFrame s (raise e true (storeChaining m cv (storeSchedule c K s))) := by
  cases m <;> rfl

theorem statusError_scheduleFlags (c : Cipher) (v : Byte) :
    ScheduleFlags c v (statusError (statusSchedule c v)) false := by
  have hbit (j : Nat) : (statusError (statusSchedule c v)).getLsbD j =
      if j = 1 then true else if j = 0 then false else if j = 3 then decide (c = .gost) else if j = 2 then true
      else v.getLsbD j := by
    rw [statusError_getLsbD, statusSchedule_getLsbD]
  refine ⟨hbit 0, hbit 1, hbit 2, hbit 3, fun i hi => ?_⟩
  rw [hbit, if_neg (by omega), if_neg (by omega), if_neg (by omega), if_neg (by omega)]

/-- A command that passed `Validate` went from `s` to `t`: under schedule `K` its blocks turned the input into `Y` through
the chaining values `Z`, and `RK` and `CV` were written accordingly. -/
structure MessageRun (dir : Direction) (c : Cipher) (m : Mode) (s : State) (K : List BitSeq) (Y : List Byte)
    (Z : List (List Byte)) (t : State) : Prop where
  /-- `K` is the schedule of `KEY` -/
  derived : deriveRoundKeys c (bytesToBits (s.key.toList.take (keyBytes c))) = .ok K
  /-- it has its shape -/
  shape : ScheduleShape c K
  /-- the blocks -/
  trace : ChainTrace (modeStep dir s.cfg c K m) (startChaining m s) (blockInput dir s) Y Z
  /-- nothing but the registers of the command changes -/
  frame : MessageFrame s t
  /-- `RK` holds `K` -/
  schedule : HoldsSchedule c K t
  /-- `CV` is the last chaining value in a chained mode, unchanged in ECB -/
  chaining : t.cv = if chained m then bufferOf 8 (Z.getD (blockCount dir s) []) else s.cv

section Run

variable {dir : Direction} {c : Cipher} {m : Mode} {s t : State} {K : List BitSeq} {Y : List Byte} {Z : List (List Byte)}

theorem MessageRun.cv_ecb (h : MessageRun dir c .ecb s K Y Z t) : t.cv = s.cv := h.chaining

theorem MessageRun.cv_chained (h : MessageRun dir c m s K Y Z t) (hm : chained m = true) :
    t.cv.toList = Z.getD (blockCount dir s) [] := by
  rw [h.chaining, if_pos hm]
  exact bufferOf_toList (h.trace.width _ (blockInput_length_div dir s).ge)

theorem MessageRun.trace_chained (h : MessageRun dir c m s K Y Z t) (hm : chained m = true) :
    ChainTrace (modeStep dir s.cfg c K m) s.iv.toList (blockInput dir s) Y Z :=
  startChaining_chained hm s ▸ h.trace

end Run

/-- A state that the command's schedule and last chaining value were written to, however it ended. -/
theorem messageRun_of_writes {dir : Direction} {c : Cipher} {m : Mode} {s t : State} {K : List BitSeq}
    (hK : deriveRoundKeys c (keyBits c s) = .ok K) (hshape : ScheduleShape c K) (hframe : MessageFrame s t)
    (hrk : t.rk = (storeSchedule c K s).rk)
    (hcv : t.cv = (storeChaining m (messageLoop dir c m K s).cv (storeSchedule c K s)).cv) :
    ∃ Z, MessageRun dir c m s K (messageLoop dir c m K s).out Z t := by
  obtain ⟨Z, htrace, hlast⟩ := messageLoop_trace dir c m hshape s
  refine ⟨Z, hK, hshape, htrace, hframe, fun i => ?_, ?_⟩
  · rw [hrk]
    exact storeSchedule_holdsSchedule hshape s i
  · rw [hcv, hlast, storeChaining_cv, storeSchedule_cv]

/-- MENC after its validation (R138). -/
theorem exec_mencInstr_ready {c : Cipher} {m : Mode} {s : State} (h : MencReady c m s) :
    ∃ K Z t, exec (mencInstr c m) s = .next t ∧ MessageRun .enc c m s K t.out Z t ∧ t.err = 0 ∧
      ScheduleFlags c s.status t.status true := by
  rcases encryptMessage_cases c m s with ⟨e, hv, -⟩ | ⟨-, K, hK, hshape, hrun⟩
  · cases (validateEnc_eq_none_iff.2 h).symm.trans hv
  obtain ⟨Z, hZ⟩ := messageRun_of_writes (dir := .enc) (m := m) hK hshape
    (finishMessage_messageFrame c K m (encRun c m K s).cv (encRun c m K s).out s) (by simp) rfl
  refine ⟨K, Z, _, (exec_mencInstr c m s).trans (congrArg _ hrun), hZ, rfl, ?_⟩
  rw [finishMessage_status, storeChaining_status]
  exact statusSuccess_scheduleFlags c s.status

/-- MDEC after its validation (R139): `P` is the decrypted data. -/
theorem exec_mdecInstr_ready {c : Cipher} {m : Mode} {s : State} (h : MdecReady c m s) :
    ∃ K P Z t, exec (mdecInstr c m) s = .next t ∧ MessageRun .dec c m s K P Z t ∧ MdecOutcome c P s t := by
  rcases decryptMessage_cases c m s with ⟨e, hv, -⟩ | ⟨-, K, hK, hshape, hend⟩
  · cases (validateDec_eq_none_iff.2 h).symm.trans hv
  refine ⟨K, (decRun c m K s).out, ?_⟩
  rcases hend with ⟨e, hunpad, hrun⟩ | ⟨M, hunpad, hrun⟩
  · obtain rfl := unpad_error hunpad
    obtain ⟨Z, hZ⟩ := messageRun_of_writes (dir := .dec) (m := m) hK hshape
      (raise_messageFrame c K m (decRun c m K s).cv .invalidPadding s) (by simp) (by rw [raise_cv]; rfl)
    refine ⟨Z, _, (exec_mdecInstr c m s).trans (congrArg _ hrun), hZ, fun M hM => ?_, fun _ => ⟨rfl, rfl, ?_⟩⟩
    · cases hunpad.symm.trans (unpad_eq_ok_iff.2 hM)
    · rw [raise_status, storeChaining_status]
      exact statusError_scheduleFlags c s.status
  · obtain ⟨Z, hZ⟩ := messageRun_of_writes (dir := .dec) (m := m) hK hshape
      (finishMessage_messageFrame c K m (decRun c m K s).cv M s) (by simp) rfl
    refine ⟨Z, _, (exec_mdecInstr c m s).trans (congrArg _ hrun), hZ, fun M' hM' => ?_, fun hnone => ?_⟩
    · cases hunpad.symm.trans (unpad_eq_ok_iff.2 hM')
      refine ⟨rfl, rfl, ?_⟩
      rw [finishMessage_status, storeChaining_status]
      exact statusSuccess_scheduleFlags c s.status
    · exact absurd ⟨M, unpad_eq_ok_iff.1 hunpad⟩ hnone

end Sys2Proof.Machine
end

section
/-! MENC in each mode (45_mode_layer.md R148 to R151). -/

namespace Sys2Proof.Machine

section Menc

variable {c : Cipher} {m : Mode} {s t : State} {K : List BitSeq} {Y : List Byte} {Z : List (List Byte)}

theorem MessageRun.out_length (h : MessageRun .enc c m s K Y Z t) :
    Y.length = s.mlen.toNat + 8 - s.mlen.toNat % 8 :=
  (h.trace.length_eq (padded_length_mod s)).trans (padded_length s)

theorem MessageRun.out_length_div (h : MessageRun .enc c m s K Y Z t) :
    Y.length / 8 = (blockInput .enc s).length / 8 :=
  congrArg (· / 8) (h.trace.length_eq (padded_length_mod s))

/-- MENC ends with the last ciphertext block in `CV` in CBC and CFB; there is at least one block. -/
theorem MessageRun.cv_lastBlock (h : MessageRun .enc c m s K Y Z t) (hecb : m ≠ .ecb)
    (hofb : m ≠ .ofb) : t.cv.toList = blockAt Y ((s.mlen.toNat + 8 - s.mlen.toNat % 8) / 8 - 1) := by
  have hcount : (blockInput .enc s).length = s.mlen.toNat + 8 - s.mlen.toNat % 8 := padded_length s
  have hlast := h.trace.next_eq_cipher hecb hofb ((s.mlen.toNat + 8 - s.mlen.toNat % 8) / 8 - 1) (by omega)
  rw [h.cv_chained (chained_of_ne_ecb hecb), ← blockInput_length_div, hcount]
  rwa [Nat.sub_add_cancel (by omega)] at hlast

end Menc

/-- Settles O39. -/
theorem mencEcbEncryptsThePaddedMessage : Obligations.MencEcbEncryptsThePaddedMessage := by
  intro c s hready
  obtain ⟨K, Z, t, hexec, h, herr, hflags⟩ := exec_mencInstr_ready hready
  exact ⟨K, t, h.derived, hexec, h.frame, h.schedule, herr, hflags, h.out_length,
    h.trace.ecbBlocks (padded_length_mod s), h.cv_ecb⟩

/-- Settles O40. -/
theorem mencCbcEncryptsThePaddedMessage : Obligations.MencCbcEncryptsThePaddedMessage := by
  intro c s hready
  obtain ⟨K, Z, t, hexec, h, herr, hflags⟩ := exec_mencInstr_ready hready
  exact ⟨K, t, h.derived, hexec, h.frame, h.schedule, herr, hflags, h.out_length,
    (h.trace_chained rfl).cbcCipherBlocks (padded_length_mod s), h.cv_lastBlock nofun nofun⟩

/-- Settles O41. -/
theorem mencCfbEncryptsThePaddedMessage : Obligations.MencCfbEncryptsThePaddedMessage := by
  intro c s hready
  obtain ⟨K, Z, t, hexec, h, herr, hflags⟩ := exec_mencInstr_ready hready
  exact ⟨K, t, h.derived, hexec, h.frame, h.schedule, herr, hflags, h.out_length,
    (h.trace_chained rfl).cfbBlocks (padded_length_mod s), h.cv_lastBlock nofun nofun⟩

/-- Settles O42: the chaining values are the key stream. -/
theorem mencOfbEncryptsThePaddedMessage : Obligations.MencOfbEncryptsThePaddedMessage := by
  intro c s hready
  obtain ⟨K, Z, t, hexec, h, herr, hflags⟩ := exec_mencInstr_ready hready
  refine ⟨K, t, h.derived, hexec, h.frame, h.schedule, herr, hflags, h.out_length, ?_⟩
  rw [h.cv_chained rfl, ← blockInput_length_div]
  exact (h.trace_chained rfl).ofbBlocks (padded_length_mod s)

end Sys2Proof.Machine
end

section
/-! MDEC in each mode (45_mode_layer.md R152 to R155). -/

namespace Sys2Proof.Machine

section Mdec

variable {c : Cipher} {m : Mode} {s t : State} {K : List BitSeq} {P : List Byte} {Z : List (List Byte)}

theorem MdecReady.message_length_mod (h : MdecReady c m s) : (message s).length % 8 = 0 := by
  obtain ⟨-, -, -, hmod⟩ := h
  rwa [message_length]

/-- MDEC ends with the last ciphertext block in `CV` in CBC and CFB, or `IV` when there is none. -/
theorem MessageRun.cv_chainBlock (h : MessageRun .dec c m s K P Z t) (hecb : m ≠ .ecb)
    (hofb : m ≠ .ofb) : t.cv.toList = chainBlock s.iv.toList (message s) (s.mlen.toNat / 8) :=
  have hm := chained_of_ne_ecb hecb
  (h.cv_chained hm).trans ((h.trace_chained hm).chainBlock_eq (h.trace.next_eq_cipher hecb hofb)
    (blockInput_length_div .dec s).ge)

end Mdec

/-- Settles O43. -/
theorem mdecEcbDecryptsAndUnpads : Obligations.MdecEcbDecryptsAndUnpads := by
  intro c s hready
  obtain ⟨K, P, Z, t, hexec, h, hout⟩ := exec_mdecInstr_ready hready
  exact ⟨K, P, t, h.derived, h.trace.ecbBlocks hready.message_length_mod, hexec, h.frame, h.schedule, hout, h.cv_ecb⟩

/-- Settles O44. -/
theorem mdecCbcDecryptsAndUnpads : Obligations.MdecCbcDecryptsAndUnpads := by
  intro c s hready
  obtain ⟨K, P, Z, t, hexec, h, hout⟩ := exec_mdecInstr_ready hready
  exact ⟨K, P, t, h.derived, (h.trace_chained rfl).cbcPlainBlocks hready.message_length_mod, hexec, h.frame, h.schedule,
    hout, h.cv_chainBlock nofun nofun⟩

/-- Settles O45. -/
theorem mdecCfbDecryptsAndUnpads : Obligations.MdecCfbDecryptsAndUnpads := by
  intro c s hready
  obtain ⟨K, P, Z, t, hexec, h, hout⟩ := exec_mdecInstr_ready hready
  exact ⟨K, P, t, h.derived, (h.trace_chained rfl).cfbBlocks hready.message_length_mod, hexec, h.frame, h.schedule,
    hout, h.cv_chainBlock nofun nofun⟩

/-- Settles O46: the key stream is the one of the encryption. -/
theorem mdecOfbDecryptsAndUnpads : Obligations.MdecOfbDecryptsAndUnpads := by
  intro c s hready
  obtain ⟨K, P, Z, t, hexec, h, hout⟩ := exec_mdecInstr_ready hready
  refine ⟨K, P, t, h.derived, ?_, hexec, h.frame, h.schedule, hout⟩
  rw [h.cv_chained rfl, ← blockInput_length_div]
  exact (h.trace_chained rfl).ofbBlocks hready.message_length_mod

end Sys2Proof.Machine
end

section
/-! MENC and MDEC that fail `Validate`: the first error in the order of R181 (45_mode_layer.md R138, R139). -/

namespace Sys2Proof.Machine

/-- The code of the first error of MENC's validation. -/
theorem errorCode_validateEnc {c : Cipher} {m : Mode} {s : State} {e : CipherError} (h : validateEnc c m s = some e) :
    errorCode e = if s.cfg.bufMax < s.mlen.toNat + 8 - s.mlen.toNat % 8 then 7
      else if s.klen.toNat ≠ keyBytes c then 1 else 2 := by
  simp only [validateEnc, paddedLength, keyLengthBad, decide_eq_true_eq] at h
  split_ifs at h ⊢ <;> cases h <;> rfl

/-- The code of the first error of MDEC's validation. -/
theorem errorCode_validateDec {c : Cipher} {m : Mode} {s : State} {e : CipherError} (h : validateDec c m s = some e) :
    errorCode e = if s.cfg.bufMax < s.mlen.toNat then 7 else if s.klen.toNat ≠ keyBytes c then 1
      else if m ≠ .ecb ∧ s.ivlen.toNat ≠ 8 then 2 else 3 := by
  have hiv : ivLengthBad m s = true ↔ m ≠ .ecb ∧ s.ivlen.toNat ≠ 8 := by
    rw [← Bool.not_eq_false, ivLengthBad_eq_false, Classical.not_imp]
  simp only [validateDec, hiv, keyLengthBad, decide_eq_true_eq] at h
  split_ifs at h ⊢ <;> cases h <;> rfl

/-- Settles O47. -/
theorem mencValidationReportsTheFirstError : Obligations.MencValidationReportsTheFirstError := by
  intro c m s hbad
  rcases encryptMessage_cases c m s with ⟨e, hv, hrun⟩ | ⟨hv, -⟩
  · exact ⟨_, (exec_mencInstr c m s).trans (congrArg _ hrun), rfl, statusError_outcomeFlags s.status,
      errorCode_validateEnc hv⟩
  · exact absurd (validateEnc_eq_none_iff.1 hv) hbad

/-- Settles O48. -/
theorem mdecValidationReportsTheFirstError : Obligations.MdecValidationReportsTheFirstError := by
  intro c m s hbad
  rcases decryptMessage_cases c m s with ⟨e, hv, hrun⟩ | ⟨hv, -⟩
  · exact ⟨_, (exec_mdecInstr c m s).trans (congrArg _ hrun), rfl, statusError_outcomeFlags s.status,
      errorCode_validateDec hv⟩
  · exact absurd (validateDec_eq_none_iff.1 hv) hbad

end Sys2Proof.Machine
end

section
/-! Decryption undoes encryption (45_mode_layer.md R156), and what equal blocks show (R157). -/

namespace Sys2Proof.Machine

/-- A ciphertext in the message buffer of a state with the same key and IV passes the validation of MDEC. -/
theorem mdecReady_of_menc {c : Cipher} {m : Mode} {s t u : State} {K : List BitSeq} {Z : List (List Byte)}
    (hready : MencReady c m s) (h : MessageRun .enc c m s K t.out Z t) (hcfg : u.cfg = s.cfg) (hklen : u.klen = s.klen)
    (hivlen : u.ivlen = s.ivlen) (hmsg : message u = t.out) : MdecReady c m u := by
  obtain ⟨hfits, hkey, hiv⟩ := hready
  have hmlen : u.mlen.toNat = s.mlen.toNat + 8 - s.mlen.toNat % 8 := by rw [← message_length, hmsg, h.out_length]
  refine ⟨?_, by rw [hklen, hkey], by rwa [hivlen], by omega⟩
  rwa [hmlen, hcfg]

/-- Settles O49: the decrypted data is the padded message. -/
theorem messageRoundTrip : Obligations.MessageRoundTrip := by
  intro c m s hready
  obtain ⟨K, Z, t, hexec, henc, -, -⟩ := exec_mencInstr_ready hready
  refine ⟨t, hexec, fun u hcfg hkey hklen hiv hivlen hmsg => ?_⟩
  obtain ⟨K', P, Z', v, hexec', hdec, hout, -⟩ :=
    exec_mdecInstr_ready (mdecReady_of_menc hready henc hcfg hklen hivlen hmsg)
  obtain rfl : K' = K := Except.ok.inj (hdec.derived.symm.trans (hkey ▸ henc.derived))
  have htrace : ChainTrace (modeStep .dec s.cfg c K' m) (startChaining m u) t.out P Z' := by
    rw [← hcfg, ← hmsg]
    exact hdec.trace
  have hP : P = pad (message s) := henc.trace.roundTrip henc.shape (padded_length_mod s) htrace fun hm => by
    rw [startChaining_chained hm, startChaining_chained hm, hiv]
  obtain ⟨hvout, hverr, -⟩ := hout (message s) (hP ▸ pad_paddedFrom (message s))
  exact ⟨v, hexec', hverr, hvout⟩

/-- Settles O50: encryption of a block is injective. -/
theorem ecbLeaksEqualBlocks : Obligations.EcbLeaksEqualBlocks := by
  intro c s hready
  obtain ⟨K, Z, t, hexec, h, -, -⟩ := exec_mencInstr_ready hready
  refine ⟨t, hexec, fun a b ha hb => ?_⟩
  rw [h.out_length_div] at ha hb
  obtain ⟨hCa, -⟩ := modeStep_ecb (h.trace.block a ha)
  obtain ⟨hCb, -⟩ := modeStep_ecb (h.trace.block b hb)
  exact (cryptBytes_enc_eq_iff h.shape (blockAt_length (by omega)) (blockAt_length (by omega)) hCa hCb).symm

/-- Settles O51: with a common block a step's output and its chaining value determine each other. -/
theorem equalBlocksEncryptAlikeExactlyOnEqualChaining : Obligations.EqualBlocksEncryptAlikeExactlyOnEqualChaining := by
  intro c m s hm hready
  obtain ⟨K, Z, t, hexec, h, -, -⟩ := exec_mencInstr_ready hready
  refine ⟨K, t, h.derived, hexec, Z, ?_, (h.trace_chained (chained_of_ne_ecb hm)).start, fun b hb => ⟨fun hofb => ?_, ?_⟩,
    fun a b ha hb hblock => ?_⟩
  · rw [h.out_length_div, h.trace.count]
  · rw [h.out_length_div] at hb
    exact h.trace.next_eq_cipher hm hofb b hb
  · rintro rfl
    rw [h.out_length_div] at hb
    exact (modeStep_ofb (h.trace.block b hb)).1
  · rw [h.out_length_div] at ha hb
    have hstep := h.trace.block b hb
    rw [show blockAt (blockInput .enc s) b = blockAt (blockInput .enc s) a from hblock.symm] at hstep
    exact modeStep_enc_eq_iff h.shape hm (h.trace.width a ha.le) (h.trace.width b hb.le) (blockAt_length (by omega))
      (h.trace.block a ha) hstep

end Sys2Proof.Machine
end

section
/-! The mode controller's state machine, step by step (45_mode_layer.md R137 to R139), does what MENC and MDEC do. -/

namespace Sys2Proof.Machine

/-! ### Runs of steps -/

theorem controllerSteps_add (dir : Direction) (c : Cipher) (m : Mode) (a b : Nat) (k : Controller) :
    controllerSteps dir c m (a + b) k = controllerSteps dir c m b (controllerSteps dir c m a k) := by
  induction a generalizing k with
  | zero => rw [Nat.zero_add, controllerSteps]
  | succ a ih =>
    rw [Nat.succ_add]
    exact ih _

/-- In `Idle` the controller stays as it is. -/
theorem controllerSteps_idle (dir : Direction) (c : Cipher) (m : Mode) (n : Nat) {k : Controller}
    (h : k.eng.mst = .idle) : controllerSteps dir c m n k = k := by
  induction n with
  | zero => rfl
  | succ n ih =>
    have hstep : controllerStep dir c m k = k := by simp only [controllerStep, h]
    rw [controllerSteps, hstep, ih]

/-! ### The blocks -/

/-- The controller before block `b`, with chaining value `z` and the output `x` so far. -/
def controllerAtBlock (dir : Direction) (m : Mode) (c : Cipher) (K : List BitSeq) (s : State) (z x : List Byte)
    (b : Nat) : Controller where
  eng := { storeChaining m z (storeSchedule c K s) with mst := blockOrAfter dir s b }
  bidx := b
  sched := K
  pad := match dir with
    | .enc => pad (message s)
    | .dec => x
  text := match dir with
    | .enc => x
    | .dec => []

/-- `CV` before a block is its chaining value, in ECB as well if that is the old `CV`. -/
theorem controllerAtBlock_cv {m : Mode} {s : State} {z : List Byte} (hwidth : z.length = 8)
    (hecb : m = .ecb → z = s.cv.toList) (dir : Direction) (c : Cipher) (K : List BitSeq) (x : List Byte) (b : Nat) :
    (controllerAtBlock dir m c K s z x b).eng.cv.toList = z := by
  cases m with
  | ecb => exact (hecb rfl).symm
  | cbc | cfb | ofb => exact bufferOf_toList hwidth

section Blocks

variable {dir : Direction} {c : Cipher} {m : Mode} {K : List BitSeq} {s : State} {z z' x o Y : List Byte} {b : Nat}

theorem controllerAtBlock_sched : (controllerAtBlock dir m c K s z x b).sched = K := rfl
theorem controllerAtBlock_bidx : (controllerAtBlock dir m c K s z x b).bidx = b := rfl
theorem controllerAtBlock_enc_pad : (controllerAtBlock .enc m c K s z x b).pad = pad (message s) := rfl

/-- `Block(b)` (R137): one step of the mode on the block, from the chaining value in `CV`. -/
theorem controllerStep_block (hb : b < blockCount dir s)
    (hcv : (controllerAtBlock dir m c K s z x b).eng.cv.toList = z)
    (hstep : modeStep dir s.cfg c K m z (blockAt (blockInput dir s) b) = .ok (o, z')) :
    controllerStep dir c m (controllerAtBlock dir m c K s z x b) =
      controllerAtBlock dir m c K s z' (x ++ o) (b + 1) := by
  have hmst : (controllerAtBlock dir m c K s z x b).eng.mst = .block := if_pos hb
  have hcfg : (controllerAtBlock dir m c K s z x b).eng.cfg = s.cfg := storeChaining_cfg ..
  cases dir with
  | enc =>
    replace hstep : encStep s.cfg c K m z (blockAt (pad (message s)) b) = .ok (o, z') := hstep
    simp only [controllerStep, hmst, hcv, hcfg, controllerAtBlock_sched, controllerAtBlock_bidx,
      controllerAtBlock_enc_pad, hstep]
    cases m <;> rfl
  | dec =>
    have hmessage : message (controllerAtBlock .dec m c K s z x b).eng = message s := by cases m <;> rfl
    replace hstep : decStep s.cfg c K m z (blockAt (message s) b) = .ok (o, z') := hstep
    simp only [controllerStep, hmst, hcv, hcfg, controllerAtBlock_sched, controllerAtBlock_bidx, hmessage, hstep]
    cases m <;> rfl

/-- The steps of the first `n` blocks. -/
theorem controllerSteps_blocks {Z : List (List Byte)}
    (h : ChainTrace (modeStep dir s.cfg c K m) (startChaining m s) (blockInput dir s) Y Z) {n : Nat}
    (hn : n ≤ blockCount dir s) :
    controllerSteps dir c m n (controllerAtBlock dir m c K s (startChaining m s) [] 0) =
      controllerAtBlock dir m c K s (Z.getD n []) (Y.take (8 * n)) n := by
  induction n with
  | zero => rw [h.start]; rfl
  | succ n ih =>
    have hlt : n < (blockInput dir s).length / 8 := by rwa [blockInput_length_div]
    have hecb : m = .ecb → Z.getD n [] = s.cv.toList := by
      rintro rfl
      exact h.ecb_constant hlt.le
    rw [controllerSteps_add, ih (by omega), take_succ_blocks]
    exact controllerStep_block hn (controllerAtBlock_cv (h.width n hlt.le) hecb ..) (h.block n hlt)

end Blocks

/-- All blocks: the controller holds what the block loop of the command leaves. -/
theorem controllerSteps_allBlocks (dir : Direction) {c : Cipher} (m : Mode) {K : List BitSeq} (hK : ScheduleShape c K)
    (s : State) :
    controllerSteps dir c m (blockCount dir s) (controllerAtBlock dir m c K s (startChaining m s) [] 0) =
      controllerAtBlock dir m c K s (messageLoop dir c m K s).cv (messageLoop dir c m K s).out (blockCount dir s) := by
  obtain ⟨Z, htrace, hlast⟩ := messageLoop_trace dir c m hK s
  have hlength : (messageLoop dir c m K s).out.length = 8 * blockCount dir s := by
    rw [htrace.length, blockInput_length_div]
  rw [controllerSteps_blocks htrace le_rfl, hlast, List.take_of_length_le hlength.le]

/-! ### The states before and after the blocks -/

/-- `Validate` of a command (R138, R139). -/
def validation (dir : Direction) (c : Cipher) (m : Mode) (s : State) : Option CipherError :=
  match dir with
  | .enc => validateEnc c m s
  | .dec => validateDec c m s

/-- The steps before the first block: `Validate`, `Schedule` and, in MENC, `PadIn` (R137). -/
def stepsBeforeBlocks (dir : Direction) : Nat :=
  match dir with
  | .enc => 3
  | .dec => 2

/-- The steps after the last block: `Done` and, in MDEC, `Unpad` (R137). -/
def stepsAfterBlocks (dir : Direction) : Nat :=
  match dir with
  | .enc => 1
  | .dec => 2

section Stages

variable {dir : Direction} {c : Cipher} {m : Mode} {K : List BitSeq} {s : State}

theorem validation_start (dir : Direction) (c : Cipher) (m : Mode) (s : State) :
    validation dir c m (controllerStart s).eng = validation dir c m s := by
  cases dir <;> rfl

/-- `Validate` raises the first error, or the controller goes on to `Schedule`. -/
theorem controllerStep_validate (dir : Direction) (c : Cipher) (m : Mode) {k : Controller} (hk : k.eng.mst = .validate) :
    controllerStep dir c m k = (validation dir c m k.eng).elim { k with eng := { k.eng with mst := .schedule } }
      fun e => controllerRaise e k := by
  cases dir with
  | enc =>
    simp only [controllerStep, hk, validation]
    cases validateEnc c m k.eng <;> rfl
  | dec =>
    simp only [controllerStep, hk, validation]
    cases validateDec c m k.eng <;> rfl

/-- An error found in `Validate` ends the run in its first step. -/
theorem controllerRun_invalid {e : CipherError} (h : validation dir c m s = some e) :
    (controllerRun dir c m s).eng = raise e true s := by
  have hfirst : controllerStep dir c m (controllerStart s) = controllerRaise e (controllerStart s) := by
    rw [controllerStep_validate dir c m rfl, validation_start, h, Option.elim_some]
  rw [controllerRun, controllerSteps, hfirst, controllerSteps_idle _ _ _ _ rfl]
  rfl

/-- The steps before the first block store the schedule and start the chaining value. -/
theorem controllerSteps_beforeBlocks (hv : validation dir c m s = none)
    (hK : deriveRoundKeys c (keyBits c s) = .ok K) :
    controllerSteps dir c m (stepsBeforeBlocks dir) (controllerStart s) =
      controllerAtBlock dir m c K s (startChaining m s) [] 0 := by
  have hvalid : controllerStep dir c m (controllerStart s) =
      { controllerStart s with eng := { s with mst := .schedule } } := by
    rw [controllerStep_validate dir c m rfl, validation_start, hv, Option.elim_none]
    rfl
  have hschedule : scheduleStage c { s with mst := .schedule } =
      .ok (K, storeSchedule c K { s with mst := .schedule }) := by
    rw [scheduleStage, show deriveRoundKeys c (keyBits c { s with mst := .schedule }) = .ok K from hK]
  cases dir <;>
  · simp only [stepsBeforeBlocks, controllerSteps, hvalid]
    simp only [controllerStep, hschedule]
    cases m <;> rfl

/-- A run that passes `Validate` is its last steps on what the block loop leaves. -/
theorem controllerRun_valid (hv : validation dir c m s = none) (hK : deriveRoundKeys c (keyBits c s) = .ok K)
    (hshape : ScheduleShape c K) :
    controllerRun dir c m s = controllerSteps dir c m (stepsAfterBlocks dir)
      (controllerAtBlock dir m c K s (messageLoop dir c m K s).cv (messageLoop dir c m K s).out (blockCount dir s)) := by
  have hsteps : blockCount dir s + 4 = stepsBeforeBlocks dir + blockCount dir s + stepsAfterBlocks dir := by
    cases dir <;> simp only [stepsBeforeBlocks, stepsAfterBlocks] <;> omega
  rw [controllerRun, hsteps, controllerSteps_add, controllerSteps_add, controllerSteps_beforeBlocks hv hK,
    controllerSteps_allBlocks dir m hshape s]

theorem controllerAtBlock_last_mst (dir : Direction) (m : Mode) (c : Cipher) (K : List BitSeq) (s : State)
    (z x : List Byte) : (controllerAtBlock dir m c K s z x (blockCount dir s)).eng.mst = afterBlocks dir :=
  if_neg (lt_irrefl _)

/-- `Done` (R138, R139). -/
theorem controllerStep_done {k : Controller} (h : k.eng.mst = .done) :
    (controllerStep dir c m k).eng = finishMessage k.text k.eng := by
  simp only [controllerStep, h]

/-- The controller's run of MENC. -/
theorem controllerRun_enc (c : Cipher) (m : Mode) (s : State) : (controllerRun .enc c m s).eng = encryptMessage c m s := by
  rcases encryptMessage_cases c m s with ⟨e, hv, hrun⟩ | ⟨hv, K, hK, hshape, hrun⟩
  · rw [hrun, controllerRun_invalid (dir := .enc) hv]
  · rw [hrun, controllerRun_valid (dir := .enc) hv hK hshape]
    exact controllerStep_done (controllerAtBlock_last_mst .enc ..)

/-- `Unpad` on data that is not validly padded (R139). -/
theorem controllerStep_unpad_error {k : Controller} {e : CipherError} (h : k.eng.mst = .unpad)
    (hunpad : unpad k.pad = .error e) : controllerStep dir c m k = controllerRaise e k := by
  simp only [controllerStep, h, hunpad]

/-- `Unpad` on validly padded data (R139). -/
theorem controllerStep_unpad_ok {k : Controller} {M : List Byte} (h : k.eng.mst = .unpad)
    (hunpad : unpad k.pad = .ok M) :
    controllerStep dir c m k = { k with text := M, eng := { k.eng with mst := .done } } := by
  simp only [controllerStep, h, hunpad]

/-- The controller's run of MDEC. -/
theorem controllerRun_dec (c : Cipher) (m : Mode) (s : State) : (controllerRun .dec c m s).eng = decryptMessage c m s := by
  rcases decryptMessage_cases c m s with ⟨e, hv, hrun⟩ | ⟨hv, K, hK, hshape, hend⟩
  · rw [hrun, controllerRun_invalid (dir := .dec) hv]
  have hlast := controllerAtBlock_last_mst .dec m c K s (messageLoop .dec c m K s).cv (messageLoop .dec c m K s).out
  rw [controllerRun_valid (dir := .dec) hv hK hshape, stepsAfterBlocks, controllerSteps]
  rcases hend with ⟨e, hunpad, hrun⟩ | ⟨M, hunpad, hrun⟩
  · rw [hrun, controllerStep_unpad_error hlast hunpad, controllerSteps_idle _ _ _ _ rfl]
    rfl
  · rw [hrun, controllerStep_unpad_ok hlast hunpad]
    exact controllerStep_done rfl

end Stages

/-- MENC leaves the controller at rest. -/
theorem encryptMessage_mst (c : Cipher) (m : Mode) (s : State) : (encryptMessage c m s).mst = .idle := by
  rcases encryptMessage_cases c m s with ⟨e, -, hrun⟩ | ⟨-, K, -, -, hrun⟩
  · rw [hrun]; rfl
  · rw [hrun]; rfl

/-- MDEC leaves the controller at rest. -/
theorem decryptMessage_mst (c : Cipher) (m : Mode) (s : State) : (decryptMessage c m s).mst = .idle := by
  rcases decryptMessage_cases c m s with ⟨e, -, hrun⟩ | ⟨-, K, -, -, ⟨e, -, hrun⟩ | ⟨M, -, hrun⟩⟩
  · rw [hrun]; rfl
  · rw [hrun]; rfl
  · rw [hrun]; rfl

/-- Settles O52: the states before the blocks, the blocks by induction, the states after them. -/
theorem controllerMachineComputesTheCommands : Obligations.ControllerMachineComputesTheCommands := by
  intro c m s
  rw [controllerRun_enc, controllerRun_dec, exec_mencInstr, exec_mdecInstr]
  exact ⟨⟨rfl, encryptMessage_mst c m s⟩, rfl, decryptMessage_mst c m s⟩

end Sys2Proof.Machine
end

section
/-! The system commands (46_system_commands.md): NOP does nothing (R160), CLR gives the reset state (R161), and their
bytes are the only legal ones with their `OP` (R59 case 3). -/

namespace Sys2Proof

/-- A byte whose `OP` is that of NOP or CLR and that has any other bit set is illegal: `RSV` is set (R59 case 1), or
`CIPHER` or `MODE` is not zero (R59 case 3). -/
theorem decode_eq_error_of_system {w : Byte} (hop : w.toNat % 16 ≤ 1) (hbits : w.toNat / 16 ≠ 0) :
    ∃ x, decode w = .error x := by
  rw [decode_eq_error_iff]
  cases hrsv : w.getLsbD 7 with
  | true => exact .inl rfl
  | false =>
    have hlow : w.toNat < 128 := BitVec.toNat_lt_of_msb_false ((BitVec.msb_eq_getLsbD_last w).trans hrsv)
    exact .inr (.inr (.inl ⟨hop, by omega⟩))

end Sys2Proof

namespace Sys2Proof.Machine

theorem exec_nop (s : State) : exec .nop s = .next s := rfl

theorem exec_clr (s : State) : exec .clr s = .next (clearState s) := rfl

theorem clearState_eq_resetWith (s : State) :
    clearState s = { State.resetWith s.cfg with pending := s.pending, returned := s.returned } := rfl

/-- CLR twice is as once (R161): `clearState` reads only what it keeps. -/
theorem clearState_clearState (s : State) : clearState (clearState s) = clearState s := by
  rw [clearState_eq_resetWith (clearState s), clearState_cfg, clearState_pending, clearState_returned,
    ← clearState_eq_resetWith]

/-- Settles O14: NOP's arm answers the state it is given; the illegal bytes are those of R59. -/
theorem nopChangesNothing : Obligations.NopChangesNothing := by
  refine ⟨exec_nop, decode_encode .nop, fun w hop hne => decode_eq_error_of_system (by omega) fun hbits => hne ?_⟩
  exact BitVec.eq_of_toNat_eq (show w.toNat = 0 by omega)

/-- Settles O15: the state after CLR is `clearState s`, read field by field. -/
theorem clrGivesTheResetState : Obligations.ClrGivesTheResetState := by
  refine ⟨fun s => ⟨clearState s, exec_clr s, clearState_status s, clearState_err s, clearState_klen s,
    clearState_ivlen s, clearState_mlen s, clearState_out s, ?keyAndSchedule, ?blocks, ?roundWords, ?roundKey, ?message,
    clearState_eq_resetWith s, ?twice⟩, decode_encode .clr,
    fun w hop hne => decode_eq_error_of_system (by omega) fun hbits => hne ?onlyByte⟩
  case keyAndSchedule | blocks | roundWords | roundKey => simp
  case message => intro off; rw [clearState_msg, memory_read_nil]
  case twice => rw [exec_clr, clearState_clearState]
  case onlyByte => exact BitVec.eq_of_toNat_eq (show w.toNat = 1 by omega)

end Sys2Proof.Machine
end

section
/-! No exception stops the machine (60_exceptions.md R170, 70_reset_and_hazards.md R205): an illegal byte is reported in
`ERR` and `STATUS`, and every command, store, read and reset answers a next state. -/

namespace Sys2Proof.Machine

/-- A byte written to `CMD` answers a next state: the command's if it decodes, `IllegalCommand` raised if not (R61,
R178). -/
theorem executeByte_next (w : Byte) (s : State) : ∃ t, executeByte w s = .next t := by
  cases h : decode w with
  | ok i => rw [executeByte_of_ok h]; exact exec_next i s
  | error x =>
    obtain ⟨t, ht, -⟩ := executeByte_of_error h s
    exact ⟨t, ht⟩

/-- Every host event is performed to completion (R45); only a write to `CMD` runs a command. -/
theorem performEvent_next (e : HostEvent) (s : State) : ∃ t, performEvent e s = .next t := by
  cases e with
  | read a => exact ⟨_, rfl⟩
  | write a v =>
    rw [performEvent]
    split
    · exact executeByte_next v s
    · exact ⟨_, rfl⟩
  | reset => exact ⟨_, rfl⟩

/-- The machine steps on whether an event waits or the engine is idle (R45, R187). -/
theorem step_next (s : State) : s.StepsOn := by
  rw [State.StepsOn]
  cases hp : s.pending with
  | nil => exact ⟨s, step_of_no_event hp⟩
  | cons e rest => rw [step_of_event hp]; exact performEvent_next e _

/-- Settles O6: a step performs at most one event, and no event and no command answers anything but a next state. -/
theorem everyStepGoesOn : Obligations.EveryStepGoesOn := ⟨step_next, exec_next⟩

end Sys2Proof.Machine
end

section
/-! The reset state (70_reset_and_hazards.md section 1, R196): every register and buffer is zero or empty, and the
invariant starts to hold there. -/

namespace Sys2Proof.Machine

/-- `OLEN` counts the bytes of `OUT`, of which reset leaves none (R17). -/
@[simp] theorem resetWith_olen (cfg : Config) : (State.resetWith cfg).olen = 0 := rfl

/-- Settles O13: the scalar registers are read off `State.resetWith`, each byte buffer and `RK` off its replicated zero,
and `MSG` off the empty memory, which reads as zero at every offset. -/
theorem resetStateIsAllZero : Obligations.ResetStateIsAllZero := by
  intro cfg
  refine ⟨resetWith_cfg cfg, resetWith_status cfg, resetWith_err cfg, resetWith_klen cfg, resetWith_ivlen cfg,
    resetWith_mlen cfg, resetWith_out cfg, resetWith_olen cfg, ?keyAndSchedule, ?blocks, ?roundWords, ?roundKey,
    ?message, resetWith_dst cfg, resetWith_mst cfg⟩
  case keyAndSchedule | blocks | roundWords | roundKey => simp
  case message => intro off; rw [resetWith_msg, memory_read_nil]

/-- Settles O53: `resetWith_inv` proves the invariant field by field. -/
theorem invariantHoldsAfterReset : Obligations.InvariantHoldsAfterReset := fun _ hlegal => resetWith_inv hlegal

end Sys2Proof.Machine
end
